-- ==== Sys2Proof/Word.lean ====
section
/-! DEFINITION. The two widths of the spec: a byte is 8 bits, a word (an address) is 16 bits
(00_scope.md R5). All register and memory values are unsigned bit vectors. -/

namespace Sys2Proof

/-- A byte: a register, a memory cell, an opcode, an operand byte (00_scope.md R5). -/
abbrev Byte := BitVec 8

/-- A word: the program counter or an address; arithmetic on it is mod 65536 (10_state.md R14). -/
abbrev Word := BitVec 16

end Sys2Proof
end

