-- ==== Sys2Proof/Config.lean ====
section
/-! DEFINITION. The free values: what the spec leaves to the implementation of the bus.
The named parameters the spec gives a default (00_scope.md R4) are in Machine/Params.lean. -/

namespace Sys2Proof

/-- FREE VALUE (log entry 2). The byte that the devices behind the bus, in state `d` and beside the RAM
`ram`, answer to a read of their address `a` (20_memory.md R41: "the core assumes nothing of the byte a
read returns"; 93_implementation_defined.md U4, U9, U10). No body: nothing can be proved of its value. -/
opaque Config.deviceByte (d : Nat) (ram : List Host.Cell) (a : Word) : Byte

/-- FREE VALUE (log entry 2). The state of the devices after a bus call to their address `a` in state
`d` beside the RAM `ram`: a read (`w = none`) or a write of a byte (`w = some v`). "A read may change
what later reads or writes do" (20_memory.md R41), and a write too: U4's "functions over a device
state". No body. -/
opaque Config.deviceAfter (d : Nat) (ram : List Host.Cell) (a : Word) (w : Option Byte) : Nat

/-- FREE VALUE (log entry 3). The bytes of RAM that the devices change "as a side effect of a bus call
inside a tick" (20_memory.md R58), oldest first; arguments as for `deviceAfter`. That a device may see
all of RAM (and so copy or modify it), and nothing of the core's registers, is the model's choice. No
body. -/
opaque Config.deviceWrites (d : Nat) (ram : List Host.Cell) (a : Word) (w : Option Byte) :
    List (Word × Byte)

end Sys2Proof
end

