-- ==== Sys2Proof/Machine/Bits.lean ====
section
/-! DEFINITION. Bit fields, byte order and extension: the primitives of 00_scope.md R5. -/

namespace Sys2Proof.Machine

/-- `hi(w) = w[15:8]`. -/
def hi (w : Word) : Byte := w.extractLsb' 8 8

/-- `lo(w) = w[7:0]`. -/
def lo (w : Word) : Byte := w.extractLsb' 0 8

/-- `{h, l}`, the word with high byte `h` and low byte `l`. -/
def mkWord (h l : Byte) : Word := h ++ l

/-- `zext_16(b)`: the byte widened with zeros. -/
def zext16 (b : Byte) : Word := b.setWidth 16

/-- `sext_16(b)`: the byte read as two's complement and widened to 16 bits. -/
def sext16 (b : Byte) : Word := b.signExtend 16

/-- `page(w) = w[15:8]`, the page number of an address. -/
def page (w : Word) : Byte := hi w

/-- `crossed(b, i)`: adding the index changes the page (40_engine_and_addressing.md R98). -/
def crossed (b : Word) (i : Byte) : Bool := page (b + zext16 i) != page b

end Sys2Proof.Machine
end

