-- ==== Sys2Proof/Syntax.lean ====
section
/-! DEFINITION. The instructions as syntax: one constructor of `Instr` per mnemonic of
spec/opcode_table.json, its operand form (one per row of that mnemonic) an argument. -/

namespace Sys2Proof

/-- The twelve addressing modes (30_encoding.md R72). -/
inductive Mode where
  | implied | immediate | zeroPage | zeroPageX | zeroPageY | absolute | absoluteX | absoluteY
  | indirect | indirectX | indirectY | relative
  deriving DecidableEq, Repr

/-- The operand of an instruction that works on a byte, with its operand bytes assembled as
30_encoding.md R73 says. `acc` is the Implied mode of the shifts and rotates: "operand is the
accumulator" (40_engine_and_addressing.md R100). -/
inductive Operand where
  | acc
  | imm  (d : Byte)
  | zp   (d : Byte)
  | zpx  (d : Byte)
  | zpy  (d : Byte)
  | abs  (w : Word)
  | absx (w : Word)
  | absy (w : Word)
  | indx (d : Byte)
  | indy (d : Byte)
  deriving DecidableEq, Repr

/-- The addressing mode of an operand (30_encoding.md R72). -/
def Operand.mode : Operand → Mode
  | .acc    => .implied
  | .imm _  => .immediate
  | .zp _   => .zeroPage
  | .zpx _  => .zeroPageX
  | .zpy _  => .zeroPageY
  | .abs _  => .absolute
  | .absx _ => .absoluteX
  | .absy _ => .absoluteY
  | .indx _ => .indirectX
  | .indy _ => .indirectY

/-- The operand of JMP: the target itself, or the address of a pointer to it
(40_engine_and_addressing.md R105, R108; 47_jumps.md R200). -/
inductive Target where
  | abs (w : Word)
  | ind (ptr : Word)
  deriving DecidableEq, Repr

/-- The 56 operations and the undocumented fallback (30_encoding.md R75, R77). The argument of a
branch is its displacement byte (R73), of JSR its 16-bit target, of `undoc` its opcode byte. -/
inductive Instr where
  | adc (o : Operand) | sbc (o : Operand)
  | and (o : Operand) | ora (o : Operand) | eor (o : Operand) | bit (o : Operand)
  | asl (o : Operand) | lsr (o : Operand) | rol (o : Operand) | ror (o : Operand)
  | lda (o : Operand) | ldx (o : Operand) | ldy (o : Operand)
  | sta (o : Operand) | stx (o : Operand) | sty (o : Operand)
  | tax | tay | txa | tya | tsx | txs
  | cmp (o : Operand) | cpx (o : Operand) | cpy (o : Operand)
  | inc (o : Operand) | dec (o : Operand)
  | inx | iny | dex | dey
  | bcc (d : Byte) | bcs (d : Byte) | beq (d : Byte) | bne (d : Byte)
  | bmi (d : Byte) | bpl (d : Byte) | bvc (d : Byte) | bvs (d : Byte)
  | jmp (t : Target) | jsr (w : Word) | rts
  | pha | php | pla | plp
  | brk | rti | nop
  | clc | sec | cli | sei | cld | sed | clv
  | undoc (op : Byte)
  deriving DecidableEq, Repr

/-- The length in bytes of an operand form: opcode byte and operand bytes (30_encoding.md R71). -/
def Operand.length : Operand → Nat
  | .acc => 1
  | .imm _ | .zp _ | .zpx _ | .zpy _ | .indx _ | .indy _ => 2
  | .abs _ | .absx _ | .absy _ => 3

/-- The length in bytes of an instruction (30_encoding.md R71, R72). -/
def Instr.length : Instr → Nat
  | .adc o | .sbc o | .and o | .ora o | .eor o | .bit o | .asl o | .lsr o | .rol o | .ror o
  | .lda o | .ldx o | .ldy o | .sta o | .stx o | .sty o | .cmp o | .cpx o | .cpy o
  | .inc o | .dec o => o.length
  | .bcc _ | .bcs _ | .beq _ | .bne _ | .bmi _ | .bpl _ | .bvc _ | .bvs _ => 2
  | .jmp _ | .jsr _ => 3
  | .tax | .tay | .txa | .tya | .tsx | .txs | .inx | .iny | .dex | .dey | .rts
  | .pha | .php | .pla | .plp | .brk | .rti | .nop
  | .clc | .sec | .cli | .sei | .cld | .sed | .clv | .undoc _ => 1

end Sys2Proof
end

