-- ==== Sys2Proof/Machine/State.lean ====
section
/-! DEFINITION. The state of the machine as plain data: the nine elements of 10_state.md R10, the
memory behind the bus (20_memory.md R43), and the model's own fields (log entries 2 to 5). -/

namespace Sys2Proof.Machine

/-- The eight flags of the status byte (10_state.md R16). -/
inductive Flag where
  | carry | zero | interruptDisable | decimal | break | unused | overflow | negative
  deriving DecidableEq, Repr

/-- The two interrupt sources (60_exceptions.md R241). -/
inductive InterruptKind where
  | nmi | irq
  deriving DecidableEq, Repr

/-- What the host may do between two ticks that changes something (10_state.md R29,
40_engine_and_addressing.md R113), and what other writers and the devices do between ticks
(20_memory.md R58): the change of a byte of RAM, and of the devices' own state. -/
inductive HostCall where
  | reset
  | requestInterrupt (kind : InterruptKind)
  | setFlag (f : Flag) (b : Bool)
  | otherWriter (a : Word) (v : Byte)
  | deviceChange (d : Nat)
  deriving DecidableEq, Repr

/-- One call of the bus contract with the byte it moved (20_memory.md R40, R46). -/
inductive BusCall where
  | read (a : Word) (v : Byte)
  | write (a : Word) (v : Byte)
  deriving DecidableEq, Repr

/-- What a window is: addresses that devices answer (20_memory.md R41, R48; log entry 2), or RAM that
a device may change inside a tick (R58; log entry 3). -/
inductive WindowKind where
  | device | shared
  deriving DecidableEq, Repr

/-- A range of addresses that are not RAM of the core alone. -/
structure Window where
  kind : WindowKind
  base : Nat
  size : Nat
  deriving DecidableEq, Repr

/-- The bytes behind the bus that differ from `unlistedByte`, addresses strictly rising. -/
abbrev Memory := List Host.Cell

/-- What a byte of RAM that nothing has written reads as: "its stated initial value, 0x00 where none
is stated" (20_memory.md R62; DESIGN CHOICE, unsafe, log entry 1). -/
def unlistedByte : Byte := 0x00

structure State where
  /-- Accumulator `A` (10_state.md R11). -/
  a : Byte
  /-- Index register `X` (10_state.md R12). -/
  x : Byte
  /-- Index register `Y` (10_state.md R12). -/
  y : Byte
  /-- Stack pointer `SP`; the address it denotes is `0x0100 + SP` (10_state.md R13). -/
  sp : Byte
  /-- Status byte `P` (10_state.md R15, R16). -/
  p : Byte
  /-- Program counter `PC` (10_state.md R14). -/
  pc : Word
  /-- Remaining-cycle counter, "signed" (10_state.md R22, 92_eei_decisions.md D16). -/
  cyc : Int
  /-- The NMI latch (10_state.md R23). -/
  nmiPending : Bool
  /-- The IRQ latch (10_state.md R23). -/
  irqPending : Bool
  /-- The RAM behind the bus (20_memory.md R43, R62). -/
  mem : Memory
  /-- MODEL'S OWN (log entries 2, 3): the windows of the devices, and of the RAM they may change. -/
  io : List Window
  /-- MODEL'S OWN (log entry 2): the state of the devices behind the bus
  (93_implementation_defined.md U4, U10), read by the free values of Config only. -/
  device : Nat
  /-- MODEL'S OWN (log entry 4): the bus calls of the current step, oldest first (20_memory.md R41). -/
  busLog : List BusCall
  /-- MODEL'S OWN (log entry 5): the host calls before each of the coming ticks, next tick first. -/
  agenda : List (List HostCall)
  deriving DecidableEq, Repr

/-- No rule raises a fault: "every `Tick()` completes, and a model's step function is total with no
fault outcome" (60_exceptions.md R240). The type is empty: nobody raises one (safe, log entry 17). -/
inductive Fault where
  deriving DecidableEq, Repr

/-- Why the model gives an instruction no meaning. -/
inductive Refusal where
  /-- Raised by `exec` for an instruction the model does not reach. Safe: nothing can be proved of
  such a run. No arm of `exec` raises it: every instruction has its meaning. -/
  | notModelled (mnemonic : String)
  deriving DecidableEq, Repr

/-- Right after `Reset()` (10_state.md R27, 70_reset_and_hazards.md R270): `PC` is the word at
0xFFFC/0xFFFD, here of a memory with nothing listed (log entries 1, 8); the latches are clear by the
spec's decision D12; `busLog` holds the two vector reads of the Reset. -/
def State.reset : State where
  a := 0x00
  x := 0x00
  y := 0x00
  sp := 0xFD
  p := 0x24
  pc := 0x0000
  cyc := 0
  nmiPending := false
  irqPending := false
  mem := []
  io := []
  device := 0
  busLog := [.read 0xFFFC 0x00, .read 0xFFFD 0x00]
  agenda := []

/-! ### Updates of one field -/

def State.setA (s : State) (v : Byte) : State := { s with a := v }
def State.setX (s : State) (v : Byte) : State := { s with x := v }
def State.setY (s : State) (v : Byte) : State := { s with y := v }
def State.setSp (s : State) (v : Byte) : State := { s with sp := v }
def State.setP (s : State) (v : Byte) : State := { s with p := v }
def State.setPc (s : State) (v : Word) : State := { s with pc := v }
def State.setCyc (s : State) (v : Int) : State := { s with cyc := v }
def State.setNmi (s : State) (v : Bool) : State := { s with nmiPending := v }
def State.setIrq (s : State) (v : Bool) : State := { s with irqPending := v }
def State.setMem (s : State) (v : Memory) : State := { s with mem := v }
def State.setDevice (s : State) (v : Nat) : State := { s with device := v }
def State.setBusLog (s : State) (v : List BusCall) : State := { s with busLog := v }
def State.setAgenda (s : State) (v : List (List HostCall)) : State := { s with agenda := v }

end Sys2Proof.Machine
end

