-- ==== Sys2Proof/Machine/Flags.lean ====
section
/-! DEFINITION. The status byte's flags and the arithmetic that sets them, as functions of bytes
(10_state.md R15 to R21; 41_arithmetic.md R122 to R124; 43_shifts.md; 45_compare_incdec.md R173). -/

namespace Sys2Proof.Machine

/-- The mask of a flag in the status byte (10_state.md R16). -/
def flagMask : Flag → Byte
  | .carry            => 0x01
  | .zero             => 0x02
  | .interruptDisable => 0x04
  | .decimal          => 0x08
  | .break            => 0x10
  | .unused           => 0x20
  | .overflow         => 0x40
  | .negative         => 0x80

/-- `P.f`. -/
def readFlag (f : Flag) (p : Byte) : Bool := (p &&& flagMask f) != 0

/-- `P.f <- b`: "writes one bit and leaves the others" (00_scope.md R5). -/
def writeFlag (f : Flag) (b : Bool) (p : Byte) : Byte :=
  if b then p ||| flagMask f else p &&& ~~~ flagMask f

/-- `SetZN(v)` (10_state.md R20). -/
def setZN (v p : Byte) : Byte :=
  writeFlag .negative v.msb (writeFlag .zero (v == 0) p)

/-- What an addition or subtraction core gives: the result byte and the four flags it decides. -/
structure AluOut where
  result   : Byte
  carry    : Bool
  overflow : Bool
  zero     : Bool
  negative : Bool
  deriving DecidableEq, Repr

/-- `AddBin(a, m, c)` (41_arithmetic.md R122): `s` is "the 9-bit result". -/
def addBin (a m : Byte) (c : Bool) : AluOut :=
  let s := a.toNat + m.toNat + c.toNat
  let r := BitVec.ofNat 8 s
  { result := r
    carry := decide (255 < s)
    overflow := ((a ^^^ r) &&& (m ^^^ r)).msb
    zero := r == 0
    negative := r.msb }

/-- `AddDec(a, m, c)` (41_arithmetic.md R123, `DECIMAL_ALU`, log entry 12): zero from the binary sum,
negative and overflow from the sum before the high digit is adjusted. -/
def addDec (a m : Byte) (c : Bool) : AluOut :=
  let sbin := BitVec.ofNat 8 (a.toNat + m.toNat + c.toNat)
  let low := (a &&& 0x0F).toNat + (m &&& 0x0F).toNat + c.toNat
  let al := if 0x0A ≤ low then (low + 0x06) % 16 + 0x10 else low
  let t := (a &&& 0xF0).toNat + (m &&& 0xF0).toNat + al
  let tb := BitVec.ofNat 8 t
  let adjusted := if 0xA0 ≤ t then t + 0x60 else t
  { result := BitVec.ofNat 8 adjusted
    carry := decide (0x100 ≤ adjusted)
    overflow := ((a ^^^ tb) &&& (m ^^^ tb)).msb
    zero := sbin == 0
    negative := tb.msb }

/-- `SubDec(a, m, c)` (41_arithmetic.md R124, `DECIMAL_ALU`, log entry 12): the four flags come from
the binary subtraction, the digits from integers adjusted where they borrow. -/
def subDec (a m : Byte) (c : Bool) : AluOut :=
  let bin := addBin a (m ^^^ 0xFF) c
  let low : Int := ((a &&& 0x0F).toNat : Int) - (m &&& 0x0F).toNat + c.toNat - 1
  let al : Int := if low < 0 then (low - 0x06) % 16 - 0x10 else low
  let t : Int := ((a &&& 0xF0).toNat : Int) - (m &&& 0xF0).toNat + al
  let adjusted : Int := if t < 0 then t - 0x60 else t
  { bin with result := BitVec.ofInt 8 adjusted }

/-- The core ADC uses: `P.D` selects BCD-adjusted or binary arithmetic (41_arithmetic.md R120). -/
def addCore (a m p : Byte) : AluOut :=
  if readFlag .decimal p then addDec a m (readFlag .carry p) else addBin a m (readFlag .carry p)

/-- The core SBC uses: `A - m - (1 - C)` is `A + not(m) + C` (41_arithmetic.md R121). -/
def subCore (a m p : Byte) : AluOut :=
  if readFlag .decimal p then subDec a m (readFlag .carry p)
  else addBin a (m ^^^ 0xFF) (readFlag .carry p)

/-- The flag writes of ADC and SBC: C, V, Z, N and no other (41_arithmetic.md R120, R121). -/
def setArithmetic (r : AluOut) (p : Byte) : Byte :=
  writeFlag .negative r.negative
    (writeFlag .zero r.zero (writeFlag .overflow r.overflow (writeFlag .carry r.carry p)))

/-- `Compare(r, m)` (45_compare_incdec.md R173): C, Z, N and no other. -/
def compareFlags (r m p : Byte) : Byte :=
  let d := r - m
  writeFlag .negative d.msb
    (writeFlag .zero (r == m) (writeFlag .carry (decide (m.toNat ≤ r.toNat)) p))

/-- BIT (42_logical.md R133): Z from `A and m`, N and V from bits 7 and 6 of `m`. -/
def bitFlags (a m p : Byte) : Byte :=
  writeFlag .overflow (m.getLsbD 6) (writeFlag .negative (m.getLsbD 7) (writeFlag .zero ((a &&& m) == 0) p))

/-- A shift's result and the status byte after it: the bit shifted out makes C, then `SetZN`. -/
def shifted (r : Byte) (out : Bool) (p : Byte) : Byte × Byte :=
  (r, setZN r (writeFlag .carry out p))

/-- ASL (43_shifts.md R140). -/
def aslOp (v p : Byte) : Byte × Byte := shifted (v <<< 1) (v.getLsbD 7) p

/-- LSR (43_shifts.md R141). -/
def lsrOp (v p : Byte) : Byte × Byte := shifted (v >>> 1) (v.getLsbD 0) p

/-- ROL (43_shifts.md R142): the old C enters bit 0. -/
def rolOp (v p : Byte) : Byte × Byte :=
  shifted ((v <<< 1) ||| (if readFlag .carry p then 0x01 else 0x00)) (v.getLsbD 7) p

/-- ROR (43_shifts.md R143): the old C enters bit 7. -/
def rorOp (v p : Byte) : Byte × Byte :=
  shifted ((v >>> 1) ||| (if readFlag .carry p then 0x80 else 0x00)) (v.getLsbD 0) p

/-- INC (45_compare_incdec.md R174). -/
def incOp (v p : Byte) : Byte × Byte := (v + 1, setZN (v + 1) p)

/-- DEC (45_compare_incdec.md R175). -/
def decOp (v p : Byte) : Byte × Byte := (v - 1, setZN (v - 1) p)

/-- The pushed copy of the status byte: bit 5 is 1, bit 4 says a software break (10_state.md R17,
R18; 60_exceptions.md R245). -/
def pushedStatus (p : Byte) (brk : Bool) : Byte :=
  (p &&& 0xCF) ||| 0x20 ||| (if brk then 0x10 else 0x00)

/-- The status byte loaded from a pulled byte: bit 4 discarded, bit 5 forced (48_stack.md R213,
49_system.md R221; the spec's decision D8, log entry 15). -/
def loadedStatus (v : Byte) : Byte := (v &&& 0xEF) ||| 0x20

end Sys2Proof.Machine
end

