-- ==== Sys2Proof/Machine/Params.lean ====
section
/-! DEFINITION. The named parameters of 00_scope.md R4, at the values the spec decides
(92_eei_decisions.md). `DECIMAL_ALU` (D7) is the pair `addDec`, `subDec` of Machine/Flags.lean. -/

namespace Sys2Proof.Machine

/-- `PAGE_CROSS_ON_WRITE` (D2, log entry 10): the resolver's extra cycle is charged to the write and
read-modify-write classes too. -/
def Params.pageCrossOnWrite : Bool := true

/-- The cycle count of `UNDOC_FALLBACK` (D6, log entry 11); its length, 1, is in the decoder. -/
def Params.undocCycles : Nat := 2

/-- `BRK_PUSH_OFFSET` (D9, log entry 13): what BRK adds to `PC` before the push. -/
def Params.brkPushOffset : Word := 1

/-- `RESET_CLEARS_PENDING` (D12, log entry 14). -/
def Params.resetClearsPending : Bool := true

/-- "consumes exactly 7 cycles before the next fetch" (60_exceptions.md R243, R244). -/
def Params.interruptCycles : Nat := 7

end Sys2Proof.Machine
end

