-- ==== Sys2Proof/Machine/Ops.lean ====
section
/-! DEFINITION. The named operations over memory and registers: the memory behind the bus, the two
bus calls, the stack, word reads, taking an interrupt and returning from one. -/

namespace Sys2Proof.Machine

/-! ### The memory behind the bus -/

/-- The byte at an address. -/
def Memory.read : Memory → Nat → Byte
  | [], _ => unlistedByte
  | (k, v) :: rest, a => if k = a then v else Memory.read rest a

/-- Put a byte at an address, keeping the canonical form: a byte equal to what an unlisted address
reads as is not listed. -/
def Memory.write : Memory → Nat → Byte → Memory
  | [], a, v => if v = unlistedByte then [] else [(a, v)]
  | (k, u) :: rest, a, v =>
    if a < k then (if v = unlistedByte then (k, u) :: rest else (a, v) :: (k, u) :: rest)
    else if a = k then (if v = unlistedByte then rest else (a, v) :: rest)
    else (k, u) :: Memory.write rest a v

/-- Every address of the list is at least `n` and below the end of the address space, the addresses
rise strictly, and no entry equals what an unlisted address reads as. -/
def Memory.wfFrom : Nat → Memory → Bool
  | _, [] => true
  | n, (k, v) :: rest =>
    decide (n ≤ k) && decide (k < 65536) && (v != unlistedByte) && Memory.wfFrom (k + 1) rest

/-- The canonical form of a memory of 65536 bytes (20_memory.md R43). -/
def Memory.wf (m : Memory) : Bool := Memory.wfFrom 0 m

/-- The byte of RAM at an address, without a bus call: the model's read of one byte. -/
def byteAt (s : State) (a : Word) : Byte := Memory.read s.mem a.toNat

/-! ### The bus (20_memory.md R40 to R49) -/

/-- The window holds the address. -/
def Window.holds (w : Window) (a : Word) : Bool :=
  decide (w.base ≤ a.toNat) && decide (a.toNat < w.base + w.size)

/-- The address is in a window of this kind. -/
def inWindow (k : WindowKind) (s : State) (a : Word) : Bool :=
  s.io.any fun w => w.kind == k && w.holds a

/-- The address is answered by a device, not by RAM (log entry 2). -/
def isDevice (s : State) (a : Word) : Bool := inWindow .device s a

/-- The byte of RAM at the address may be changed by a device inside a tick (20_memory.md R58; log
entry 3). -/
def isShared (s : State) (a : Word) : Bool := inWindow .shared s a

/-- The byte the bus answers to a read of `a` now: RAM's last written byte (20_memory.md R55, R62),
or a free value of the devices' state and RAM (R41; log entry 2). -/
def busAnswer (a : Word) (s : State) : Byte :=
  if isDevice s a then Config.deviceByte s.device s.mem a else byteAt s a

/-- The devices change bytes of RAM, each where RAM is shared with them (20_memory.md R58). -/
def deviceStores (s : State) : List (Word × Byte) → Memory → Memory
  | [], m => m
  | (a, v) :: rest, m =>
    deviceStores s rest (if isShared s a then Memory.write m a.toNat v else m)

/-- What a bus call to `a` does in the devices, nothing where RAM answers `a`: their state moves on, so
that this call may change what later ones answer, and RAM they share may change (20_memory.md R41, R58;
free values, log entries 2, 3); `w` is the byte written, `none` for a read. -/
def deviceCall (a : Word) (w : Option Byte) (s : State) : State :=
  if isDevice s a then
    (s.setMem (deviceStores s (Config.deviceWrites s.device s.mem a w) s.mem)).setDevice
      (Config.deviceAfter s.device s.mem a w)
  else s

/-- `MemRead(a, 1)`: one call of the bus `Read` (00_scope.md R5, 20_memory.md R46). -/
def busRead (a : Word) (s : State) : Byte × State :=
  (busAnswer a s, deviceCall a none (s.setBusLog (s.busLog ++ [.read a (busAnswer a s)])))

/-- `MemWrite(a, 1, v)`: one call of the bus `Write`. A write to a device goes to the device, not to
the RAM at that address (log entry 3), and may change what the devices answer later (log entry 2). -/
def busWrite (a : Word) (v : Byte) (s : State) : State :=
  deviceCall a (some v)
    ((s.setBusLog (s.busLog ++ [.write a v])).setMem
      (if isDevice s a then s.mem else Memory.write s.mem a.toNat v))

/-- A vector's or pointer's little-endian word, low byte read first (20_memory.md R46, R52). -/
def readWord (al ah : Word) (s : State) : Word × State :=
  let l := busRead al s
  let h := busRead ah l.2
  (mkWord h.1 l.1, h.2)

/-! ### Registers -/

/-- `SetZN(v)` on the machine's status byte (10_state.md R20). -/
def applyZN (v : Byte) (s : State) : State := s.setP (setZN v s.p)

/-- `P.f <- b`. -/
def applyFlag (f : Flag) (b : Bool) (s : State) : State := s.setP (writeFlag f b s.p)

/-- The status byte as any reader sees it: "status bit 5 ('Unused') always reads as 1"
(10_state.md R17). -/
def statusRead (s : State) : Byte := s.p ||| 0x20

/-- Leave the cycle total `n = base + ax + ox` in the counter
(40_engine_and_addressing.md R91, R93; 10_state.md R22). -/
def charge (base ax ox : Nat) (s : State) : State := s.setCyc ((base + ax + ox : Nat) : Int)

/-! ### The stack (20_memory.md R50 to R54) -/

/-- The address `SP` denotes: `0x0100 + SP` (10_state.md R13). -/
def stackAddr (sp : Byte) : Word := 0x0100 + zext16 sp

/-- `Push(v)` (20_memory.md R50). -/
def push (v : Byte) (s : State) : State :=
  (busWrite (stackAddr s.sp) v s).setSp (s.sp - 1)

/-- `Pull()` (20_memory.md R51). -/
def pull (s : State) : Byte × State :=
  busRead (stackAddr (s.sp + 1)) (s.setSp (s.sp + 1))

/-- A 16-bit value is pushed high byte first (20_memory.md R54). -/
def pushWord (w : Word) (s : State) : State := push (lo w) (push (hi w) s)

/-- A 16-bit value is pulled low byte first (20_memory.md R54). -/
def pullWord (s : State) : Word × State :=
  let l := pull s
  let h := pull l.2
  (mkWord h.1 l.1, h.2)

/-! ### Taking an interrupt and returning from one (60_exceptions.md R245, 49_system.md R221) -/

/-- The three vectors, low byte address (20_memory.md R52). -/
def nmiVector : Word := 0xFFFA
def resetVector : Word := 0xFFFC
def irqVector : Word := 0xFFFE

/-- `Interrupt(vec, brk)` (60_exceptions.md R245): push PC high, PC low and the status byte with
Break = `brk`, set `P.I`, load PC from the vector. -/
def enterInterrupt (vec : Word) (brk : Bool) (s : State) : State :=
  let s1 := pushWord s.pc s
  let s2 := push (pushedStatus s1.p brk) s1
  let s3 := applyFlag .interruptDisable true s2
  let r := readWord vec (vec + 1) s3
  r.2.setPc r.1

/-- Pull the status byte (48_stack.md R213). -/
def pullStatus (s : State) : State :=
  let v := pull s
  v.2.setP (loadedStatus v.1)

/-- "RTI restores status then program counter" (49_system.md R221). -/
def returnFromInterrupt (s : State) : State :=
  let r := pullWord (pullStatus s)
  r.2.setPc r.1

end Sys2Proof.Machine
end

