-- ==== Sys2Proof/Machine/Operands.lean ====
section
/-! DEFINITION. The addressing-mode resolvers (40_engine_and_addressing.md R97 to R111). Each starts
after the operand bytes are read, with `PC` at the next instruction, and makes the pointer reads of
its mode. -/

namespace Sys2Proof.Machine

/-- Where the operand is: the accumulator (`acc_operand`), the instruction's own operand byte
(Immediate, whose one bus read the fetch has made, log entry 7), or memory at `ea`. -/
inductive Place where
  | acc
  | imm (d : Byte)
  | ea (a : Word)
  deriving DecidableEq, Repr

/-- What a resolver leaves: the place, the extra cycles it owes (0 or 1), the state after its
pointer reads (10_state.md R24). -/
structure Resolved where
  place : Place
  extra : Nat
  st    : State

/-- The two-byte pointer in page zero: both bytes wrap inside the page (20_memory.md R45,
40_engine_and_addressing.md R109, R110). -/
def readZeroPagePointer (z : Byte) (s : State) : Word × State := readWord (zext16 z) (zext16 (z + 1)) s

/-- The pointer of JMP indirect: its second byte is in the first byte's own page
(40_engine_and_addressing.md R108). -/
def readJumpPointer (ptr : Word) (s : State) : Word × State :=
  readWord ptr (mkWord (hi ptr) (lo ptr + 1)) s

/-- 1 exactly when the index addition crosses a page (40_engine_and_addressing.md R98). -/
def crossExtra (b : Word) (i : Byte) : Nat := if crossed b i then 1 else 0

/-- An address in memory with no extra cycle and no pointer read. -/
def direct (a : Word) (s : State) : Resolved := { place := .ea a, extra := 0, st := s }

/-- A base address plus an index, mod 65536. -/
def indexed (b : Word) (i : Byte) (s : State) : Resolved :=
  { place := .ea (b + zext16 i), extra := crossExtra b i, st := s }

/-- The resolvers R100 to R107, R109, R110; index additions in page zero wrap in 8 bits. -/
def resolve (o : Operand) (s : State) : Resolved :=
  match o with
  | .acc    => { place := .acc, extra := 0, st := s }
  | .imm d  => { place := .imm d, extra := 0, st := s }
  | .zp d   => direct (zext16 d) s
  | .zpx d  => direct (zext16 (d + s.x)) s
  | .zpy d  => direct (zext16 (d + s.y)) s
  | .abs w  => direct w s
  | .absx w => indexed w s.x s
  | .absy w => indexed w s.y s
  | .indx d =>
    let r := readZeroPagePointer (d + s.x) s
    direct r.1 r.2
  | .indy d =>
    let r := readZeroPagePointer d s
    indexed r.1 s.y r.2

/-- `Operand()` (R97): the accumulator, or one bus read of `ea`. -/
def readPlace (p : Place) (s : State) : Byte × State :=
  match p with
  | .acc   => (s.a, s)
  | .imm d => (d, s)
  | .ea a  => busRead a s

/-- `Result(v)` (R97): the accumulator, or one bus write of `ea`. No instruction writes an Immediate
operand; such a term writes where its operand byte is (R101; log entry 18). -/
def writePlace (p : Place) (v : Byte) (s : State) : State :=
  match p with
  | .acc   => s.setA v
  | .imm _ => busWrite (s.pc - 1) v s
  | .ea a  => busWrite a v s

/-- JMP's effective address (R105, R108). -/
def resolveTarget (t : Target) (s : State) : Word × State :=
  match t with
  | .abs w => (w, s)
  | .ind ptr => readJumpPointer ptr s

/-- The branch target: the displacement is relative to the instruction after the branch, at which
`PC` stands (R111). -/
def branchTarget (d : Byte) (s : State) : Word := s.pc + sext16 d

end Sys2Proof.Machine
end

