-- ==== Sys2Proof/Machine/Timing.lean ====
section
/-! DEFINITION. Base cycle counts by operand-access class and mode (70_reset_and_hazards.md R290,
30_encoding.md R75), and the shapes of the classes (40_engine_and_addressing.md R96). A mode that
R290 gives no count in a class belongs to terms that are not well formed (log entry 18). -/

namespace Sys2Proof.Machine

/-- Base cycles of the read class. -/
def readCycles : Operand → Nat
  | .acc => 2 | .imm _ => 2 | .zp _ => 3 | .zpx _ => 4 | .zpy _ => 4
  | .abs _ => 4 | .absx _ => 4 | .absy _ => 4 | .indx _ => 6 | .indy _ => 5

/-- Base cycles of the write class. -/
def storeCycles : Operand → Nat
  | .acc => 2 | .imm _ => 2 | .zp _ => 3 | .zpx _ => 4 | .zpy _ => 4
  | .abs _ => 4 | .absx _ => 5 | .absy _ => 5 | .indx _ => 6 | .indy _ => 6

/-- Base cycles of the read-modify-write class. -/
def modifyCycles : Operand → Nat
  | .acc => 2 | .imm _ => 2 | .zp _ => 5 | .zpx _ => 6 | .zpy _ => 6
  | .abs _ => 6 | .absx _ => 7 | .absy _ => 7 | .indx _ => 7 | .indy _ => 7

/-- The resolver's extra as the write and read-modify-write classes pay it (R93, D2, log entry 10). -/
def writeExtra (ax : Nat) : Nat := if Params.pageCrossOnWrite then ax else 0

/-- Read class: one read of the operand, then what the operation does with it. -/
def readOp (o : Operand) (k : Byte → State → State) (s : State) : State :=
  let r := resolve o s
  let m := readPlace r.place r.st
  charge (readCycles o) r.extra 0 (k m.1 m.2)

/-- Write class: one write, and no read of `ea`. -/
def storeOp (o : Operand) (v : Byte) (s : State) : State :=
  let r := resolve o s
  charge (storeCycles o) (writeExtra r.extra) 0 (writePlace r.place v r.st)

/-- Read-modify-write class: one read, then one write of the same place. `f` gives the result and
the new status byte from the operand and the old status byte. -/
def modifyOp (o : Operand) (f : Byte → Byte → Byte × Byte) (s : State) : State :=
  let r := resolve o s
  let m := readPlace r.place r.st
  let q := f m.1 m.2.p
  charge (modifyCycles o) (writeExtra r.extra) 0 (writePlace r.place q.1 (m.2.setP q.2))

/-- `Branch(cond)` (46_branches.md R185): base 2, one more if taken, one more again if the target is
in another page than the next instruction. -/
def branchOp (cond : Bool) (d : Byte) (s : State) : State :=
  let ea := branchTarget d s
  if cond then charge 2 0 (if page ea = page s.pc then 1 else 2) (s.setPc ea)
  else charge 2 0 0 s

end Sys2Proof.Machine
end

