-- ==== Sys2Proof/Machine/Arithmetic.lean ====
section
/-! DEFINITION. ADC and SBC (41_arithmetic.md). -/

namespace Sys2Proof.Machine

/-- ADC's and SBC's write of the result and of C, V, Z, N, from the core's output. -/
def putArithmetic (r : AluOut) (s : State) : State := (s.setP (setArithmetic r s.p)).setA r.result

/-- ADC (41_arithmetic.md R120). -/
def execAdc (o : Operand) (s : State) : Host.Outcome State Fault Refusal :=
  .next (readOp o (fun m t => putArithmetic (addCore t.a m t.p) t) s)

/-- SBC (41_arithmetic.md R121). -/
def execSbc (o : Operand) (s : State) : Host.Outcome State Fault Refusal :=
  .next (readOp o (fun m t => putArithmetic (subCore t.a m t.p) t) s)


end Sys2Proof.Machine
end

