-- ==== Sys2Proof/Machine/Branches.lean ====
section
/-! DEFINITION. The eight conditional branches (46_branches.md). -/

namespace Sys2Proof.Machine

/-- BCC (46_branches.md R186). -/
def execBcc (d : Byte) (s : State) : Host.Outcome State Fault Refusal :=
  .next (branchOp (!readFlag .carry s.p) d s)

/-- BCS (46_branches.md R187). -/
def execBcs (d : Byte) (s : State) : Host.Outcome State Fault Refusal :=
  .next (branchOp (readFlag .carry s.p) d s)

/-- BEQ (46_branches.md R188). -/
def execBeq (d : Byte) (s : State) : Host.Outcome State Fault Refusal :=
  .next (branchOp (readFlag .zero s.p) d s)

/-- BNE (46_branches.md R189). -/
def execBne (d : Byte) (s : State) : Host.Outcome State Fault Refusal :=
  .next (branchOp (!readFlag .zero s.p) d s)

/-- BMI (46_branches.md R190). -/
def execBmi (d : Byte) (s : State) : Host.Outcome State Fault Refusal :=
  .next (branchOp (readFlag .negative s.p) d s)

/-- BPL (46_branches.md R191). -/
def execBpl (d : Byte) (s : State) : Host.Outcome State Fault Refusal :=
  .next (branchOp (!readFlag .negative s.p) d s)

/-- BVC (46_branches.md R192). -/
def execBvc (d : Byte) (s : State) : Host.Outcome State Fault Refusal :=
  .next (branchOp (!readFlag .overflow s.p) d s)

/-- BVS (46_branches.md R193). -/
def execBvs (d : Byte) (s : State) : Host.Outcome State Fault Refusal :=
  .next (branchOp (readFlag .overflow s.p) d s)


end Sys2Proof.Machine
end

