-- ==== Sys2Proof/Machine/LoadStore.lean ====
section
/-! DEFINITION. Loads, stores and register transfers (44_load_store_transfer.md). -/

namespace Sys2Proof.Machine

/-- `A <- v; SetZN(A)`. -/
def putA (v : Byte) (s : State) : State := applyZN v (s.setA v)

/-- `X <- v; SetZN(X)`. -/
def putX (v : Byte) (s : State) : State := applyZN v (s.setX v)

/-- `Y <- v; SetZN(Y)`. -/
def putY (v : Byte) (s : State) : State := applyZN v (s.setY v)

/-- LDA (44_load_store_transfer.md R150). -/
def execLda (o : Operand) (s : State) : Host.Outcome State Fault Refusal :=
  .next (readOp o putA s)

/-- LDX (44_load_store_transfer.md R151). -/
def execLdx (o : Operand) (s : State) : Host.Outcome State Fault Refusal :=
  .next (readOp o putX s)

/-- LDY (44_load_store_transfer.md R152). -/
def execLdy (o : Operand) (s : State) : Host.Outcome State Fault Refusal :=
  .next (readOp o putY s)

/-- STA (44_load_store_transfer.md R153). -/
def execSta (o : Operand) (s : State) : Host.Outcome State Fault Refusal :=
  .next (storeOp o s.a s)

/-- STX (44_load_store_transfer.md R154). -/
def execStx (o : Operand) (s : State) : Host.Outcome State Fault Refusal :=
  .next (storeOp o s.x s)

/-- STY (44_load_store_transfer.md R155). -/
def execSty (o : Operand) (s : State) : Host.Outcome State Fault Refusal :=
  .next (storeOp o s.y s)

/-- TAX (44_load_store_transfer.md R156). -/
def execTax (s : State) : Host.Outcome State Fault Refusal :=
  .next (charge 2 0 0 (putX s.a s))

/-- TAY (44_load_store_transfer.md R157). -/
def execTay (s : State) : Host.Outcome State Fault Refusal :=
  .next (charge 2 0 0 (putY s.a s))

/-- TXA (44_load_store_transfer.md R158). -/
def execTxa (s : State) : Host.Outcome State Fault Refusal :=
  .next (charge 2 0 0 (putA s.x s))

/-- TYA (44_load_store_transfer.md R159). -/
def execTya (s : State) : Host.Outcome State Fault Refusal :=
  .next (charge 2 0 0 (putA s.y s))

/-- TSX (44_load_store_transfer.md R160). -/
def execTsx (s : State) : Host.Outcome State Fault Refusal :=
  .next (charge 2 0 0 (putX s.sp s))

/-- TXS (44_load_store_transfer.md R161): the one transfer that sets no flag. -/
def execTxs (s : State) : Host.Outcome State Fault Refusal :=
  .next (charge 2 0 0 (s.setSp s.x))


end Sys2Proof.Machine
end

