-- ==== Sys2Proof/Machine/Compare.lean ====
section
/-! DEFINITION. Compares, increments and decrements (45_compare_incdec.md). -/

namespace Sys2Proof.Machine

/-- CMP (45_compare_incdec.md R170). -/
def execCmp (o : Operand) (s : State) : Host.Outcome State Fault Refusal :=
  .next (readOp o (fun m t => t.setP (compareFlags t.a m t.p)) s)

/-- CPX (45_compare_incdec.md R171). -/
def execCpx (o : Operand) (s : State) : Host.Outcome State Fault Refusal :=
  .next (readOp o (fun m t => t.setP (compareFlags t.x m t.p)) s)

/-- CPY (45_compare_incdec.md R172). -/
def execCpy (o : Operand) (s : State) : Host.Outcome State Fault Refusal :=
  .next (readOp o (fun m t => t.setP (compareFlags t.y m t.p)) s)

/-- INC (45_compare_incdec.md R174). -/
def execInc (o : Operand) (s : State) : Host.Outcome State Fault Refusal :=
  .next (modifyOp o incOp s)

/-- DEC (45_compare_incdec.md R175). -/
def execDec (o : Operand) (s : State) : Host.Outcome State Fault Refusal :=
  .next (modifyOp o decOp s)

/-- INX (45_compare_incdec.md R176). -/
def execInx (s : State) : Host.Outcome State Fault Refusal :=
  .next (charge 2 0 0 (putX (s.x + 1) s))

/-- INY (45_compare_incdec.md R177). -/
def execIny (s : State) : Host.Outcome State Fault Refusal :=
  .next (charge 2 0 0 (putY (s.y + 1) s))

/-- DEX (45_compare_incdec.md R178). -/
def execDex (s : State) : Host.Outcome State Fault Refusal :=
  .next (charge 2 0 0 (putX (s.x - 1) s))

/-- DEY (45_compare_incdec.md R179). -/
def execDey (s : State) : Host.Outcome State Fault Refusal :=
  .next (charge 2 0 0 (putY (s.y - 1) s))


end Sys2Proof.Machine
end

