-- ==== Sys2Proof/Machine/Jumps.lean ====
section
/-! DEFINITION. Jumps, call and return (47_jumps.md). -/

namespace Sys2Proof.Machine

/-- JMP (47_jumps.md R200): base 3 absolute, 5 indirect (70_reset_and_hazards.md R290). -/
def jumpCycles : Target → Nat
  | .abs _ => 3
  | .ind _ => 5

/-- JMP (47_jumps.md R200). -/
def execJmp (t : Target) (s : State) : Host.Outcome State Fault Refusal :=
  .next (charge (jumpCycles t) 0 0 ((resolveTarget t s).2.setPc (resolveTarget t s).1))

/-- JSR (47_jumps.md R201): pushes "return address−1", the address of its own third byte. -/
def execJsr (w : Word) (s : State) : Host.Outcome State Fault Refusal :=
  .next (charge 6 0 0 ((pushWord (s.pc - 1) s).setPc w))

/-- RTS (47_jumps.md R202). -/
def execRts (s : State) : Host.Outcome State Fault Refusal :=
  .next (charge 6 0 0 ((pullWord s).2.setPc ((pullWord s).1 + 1)))


end Sys2Proof.Machine
end

