-- ==== Sys2Proof/Machine/Logical.lean ====
section
/-! DEFINITION. AND, ORA, EOR, BIT (42_logical.md). -/

namespace Sys2Proof.Machine

/-- AND (42_logical.md R130). -/
def execAnd (o : Operand) (s : State) : Host.Outcome State Fault Refusal :=
  .next (readOp o (fun m t => putA (t.a &&& m) t) s)

/-- ORA (42_logical.md R131). -/
def execOra (o : Operand) (s : State) : Host.Outcome State Fault Refusal :=
  .next (readOp o (fun m t => putA (t.a ||| m) t) s)

/-- EOR (42_logical.md R132). -/
def execEor (o : Operand) (s : State) : Host.Outcome State Fault Refusal :=
  .next (readOp o (fun m t => putA (t.a ^^^ m) t) s)

/-- BIT (42_logical.md R133): `A` is not changed. -/
def execBit (o : Operand) (s : State) : Host.Outcome State Fault Refusal :=
  .next (readOp o (fun m t => t.setP (bitFlags t.a m t.p)) s)


end Sys2Proof.Machine
end

