-- ==== Sys2Proof/Machine/Shifts.lean ====
section
/-! DEFINITION. The shifts and rotates (43_shifts.md). -/

namespace Sys2Proof.Machine

/-- ASL (43_shifts.md R140, R144). -/
def execAsl (o : Operand) (s : State) : Host.Outcome State Fault Refusal :=
  .next (modifyOp o aslOp s)

/-- LSR (43_shifts.md R141, R144). -/
def execLsr (o : Operand) (s : State) : Host.Outcome State Fault Refusal :=
  .next (modifyOp o lsrOp s)

/-- ROL (43_shifts.md R142, R144). -/
def execRol (o : Operand) (s : State) : Host.Outcome State Fault Refusal :=
  .next (modifyOp o rolOp s)

/-- ROR (43_shifts.md R143, R144). -/
def execRor (o : Operand) (s : State) : Host.Outcome State Fault Refusal :=
  .next (modifyOp o rorOp s)


end Sys2Proof.Machine
end

