-- ==== Sys2Proof/Machine/Stack.lean ====
section
/-! DEFINITION. The stack instructions (48_stack.md). -/

namespace Sys2Proof.Machine

/-- PHA (48_stack.md R210). -/
def execPha (s : State) : Host.Outcome State Fault Refusal :=
  .next (charge 3 0 0 (push s.a s))

/-- PHP (48_stack.md R211): the pushed byte has bits 4 and 5 set, `P` is not changed. -/
def execPhp (s : State) : Host.Outcome State Fault Refusal :=
  .next (charge 3 0 0 (push (s.p ||| 0x30) s))

/-- PLA (48_stack.md R212). -/
def execPla (s : State) : Host.Outcome State Fault Refusal :=
  .next (charge 4 0 0 (putA (pull s).1 (pull s).2))

/-- PLP (48_stack.md R213). -/
def execPlp (s : State) : Host.Outcome State Fault Refusal :=
  .next (charge 4 0 0 (pullStatus s))


end Sys2Proof.Machine
end

