-- ==== Sys2Proof/Machine/System.lean ====
section
/-! DEFINITION. BRK, RTI, NOP, the flag instructions and the undocumented fallback (49_system.md). -/

namespace Sys2Proof.Machine

/-- BRK (49_system.md R220): skip one padding byte, which is not read, then the entry sequence with
Break = 1, whatever `P.I` holds. -/
def execBrk (s : State) : Host.Outcome State Fault Refusal :=
  .next (charge 7 0 0 (enterInterrupt irqVector true (s.setPc (s.pc + Params.brkPushOffset))))

/-- RTI (49_system.md R221). -/
def execRti (s : State) : Host.Outcome State Fault Refusal :=
  .next (charge 6 0 0 (returnFromInterrupt s))

/-- NOP (49_system.md R222). -/
def execNop (s : State) : Host.Outcome State Fault Refusal :=
  .next (charge 2 0 0 s)

/-- CLC (49_system.md R223). -/
def execClc (s : State) : Host.Outcome State Fault Refusal :=
  .next (charge 2 0 0 (applyFlag .carry false s))

/-- SEC (49_system.md R224). -/
def execSec (s : State) : Host.Outcome State Fault Refusal :=
  .next (charge 2 0 0 (applyFlag .carry true s))

/-- CLI (49_system.md R225). -/
def execCli (s : State) : Host.Outcome State Fault Refusal :=
  .next (charge 2 0 0 (applyFlag .interruptDisable false s))

/-- SEI (49_system.md R226). -/
def execSei (s : State) : Host.Outcome State Fault Refusal :=
  .next (charge 2 0 0 (applyFlag .interruptDisable true s))

/-- CLD (49_system.md R227). -/
def execCld (s : State) : Host.Outcome State Fault Refusal :=
  .next (charge 2 0 0 (applyFlag .decimal false s))

/-- SED (49_system.md R228). -/
def execSed (s : State) : Host.Outcome State Fault Refusal :=
  .next (charge 2 0 0 (applyFlag .decimal true s))

/-- CLV (49_system.md R229). -/
def execClv (s : State) : Host.Outcome State Fault Refusal :=
  .next (charge 2 0 0 (applyFlag .overflow false s))

/-- UNDOC, the fallback of every undocumented opcode (49_system.md R230; log entry 11). -/
def execUndoc (_op : Byte) (s : State) : Host.Outcome State Fault Refusal :=
  .next (charge Params.undocCycles 0 0 s)


end Sys2Proof.Machine
end

