-- ==== Sys2Proof/WellFormed.lean ====
section
/-! DEFINITION. Which instruction terms are instructions of the machine: an operand in one of the
modes 30_encoding.md R75 gives that mnemonic, and `undoc` only on a byte R77 lists. -/

namespace Sys2Proof

/-- The 105 undocumented opcode bytes, row by row as 30_encoding.md R77 lists them. -/
def undocumentedOpcodes : List Byte :=
  [0x02, 0x03, 0x04, 0x07, 0x0B, 0x0C, 0x0F] ++
  [0x12, 0x13, 0x14, 0x17, 0x1A, 0x1B, 0x1C, 0x1F] ++
  [0x22, 0x23, 0x27, 0x2B, 0x2F] ++
  [0x32, 0x33, 0x34, 0x37, 0x3A, 0x3B, 0x3C, 0x3F] ++
  [0x42, 0x43, 0x44, 0x47, 0x4B, 0x4F] ++
  [0x52, 0x53, 0x54, 0x57, 0x5A, 0x5B, 0x5C, 0x5F] ++
  [0x62, 0x63, 0x64, 0x67, 0x6B, 0x6F] ++
  [0x72, 0x73, 0x74, 0x77, 0x7A, 0x7B, 0x7C, 0x7F] ++
  [0x80, 0x82, 0x83, 0x87, 0x89, 0x8B, 0x8F] ++
  [0x92, 0x93, 0x97, 0x9B, 0x9C, 0x9E, 0x9F] ++
  [0xA3, 0xA7, 0xAB, 0xAF] ++
  [0xB2, 0xB3, 0xB7, 0xBB, 0xBF] ++
  [0xC2, 0xC3, 0xC7, 0xCB, 0xCF] ++
  [0xD2, 0xD3, 0xD4, 0xD7, 0xDA, 0xDB, 0xDC, 0xDF] ++
  [0xE2, 0xE3, 0xE7, 0xEB, 0xEF] ++
  [0xF2, 0xF3, 0xF4, 0xF7, 0xFA, 0xFB, 0xFC, 0xFF]

/-- The eight modes of ADC, SBC, AND, ORA, EOR, LDA and CMP (30_encoding.md R75). -/
def aluModes : List Mode :=
  [.immediate, .zeroPage, .zeroPageX, .absolute, .absoluteX, .absoluteY, .indirectX, .indirectY]

/-- The five modes of the shifts and rotates (43_shifts.md R144). -/
def shiftModes : List Mode := [.implied, .zeroPage, .zeroPageX, .absolute, .absoluteX]

/-- The four modes of INC and DEC (45_compare_incdec.md R174, R175). -/
def incModes : List Mode := [.zeroPage, .zeroPageX, .absolute, .absoluteX]

/-- The modes 30_encoding.md R75 gives each mnemonic with an operand form, and the bytes R77 gives
UNDOC; an instruction without an operand choice is always well formed. -/
def Instr.wellFormed : Instr → Bool
  | .adc o | .sbc o | .and o | .ora o | .eor o | .lda o | .cmp o => aluModes.contains o.mode
  | .bit o => [Mode.zeroPage, .absolute].contains o.mode
  | .asl o | .lsr o | .rol o | .ror o => shiftModes.contains o.mode
  | .ldx o => [Mode.immediate, .zeroPage, .zeroPageY, .absolute, .absoluteY].contains o.mode
  | .ldy o => [Mode.immediate, .zeroPage, .zeroPageX, .absolute, .absoluteX].contains o.mode
  | .sta o =>
    [Mode.zeroPage, .zeroPageX, .absolute, .absoluteX, .absoluteY, .indirectX, .indirectY].contains
      o.mode
  | .stx o => [Mode.zeroPage, .zeroPageY, .absolute].contains o.mode
  | .sty o => [Mode.zeroPage, .zeroPageX, .absolute].contains o.mode
  | .cpx o | .cpy o => [Mode.immediate, .zeroPage, .absolute].contains o.mode
  | .inc o | .dec o => incModes.contains o.mode
  | .undoc op => undocumentedOpcodes.contains op
  | .tax | .tay | .txa | .tya | .tsx | .txs | .inx | .iny | .dex | .dey
  | .bcc _ | .bcs _ | .beq _ | .bne _ | .bmi _ | .bpl _ | .bvc _ | .bvs _
  | .jmp _ | .jsr _ | .rts | .pha | .php | .pla | .plp | .brk | .rti | .nop
  | .clc | .sec | .cli | .sei | .cld | .sed | .clv => true

/-- `i` is an instruction of the machine. -/
abbrev WellFormed (i : Instr) : Prop := i.wellFormed = true

end Sys2Proof
end

