-- ==== Sys2Proof/Decode.lean ====
section
/-! DEFINITION. Decoding bytes to instructions, total, rejecting by name, and after it the encoder.
The decoder is written from the 16 by 16 grid of 30_encoding.md R76 and the formats of R71, R72;
the encoder from the list of R75. -/

namespace Sys2Proof

open Machine (hi lo mkWord)

/-- Why a list of bytes is not decoded. The machine itself never meets these: it reads as many bytes
as the opcode asks for (log entry 19). -/
inductive DecodeError where
  /-- There is no opcode byte. -/
  | noOpcode
  /-- The list ends before the operand bytes that the opcode's format asks for. -/
  | missingOperand
  deriving DecidableEq, Repr

/-- What an opcode byte selects: the format of 30_encoding.md R71 and the instruction its operand
bytes complete. -/
inductive Form where
  /-- F1: the opcode byte alone. -/
  | f1 (i : Instr)
  /-- F2: one operand byte `d8`. -/
  | f2 (mk : Byte → Instr)
  /-- F3: two operand bytes, assembled little-endian as `{hi8, lo8}` (30_encoding.md R73). -/
  | f3 (mk : Word → Instr)

/-! The cells of the grid, one kind per mode tag of 30_encoding.md R72; `cellNone` is `--`. -/

def cellNone : Option Form := none
def cellImp (i : Instr) : Option Form := some (.f1 i)
def cellImm (mk : Operand → Instr) : Option Form := some (.f2 fun d => mk (.imm d))
def cellZp (mk : Operand → Instr) : Option Form := some (.f2 fun d => mk (.zp d))
def cellZpX (mk : Operand → Instr) : Option Form := some (.f2 fun d => mk (.zpx d))
def cellZpY (mk : Operand → Instr) : Option Form := some (.f2 fun d => mk (.zpy d))
def cellAbs (mk : Operand → Instr) : Option Form := some (.f3 fun w => mk (.abs w))
def cellAbsX (mk : Operand → Instr) : Option Form := some (.f3 fun w => mk (.absx w))
def cellAbsY (mk : Operand → Instr) : Option Form := some (.f3 fun w => mk (.absy w))
def cellIndX (mk : Operand → Instr) : Option Form := some (.f2 fun d => mk (.indx d))
def cellIndY (mk : Operand → Instr) : Option Form := some (.f2 fun d => mk (.indy d))
def cellRel (mk : Byte → Instr) : Option Form := some (.f2 mk)
def cellJmp : Option Form := some (.f3 fun w => .jmp (.abs w))
def cellJmpInd : Option Form := some (.f3 fun w => .jmp (.ind w))
def cellJsr : Option Form := some (.f3 .jsr)

/-- Row 0x of the grid of 30_encoding.md R76. -/
def gridRow0 : List (Option Form) :=
  [cellImp .brk, cellIndX .ora, cellNone, cellNone,
   cellNone, cellZp .ora, cellZp .asl, cellNone,
   cellImp .php, cellImm .ora, cellImp (.asl .acc), cellNone,
   cellNone, cellAbs .ora, cellAbs .asl, cellNone]

/-- Row 1x of the grid of 30_encoding.md R76. -/
def gridRow1 : List (Option Form) :=
  [cellRel .bpl, cellIndY .ora, cellNone, cellNone,
   cellNone, cellZpX .ora, cellZpX .asl, cellNone,
   cellImp .clc, cellAbsY .ora, cellNone, cellNone,
   cellNone, cellAbsX .ora, cellAbsX .asl, cellNone]

/-- Row 2x of the grid of 30_encoding.md R76. -/
def gridRow2 : List (Option Form) :=
  [cellJsr, cellIndX .and, cellNone, cellNone,
   cellZp .bit, cellZp .and, cellZp .rol, cellNone,
   cellImp .plp, cellImm .and, cellImp (.rol .acc), cellNone,
   cellAbs .bit, cellAbs .and, cellAbs .rol, cellNone]

/-- Row 3x of the grid of 30_encoding.md R76. -/
def gridRow3 : List (Option Form) :=
  [cellRel .bmi, cellIndY .and, cellNone, cellNone,
   cellNone, cellZpX .and, cellZpX .rol, cellNone,
   cellImp .sec, cellAbsY .and, cellNone, cellNone,
   cellNone, cellAbsX .and, cellAbsX .rol, cellNone]

/-- Row 4x of the grid of 30_encoding.md R76. -/
def gridRow4 : List (Option Form) :=
  [cellImp .rti, cellIndX .eor, cellNone, cellNone,
   cellNone, cellZp .eor, cellZp .lsr, cellNone,
   cellImp .pha, cellImm .eor, cellImp (.lsr .acc), cellNone,
   cellJmp, cellAbs .eor, cellAbs .lsr, cellNone]

/-- Row 5x of the grid of 30_encoding.md R76. -/
def gridRow5 : List (Option Form) :=
  [cellRel .bvc, cellIndY .eor, cellNone, cellNone,
   cellNone, cellZpX .eor, cellZpX .lsr, cellNone,
   cellImp .cli, cellAbsY .eor, cellNone, cellNone,
   cellNone, cellAbsX .eor, cellAbsX .lsr, cellNone]

/-- Row 6x of the grid of 30_encoding.md R76. -/
def gridRow6 : List (Option Form) :=
  [cellImp .rts, cellIndX .adc, cellNone, cellNone,
   cellNone, cellZp .adc, cellZp .ror, cellNone,
   cellImp .pla, cellImm .adc, cellImp (.ror .acc), cellNone,
   cellJmpInd, cellAbs .adc, cellAbs .ror, cellNone]

/-- Row 7x of the grid of 30_encoding.md R76. -/
def gridRow7 : List (Option Form) :=
  [cellRel .bvs, cellIndY .adc, cellNone, cellNone,
   cellNone, cellZpX .adc, cellZpX .ror, cellNone,
   cellImp .sei, cellAbsY .adc, cellNone, cellNone,
   cellNone, cellAbsX .adc, cellAbsX .ror, cellNone]

/-- Row 8x of the grid of 30_encoding.md R76. -/
def gridRow8 : List (Option Form) :=
  [cellNone, cellIndX .sta, cellNone, cellNone,
   cellZp .sty, cellZp .sta, cellZp .stx, cellNone,
   cellImp .dey, cellNone, cellImp .txa, cellNone,
   cellAbs .sty, cellAbs .sta, cellAbs .stx, cellNone]

/-- Row 9x of the grid of 30_encoding.md R76. -/
def gridRow9 : List (Option Form) :=
  [cellRel .bcc, cellIndY .sta, cellNone, cellNone,
   cellZpX .sty, cellZpX .sta, cellZpY .stx, cellNone,
   cellImp .tya, cellAbsY .sta, cellImp .txs, cellNone,
   cellNone, cellAbsX .sta, cellNone, cellNone]

/-- Row Ax of the grid of 30_encoding.md R76. -/
def gridRowA : List (Option Form) :=
  [cellImm .ldy, cellIndX .lda, cellImm .ldx, cellNone,
   cellZp .ldy, cellZp .lda, cellZp .ldx, cellNone,
   cellImp .tay, cellImm .lda, cellImp .tax, cellNone,
   cellAbs .ldy, cellAbs .lda, cellAbs .ldx, cellNone]

/-- Row Bx of the grid of 30_encoding.md R76. -/
def gridRowB : List (Option Form) :=
  [cellRel .bcs, cellIndY .lda, cellNone, cellNone,
   cellZpX .ldy, cellZpX .lda, cellZpY .ldx, cellNone,
   cellImp .clv, cellAbsY .lda, cellImp .tsx, cellNone,
   cellAbsX .ldy, cellAbsX .lda, cellAbsY .ldx, cellNone]

/-- Row Cx of the grid of 30_encoding.md R76. -/
def gridRowC : List (Option Form) :=
  [cellImm .cpy, cellIndX .cmp, cellNone, cellNone,
   cellZp .cpy, cellZp .cmp, cellZp .dec, cellNone,
   cellImp .iny, cellImm .cmp, cellImp .dex, cellNone,
   cellAbs .cpy, cellAbs .cmp, cellAbs .dec, cellNone]

/-- Row Dx of the grid of 30_encoding.md R76. -/
def gridRowD : List (Option Form) :=
  [cellRel .bne, cellIndY .cmp, cellNone, cellNone,
   cellNone, cellZpX .cmp, cellZpX .dec, cellNone,
   cellImp .cld, cellAbsY .cmp, cellNone, cellNone,
   cellNone, cellAbsX .cmp, cellAbsX .dec, cellNone]

/-- Row Ex of the grid of 30_encoding.md R76. -/
def gridRowE : List (Option Form) :=
  [cellImm .cpx, cellIndX .sbc, cellNone, cellNone,
   cellZp .cpx, cellZp .sbc, cellZp .inc, cellNone,
   cellImp .inx, cellImm .sbc, cellImp .nop, cellNone,
   cellAbs .cpx, cellAbs .sbc, cellAbs .inc, cellNone]

/-- Row Fx of the grid of 30_encoding.md R76. -/
def gridRowF : List (Option Form) :=
  [cellRel .beq, cellIndY .sbc, cellNone, cellNone,
   cellNone, cellZpX .sbc, cellZpX .inc, cellNone,
   cellImp .sed, cellAbsY .sbc, cellNone, cellNone,
   cellNone, cellAbsX .sbc, cellAbsX .inc, cellNone]

/-- The grid of 30_encoding.md R76, row = high nibble of the opcode. -/
def opcodeGrid : List (List (Option Form)) :=
  [gridRow0, gridRow1, gridRow2, gridRow3, gridRow4, gridRow5, gridRow6, gridRow7,
   gridRow8, gridRow9, gridRowA, gridRowB, gridRowC, gridRowD, gridRowE, gridRowF]

/-- The grid's cell of an opcode byte; `none` is a cell marked `--`. -/
def gridCell (op : Byte) : Option Form :=
  (opcodeGrid.getD (op.toNat / 16) []).getD (op.toNat % 16) none

/-- The 256-way lookup on the whole opcode byte (30_encoding.md R71): a byte without a documented
cell is the one-byte fallback (R77). -/
def formOf (op : Byte) : Form := (gridCell op).getD (.f1 (.undoc op))

/-- Read one instruction off a list of bytes, in memory order, and give the bytes after it
(30_encoding.md R70). -/
def decode : List Byte → Except DecodeError (Instr × List Byte)
  | [] => .error .noOpcode
  | op :: rest =>
    match formOf op with
    | .f1 i => .ok (i, rest)
    | .f2 mk =>
      match rest with
      | d :: rest' => .ok (mk d, rest')
      | [] => .error .missingOperand
    | .f3 mk =>
      match rest with
      | l :: h :: rest' => .ok (mk (mkWord h l), rest')
      | _ => .error .missingOperand

/-- The longest instruction is three bytes (30_encoding.md R71): the bits of `w`, numbered as
spec/opcode_table.json numbers them, as the three bytes at ascending addresses. -/
def tableBytes (nbits w : Nat) : List Byte :=
  let v := w % 2 ^ nbits
  [BitVec.ofNat 8 v, BitVec.ofNat 8 (v / 256), BitVec.ofNat 8 (v / 65536)]

/-- The instruction the decoder reads from a row of spec/opcode_table.json. -/
def decodeTableWord (nbits w : Nat) : Option Instr :=
  match decode (tableBytes nbits w) with
  | .ok (i, _) => some i
  | .error _ => none

/-! ### The encoder -/

/-- The opcode byte of an operand form, from one line of 30_encoding.md R75; `none` where the line
gives the mode no byte. -/
def opcodeFor (line : List (Mode × Byte)) (o : Operand) : Option Byte := line.lookup o.mode

/-- The opcode byte of an instruction (30_encoding.md R75, R77); `none` where it is not well
formed. -/
def Instr.opcode : Instr → Option Byte
  | .adc o => opcodeFor
      [(.immediate, 0x69), (.zeroPage, 0x65), (.zeroPageX, 0x75), (.absolute, 0x6D),
       (.absoluteX, 0x7D), (.absoluteY, 0x79), (.indirectX, 0x61), (.indirectY, 0x71)] o
  | .sbc o => opcodeFor
      [(.immediate, 0xE9), (.zeroPage, 0xE5), (.zeroPageX, 0xF5), (.absolute, 0xED),
       (.absoluteX, 0xFD), (.absoluteY, 0xF9), (.indirectX, 0xE1), (.indirectY, 0xF1)] o
  | .and o => opcodeFor
      [(.immediate, 0x29), (.zeroPage, 0x25), (.zeroPageX, 0x35), (.absolute, 0x2D),
       (.absoluteX, 0x3D), (.absoluteY, 0x39), (.indirectX, 0x21), (.indirectY, 0x31)] o
  | .ora o => opcodeFor
      [(.immediate, 0x09), (.zeroPage, 0x05), (.zeroPageX, 0x15), (.absolute, 0x0D),
       (.absoluteX, 0x1D), (.absoluteY, 0x19), (.indirectX, 0x01), (.indirectY, 0x11)] o
  | .eor o => opcodeFor
      [(.immediate, 0x49), (.zeroPage, 0x45), (.zeroPageX, 0x55), (.absolute, 0x4D),
       (.absoluteX, 0x5D), (.absoluteY, 0x59), (.indirectX, 0x41), (.indirectY, 0x51)] o
  | .bit o => opcodeFor
      [(.zeroPage, 0x24), (.absolute, 0x2C)] o
  | .asl o => opcodeFor
      [(.implied, 0x0A), (.zeroPage, 0x06), (.zeroPageX, 0x16), (.absolute, 0x0E),
       (.absoluteX, 0x1E)] o
  | .lsr o => opcodeFor
      [(.implied, 0x4A), (.zeroPage, 0x46), (.zeroPageX, 0x56), (.absolute, 0x4E),
       (.absoluteX, 0x5E)] o
  | .rol o => opcodeFor
      [(.implied, 0x2A), (.zeroPage, 0x26), (.zeroPageX, 0x36), (.absolute, 0x2E),
       (.absoluteX, 0x3E)] o
  | .ror o => opcodeFor
      [(.implied, 0x6A), (.zeroPage, 0x66), (.zeroPageX, 0x76), (.absolute, 0x6E),
       (.absoluteX, 0x7E)] o
  | .lda o => opcodeFor
      [(.immediate, 0xA9), (.zeroPage, 0xA5), (.zeroPageX, 0xB5), (.absolute, 0xAD),
       (.absoluteX, 0xBD), (.absoluteY, 0xB9), (.indirectX, 0xA1), (.indirectY, 0xB1)] o
  | .ldx o => opcodeFor
      [(.immediate, 0xA2), (.zeroPage, 0xA6), (.zeroPageY, 0xB6), (.absolute, 0xAE),
       (.absoluteY, 0xBE)] o
  | .ldy o => opcodeFor
      [(.immediate, 0xA0), (.zeroPage, 0xA4), (.zeroPageX, 0xB4), (.absolute, 0xAC),
       (.absoluteX, 0xBC)] o
  | .sta o => opcodeFor
      [(.zeroPage, 0x85), (.zeroPageX, 0x95), (.absolute, 0x8D), (.absoluteX, 0x9D),
       (.absoluteY, 0x99), (.indirectX, 0x81), (.indirectY, 0x91)] o
  | .stx o => opcodeFor
      [(.zeroPage, 0x86), (.zeroPageY, 0x96), (.absolute, 0x8E)] o
  | .sty o => opcodeFor
      [(.zeroPage, 0x84), (.zeroPageX, 0x94), (.absolute, 0x8C)] o
  | .tax => some 0xAA
  | .tay => some 0xA8
  | .txa => some 0x8A
  | .tya => some 0x98
  | .tsx => some 0xBA
  | .txs => some 0x9A
  | .cmp o => opcodeFor
      [(.immediate, 0xC9), (.zeroPage, 0xC5), (.zeroPageX, 0xD5), (.absolute, 0xCD),
       (.absoluteX, 0xDD), (.absoluteY, 0xD9), (.indirectX, 0xC1), (.indirectY, 0xD1)] o
  | .cpx o => opcodeFor
      [(.immediate, 0xE0), (.zeroPage, 0xE4), (.absolute, 0xEC)] o
  | .cpy o => opcodeFor
      [(.immediate, 0xC0), (.zeroPage, 0xC4), (.absolute, 0xCC)] o
  | .inc o => opcodeFor
      [(.zeroPage, 0xE6), (.zeroPageX, 0xF6), (.absolute, 0xEE), (.absoluteX, 0xFE)] o
  | .dec o => opcodeFor
      [(.zeroPage, 0xC6), (.zeroPageX, 0xD6), (.absolute, 0xCE), (.absoluteX, 0xDE)] o
  | .inx => some 0xE8
  | .iny => some 0xC8
  | .dex => some 0xCA
  | .dey => some 0x88
  | .bcc _ => some 0x90
  | .bcs _ => some 0xB0
  | .beq _ => some 0xF0
  | .bne _ => some 0xD0
  | .bmi _ => some 0x30
  | .bpl _ => some 0x10
  | .bvc _ => some 0x50
  | .bvs _ => some 0x70
  | .jmp (.abs _) => some 0x4C
  | .jmp (.ind _) => some 0x6C
  | .jsr _ => some 0x20
  | .rts => some 0x60
  | .pha => some 0x48
  | .php => some 0x08
  | .pla => some 0x68
  | .plp => some 0x28
  | .brk => some 0x00
  | .rti => some 0x40
  | .nop => some 0xEA
  | .clc => some 0x18
  | .sec => some 0x38
  | .cli => some 0x58
  | .sei => some 0x78
  | .cld => some 0xD8
  | .sed => some 0xF8
  | .clv => some 0xB8
  | .undoc op => if undocumentedOpcodes.contains op then some op else none

/-- The operand bytes of an operand form, at ascending addresses (30_encoding.md R71, R72). -/
def Operand.bytes : Operand → List Byte
  | .acc => []
  | .imm d | .zp d | .zpx d | .zpy d | .indx d | .indy d => [d]
  | .abs w | .absx w | .absy w => [lo w, hi w]

/-- The operand bytes of an instruction, at ascending addresses (30_encoding.md R71, R72). -/
def Instr.operandBytes : Instr → List Byte
  | .adc o | .sbc o | .and o | .ora o | .eor o | .bit o | .asl o | .lsr o | .rol o | .ror o
  | .lda o | .ldx o | .ldy o | .sta o | .stx o | .sty o | .cmp o | .cpx o | .cpy o
  | .inc o | .dec o => o.bytes
  | .bcc d | .bcs d | .beq d | .bne d | .bmi d | .bpl d | .bvc d | .bvs d => [d]
  | .jmp (.abs w) | .jmp (.ind w) | .jsr w => [lo w, hi w]
  | .tax | .tay | .txa | .tya | .tsx | .txs | .inx | .iny | .dex | .dey | .rts
  | .pha | .php | .pla | .plp | .brk | .rti | .nop
  | .clc | .sec | .cli | .sei | .cld | .sed | .clv | .undoc _ => []

/-- The bytes of a well-formed instruction at ascending addresses; no bytes for a term that is not
an instruction of the machine. -/
def encode (i : Instr) : List Byte :=
  match i.opcode with
  | some op => op :: i.operandBytes
  | none => []

end Sys2Proof
end

