-- ==== Sys2Proof/Machine/Fetch.lean ====
section
/-! DEFINITION. Fetching an instruction through the bus, and placing one where the machine fetches
next. -/

namespace Sys2Proof.Machine

/-- `Fetch8()` (00_scope.md R5). -/
def fetchByte (s : State) : Byte × State :=
  let r := busRead s.pc s
  (r.1, r.2.setPc (r.2.pc + 1))

/-- `Fetch16()`, low byte first (00_scope.md R5). -/
def fetchWord (s : State) : Word × State :=
  let l := fetchByte s
  let h := fetchByte l.2
  (mkWord h.1 l.1, h.2)

/-- The fetch of an executing tick (40_engine_and_addressing.md R91): read the opcode, advance `PC`,
force the Unused flag to 1, look the opcode up and read its operand bytes at ascending addresses.
The operand byte of the Immediate mode is read here too; the order of the bus calls is the rule's,
since nothing comes between (log entry 7). -/
def fetchInstr (s : State) : Instr × State :=
  let op := fetchByte s
  let s1 := applyFlag .unused true op.2
  match formOf op.1 with
  | .f1 i => (i, s1)
  | .f2 mk =>
    let d := fetchByte s1
    (mk d.1, d.2)
  | .f3 mk =>
    let w := fetchWord s1
    (mk w.1, w.2)

/-- Store bytes at ascending addresses from `a` (mod 65536), as RAM. -/
def placeBytes (a : Word) : List Byte → State → State
  | [], s => s
  | b :: rest, s =>
    placeBytes (a + 1) rest
      { s with
        mem := Memory.write s.mem a.toNat b
        io := s.io.filter fun w => !w.holds a }

end Sys2Proof.Machine
end

