-- ==== Sys2Proof/Machine/HostOps.lean ====
section
/-! DEFINITION. What the host does between ticks (10_state.md R19, R23, R29, R30;
40_engine_and_addressing.md R113; 70_reset_and_hazards.md R270, R271, R283). -/

namespace Sys2Proof.Machine

/-- `Reset()` (70_reset_and_hazards.md R270). -/
def hostReset (s : State) : State :=
  let r := readWord resetVector (resetVector + 1)
    ((((s.setA 0x00).setX 0x00).setY 0x00).setSp 0xFD |>.setP 0x24)
  let t := (r.2.setPc r.1).setCyc 0
  if Params.resetClearsPending then (t.setNmi false).setIrq false else t

/-- `RequestInterrupt(kind)` (60_exceptions.md R252). -/
def requestInterrupt (k : InterruptKind) (s : State) : State :=
  match k with
  | .nmi => s.setNmi true
  | .irq => s.setIrq true

/-- `SetFlag(f, b)` (10_state.md R19): one bit of `P`; bit 5 stays 1 (92_eei_decisions.md D17, log
entry 16). -/
def hostSetFlag (f : Flag) (b : Bool) (s : State) : State :=
  s.setP (writeFlag .unused true (writeFlag f b s.p))

/-- `GetFlag(f)` (10_state.md R19): the flag as it reads; Unused is always true. -/
def hostGetFlag (f : Flag) (s : State) : Bool := readFlag f (statusRead s)

/-- The read-only accessor of `P` (10_state.md R30). The other registers' accessors are the fields
themselves. -/
def hostReadP (s : State) : Byte := statusRead s

/-- Another writer changes a byte of RAM between ticks (20_memory.md R58, log entry 22). -/
def otherWriter (a : Word) (v : Byte) (s : State) : State := s.setMem (Memory.write s.mem a.toNat v)

/-- The devices change their own state between ticks (20_memory.md R58, log entry 22). -/
def deviceChange (d : Nat) (s : State) : State := s.setDevice d

/-- One host call. -/
def applyHostCall (c : HostCall) (s : State) : State :=
  match c with
  | .reset => hostReset s
  | .requestInterrupt k => requestInterrupt k s
  | .setFlag f b => hostSetFlag f b s
  | .otherWriter a v => otherWriter a v s
  | .deviceChange d => deviceChange d s

/-- Host calls one after another. -/
def applyHostCalls : List HostCall → State → State
  | [], s => s
  | c :: rest, s => applyHostCalls rest (applyHostCall c s)

/-- The calls the host makes before the coming tick (log entry 5). -/
def callsNow (s : State) : List HostCall := s.agenda.headD []

/-- The start of a step: the bus log of the step before is dropped, and the host makes the calls it
makes before this tick. -/
def takeHostCalls (s : State) : State :=
  applyHostCalls (callsNow s) ((s.setBusLog []).setAgenda s.agenda.tail)

end Sys2Proof.Machine
end

