-- ==== Sys2Proof/Machine/Tick.lean ====
section
/-! DEFINITION. The parts of a tick that run no instruction (40_engine_and_addressing.md R90 to R93;
60_exceptions.md R242 to R246). -/

namespace Sys2Proof.Machine

/-- A Busy tick is due: "counter > 0, mid-instruction" (R90). -/
def busy (s : State) : Bool := decide (0 < s.cyc)

/-- A tick's last act: `cyc <- cyc - 1`, in a Busy tick (R92) and of the total an executing tick has
left (R93). -/
def countDown (s : State) : State := s.setCyc (s.cyc - 1)

/-- The IRQ is pending and not masked (60_exceptions.md R244). -/
def irqServiceable (s : State) : Bool := s.irqPending && !readFlag .interruptDisable s.p

/-- NMI service (60_exceptions.md R243). -/
def serviceNmi (s : State) : State :=
  charge Params.interruptCycles 0 0 ((enterInterrupt nmiVector false s).setNmi false)

/-- IRQ service (60_exceptions.md R244). -/
def serviceIrq (s : State) : State :=
  charge Params.interruptCycles 0 0 ((enterInterrupt irqVector false s).setIrq false)

end Sys2Proof.Machine
end

