-- ==== Sys2Proof/Machine/Step.lean ====
section
/-! DEFINITION. One step: the host's calls before the tick, then one `Tick()`
(40_engine_and_addressing.md R90). -/

namespace Sys2Proof.Machine

/-- The end of an executing tick: the counter keeps `n - 1` (40_engine_and_addressing.md R93). -/
def finish : Host.Outcome State Fault Refusal → Host.Outcome State Fault Refusal
  | .next t => .next (countDown t)
  | .fault f => .fault f
  | .refused r => .refused r

/-- The executing tick of an instruction (40_engine_and_addressing.md R91). -/
def executeOne (s : State) : Host.Outcome State Fault Refusal :=
  finish (exec (fetchInstr s).1 (fetchInstr s).2)

/-- `Tick()` (40_engine_and_addressing.md R90): Busy counts down; Idle services an NMI, else an
unmasked IRQ, else executes one instruction (60_exceptions.md R246). -/
def tick (s : State) : Host.Outcome State Fault Refusal :=
  if busy s then .next (countDown s)
  else if s.nmiPending then .next (countDown (serviceNmi s))
  else if irqServiceable s then .next (countDown (serviceIrq s))
  else executeOne s

/-- One step of the machine. -/
def step (s : State) : Host.Outcome State Fault Refusal := tick (takeHostCalls s)

/-- `s` with the instruction of `decodeTableWord nbits w` stored at `PC`, so that the next step
fetches and runs it: the counter is at an instruction boundary, no interrupt is serviceable, and the
host makes no call before that step (log entry 9). -/
def State.withFetchWord (s : State) (nbits w : Nat) : State :=
  { placeBytes s.pc (tableBytes nbits w) s with
    cyc := 0
    nmiPending := false
    irqPending := s.irqPending && readFlag .interruptDisable s.p
    agenda := [] :: s.agenda }

end Sys2Proof.Machine
end

