-- ==== Sys2Proof/Safety.lean ====
section
/-! DEFINITION. The terms claims use: what a safe run keeps, what an operation leaves unchanged, and
the spec's whole-machine tables. -/

namespace Sys2Proof.Machine

/-! ### The invariant of a safe run -/

/-- What every step keeps: the memory's canonical form, the counter's range between ticks
(10_state.md R22), and bit 5 of `P` at 1 (10_state.md R17). -/
structure Inv (s : State) : Prop where
  memory : Memory.wf s.mem = true
  counterLow : 0 ≤ s.cyc
  counterHigh : s.cyc ≤ 7
  unused : readFlag .unused s.p = true

/-- The tick completes: no fault, no refusal (60_exceptions.md R240). -/
def Completes (s : State) : Prop := ∃ t, step s = .next t

/-- The two states differ at most in the live Break bit (10_state.md R18). -/
def SameButBreak (s t : State) : Prop :=
  s.setP 0 = t.setP 0 ∧ ∀ f, f ≠ .break → readFlag f s.p = readFlag f t.p

/-! ### What an operation leaves unchanged -/

/-- The 8-bit registers other than the status byte. -/
inductive Reg where
  | a | x | y | sp
  deriving DecidableEq, Repr

/-- The value of a register. -/
def Reg.get (s : State) : Reg → Byte
  | .a => s.a
  | .x => s.x
  | .y => s.y
  | .sp => s.sp

/-- From `s` to `t`, every register but `regs`, every flag but `flags`, every byte of memory but at
`stored` and but those shared with a device, the latches, the windows and the agenda are unchanged.
`PC`, the counter and the bus calls are stated beside it; the bus calls decide the shared bytes too
(`MadeCalls`). -/
structure Frame (regs : List Reg) (flags : List Flag) (stored : List Word) (s t : State) : Prop where
  keptRegs : ∀ r, r ∉ regs → r.get t = r.get s
  keptFlags : ∀ f, f ∉ flags → readFlag f t.p = readFlag f s.p
  keptMem : ∀ a, a ∉ stored → isShared s a = false → byteAt t a = byteAt s a
  keptNmi : t.nmiPending = s.nmiPending
  keptIrq : t.irqPending = s.irqPending
  keptIo : t.io = s.io
  keptAgenda : t.agenda = s.agenda

/-- Zero and Negative are those of `v` (10_state.md R20). -/
def HasZN (v : Byte) (t : State) : Prop :=
  readFlag .zero t.p = decide (v = 0) ∧ readFlag .negative t.p = v.getLsbD 7

/-- RAM, memory behind devices and the devices of the two states are the same: the bus answers alike. -/
structure SameBus (s t : State) : Prop where
  mem : t.mem = s.mem
  device : t.device = s.device
  io : t.io = s.io

/-- The bus of `t` is the bus of `s` after these calls, one by one in this order (20_memory.md R55),
and each byte read is what the bus answered at that moment (R41, R42). -/
def BusRun : List BusCall → State → State → Prop
  | [], s, t => SameBus s t
  | .read a v :: rest, s, t => v = busAnswer a s ∧ BusRun rest (busRead a s).2 t
  | .write a v :: rest, s, t => BusRun rest (busWrite a v s) t

/-- From `s` to `t` exactly these bus calls are made, in this order, and memory and the devices are
what they leave (20_memory.md R41, R47, R55, R58). -/
structure MadeCalls (calls : List BusCall) (s t : State) : Prop where
  log : t.busLog = s.busLog ++ calls
  run : BusRun calls s t

/-- The address of a bus call. -/
def BusCall.addr : BusCall → Word
  | .read a _ => a
  | .write a _ => a

/-- No device answers any of the calls. -/
def NoDevice (s : State) (calls : List BusCall) : Prop := ∀ c ∈ calls, isDevice s c.addr = false

/-- `v` is what the bus of `s` answers at `a`: RAM's byte; from a device, any byte. -/
def AnsweredBy (s : State) (a : Word) (v : Byte) : Prop := isDevice s a = false → v = byteAt s a

/-- As `AnsweredBy`, for a read after other calls: a device among them may have changed shared RAM. -/
def AnsweredLater (s : State) (a : Word) (v : Byte) : Prop :=
  isDevice s a = false → isShared s a = false → v = byteAt s a

/-- RAM of `t` holds `v` at `a`, where `a` is RAM. -/
def StoredAt (t : State) (a : Word) (v : Byte) : Prop := isDevice t a = false → byteAt t a = v

/-- As `StoredAt`, for a write with other calls after it: a device among them may have changed shared
RAM. -/
def StoredEarlier (t : State) (a : Word) (v : Byte) : Prop :=
  isDevice t a = false → isShared t a = false → byteAt t a = v

/-- The addresses an operation that writes this place stores to. -/
def Place.stored : Place → List Word
  | .ea a => [a]
  | .acc | .imm _ => []

/-- The operand byte of a read (40_engine_and_addressing.md R96, R97). -/
def operandByte (o : Operand) (s : State) : Byte := (readPlace (resolve o s).place (resolve o s).st).1

/-- The state after the operand byte is read. -/
def afterOperand (o : Operand) (s : State) : State :=
  (readPlace (resolve o s).place (resolve o s).st).2

/-- What every read-class instruction leaves beside its result: `PC` at the next instruction, and no
bus call but the resolver's and the one read of the operand (40_engine_and_addressing.md R96). -/
structure ReadDone (o : Operand) (s t : State) : Prop where
  pc : t.pc = s.pc
  log : t.busLog = (afterOperand o s).busLog
  bus : SameBus (afterOperand o s) t

/-- What every one-byte register or flag instruction leaves beside its result: `PC` at the next
instruction, and no bus call. -/
structure ImpliedDone (s t : State) : Prop where
  pc : t.pc = s.pc
  bus : MadeCalls [] s t

/-- The effect of the entry sequence `Interrupt(vec, brk)` with return address `ret`
(60_exceptions.md R245). -/
structure Entered (vec : Word) (brk : Bool) (ret : Word) (s t : State) : Prop where
  frame : Frame [.sp] [.interruptDisable]
    [stackAddr s.sp, stackAddr (s.sp - 1), stackAddr (s.sp - 2)] s t
  sp : t.sp = s.sp - 3
  masked : readFlag .interruptDisable t.p = true
  pushedHigh : StoredEarlier t (stackAddr s.sp) (hi ret)
  pushedLow : StoredEarlier t (stackAddr (s.sp - 1)) (lo ret)
  pushedP : StoredEarlier t (stackAddr (s.sp - 2))
    ((s.p &&& 0xCF) ||| 0x20 ||| (if brk then 0x10 else 0x00))
  vector : ∃ l h, t.pc = mkWord h l ∧ AnsweredLater s vec l ∧ AnsweredLater s (vec + 1) h ∧
    MadeCalls
      [.write (stackAddr s.sp) (hi ret), .write (stackAddr (s.sp - 1)) (lo ret),
       .write (stackAddr (s.sp - 2)) ((s.p &&& 0xCF) ||| 0x20 ||| (if brk then 0x10 else 0x00)),
       .read vec l, .read (vec + 1) h] s t

/-! ### The spec's whole-machine tables -/

/-- The base cycle count of every opcode byte (30_encoding.md R75; 2 for the undocumented ones, R77),
by the nibbles of the opcode. -/
def baseCycleTable : List (List Nat) :=
  [[7, 6, 2, 2, 2, 3, 5, 2, 3, 2, 2, 2, 2, 4, 6, 2],
   [2, 5, 2, 2, 2, 4, 6, 2, 2, 4, 2, 2, 2, 4, 7, 2],
   [6, 6, 2, 2, 3, 3, 5, 2, 4, 2, 2, 2, 4, 4, 6, 2],
   [2, 5, 2, 2, 2, 4, 6, 2, 2, 4, 2, 2, 2, 4, 7, 2],
   [6, 6, 2, 2, 2, 3, 5, 2, 3, 2, 2, 2, 3, 4, 6, 2],
   [2, 5, 2, 2, 2, 4, 6, 2, 2, 4, 2, 2, 2, 4, 7, 2],
   [6, 6, 2, 2, 2, 3, 5, 2, 4, 2, 2, 2, 5, 4, 6, 2],
   [2, 5, 2, 2, 2, 4, 6, 2, 2, 4, 2, 2, 2, 4, 7, 2],
   [2, 6, 2, 2, 3, 3, 3, 2, 2, 2, 2, 2, 4, 4, 4, 2],
   [2, 6, 2, 2, 4, 4, 4, 2, 2, 5, 2, 2, 2, 5, 2, 2],
   [2, 6, 2, 2, 3, 3, 3, 2, 2, 2, 2, 2, 4, 4, 4, 2],
   [2, 5, 2, 2, 4, 4, 4, 2, 2, 4, 2, 2, 4, 4, 4, 2],
   [2, 6, 2, 2, 3, 3, 5, 2, 2, 2, 2, 2, 4, 4, 6, 2],
   [2, 5, 2, 2, 2, 4, 6, 2, 2, 4, 2, 2, 2, 4, 7, 2],
   [2, 6, 2, 2, 3, 3, 5, 2, 2, 2, 2, 2, 4, 4, 6, 2],
   [2, 5, 2, 2, 2, 4, 6, 2, 2, 4, 2, 2, 2, 4, 7, 2]]

/-- The base cycle count of an opcode byte. -/
def baseCycles (op : Byte) : Nat :=
  (baseCycleTable.getD (op.toNat / 16) []).getD (op.toNat % 16) 0

/-- The operand form of an instruction of the read, write or read-modify-write class. -/
def operandOf : Instr → Option Operand
  | .adc o | .sbc o | .and o | .ora o | .eor o | .bit o | .asl o | .lsr o | .rol o | .ror o
  | .lda o | .ldx o | .ldy o | .sta o | .stx o | .sty o | .cmp o | .cpx o | .cpy o
  | .inc o | .dec o => some o
  | .tax | .tay | .txa | .tya | .tsx | .txs | .inx | .iny | .dex | .dey
  | .bcc _ | .bcs _ | .beq _ | .bne _ | .bmi _ | .bpl _ | .bvc _ | .bvs _
  | .jmp _ | .jsr _ | .rts | .pha | .php | .pla | .plp | .brk | .rti | .nop
  | .clc | .sec | .cli | .sei | .cld | .sed | .clv | .undoc _ => none

/-- The flag a branch reads, the value it is taken on, and its displacement (46_branches.md). -/
def branchOf : Instr → Option (Flag × Bool × Byte)
  | .bcc d => some (.carry, false, d)
  | .bcs d => some (.carry, true, d)
  | .beq d => some (.zero, true, d)
  | .bne d => some (.zero, false, d)
  | .bmi d => some (.negative, true, d)
  | .bpl d => some (.negative, false, d)
  | .bvc d => some (.overflow, false, d)
  | .bvs d => some (.overflow, true, d)
  | .adc _ | .sbc _ | .and _ | .ora _ | .eor _ | .bit _ | .asl _ | .lsr _ | .rol _ | .ror _
  | .lda _ | .ldx _ | .ldy _ | .sta _ | .stx _ | .sty _ | .cmp _ | .cpx _ | .cpy _
  | .inc _ | .dec _ | .tax | .tay | .txa | .tya | .tsx | .txs | .inx | .iny | .dex | .dey
  | .jmp _ | .jsr _ | .rts | .pha | .php | .pla | .plp | .brk | .rti | .nop
  | .clc | .sec | .cli | .sei | .cld | .sed | .clv | .undoc _ => none

/-- The resolver's extra cycle of an instruction (40_engine_and_addressing.md R98). -/
def addressingExtra (i : Instr) (s : State) : Nat :=
  match operandOf i with
  | some o => (resolve o s).extra
  | none => 0

/-- The extra a branch reports: 1 taken, 2 taken into another page than the next instruction
(46_branches.md R185). -/
def branchExtra (i : Instr) (s : State) : Nat :=
  match branchOf i with
  | some (f, b, d) =>
    if readFlag f s.p = b then (if page (branchTarget d s) = page s.pc then 1 else 2) else 0
  | none => 0

/-- Which flags an instruction writes (10_state.md R21). -/
def flagsWritten : Instr → List Flag
  | .adc _ | .sbc _ => [.negative, .overflow, .zero, .carry]
  | .and _ | .ora _ | .eor _ => [.negative, .zero]
  | .bit _ => [.negative, .overflow, .zero]
  | .asl _ | .lsr _ | .rol _ | .ror _ => [.negative, .zero, .carry]
  | .lda _ | .ldx _ | .ldy _ | .tax | .tay | .txa | .tya | .tsx | .pla => [.negative, .zero]
  | .inc _ | .dec _ | .inx | .iny | .dex | .dey => [.negative, .zero]
  | .cmp _ | .cpx _ | .cpy _ => [.negative, .zero, .carry]
  | .clc | .sec => [.carry]
  | .cli | .sei => [.interruptDisable]
  | .cld | .sed => [.decimal]
  | .clv => [.overflow]
  | .plp | .rti =>
    [.negative, .overflow, .decimal, .interruptDisable, .zero, .carry, .break, .unused]
  | .brk => [.interruptDisable]
  | .sta _ | .stx _ | .sty _ | .txs | .pha | .php | .jmp _ | .jsr _ | .rts | .nop
  | .bcc _ | .bcs _ | .beq _ | .bne _ | .bmi _ | .bpl _ | .bvc _ | .bvs _ | .undoc _ => []

/-- The mnemonics that make bus writes (95_test_vectors.md section 4, item 8). -/
def makesWrites : Instr → Bool
  | .sta _ | .stx _ | .sty _ | .inc _ | .dec _ | .pha | .php | .jsr _ | .brk => true
  | .asl o | .lsr o | .rol o | .ror o => o != .acc
  | .adc _ | .sbc _ | .and _ | .ora _ | .eor _ | .bit _ | .lda _ | .ldx _ | .ldy _
  | .tax | .tay | .txa | .tya | .tsx | .txs | .cmp _ | .cpx _ | .cpy _
  | .inx | .iny | .dex | .dey
  | .bcc _ | .bcs _ | .beq _ | .bne _ | .bmi _ | .bpl _ | .bvc _ | .bvs _
  | .jmp _ | .rts | .pla | .plp | .rti | .nop
  | .clc | .sec | .cli | .sei | .cld | .sed | .clv | .undoc _ => false

/-- The mnemonics that change `SP`: the pushes and pulls, and TXS (10_state.md R13). -/
def changesSp : Instr → Bool
  | .pha | .php | .pla | .plp | .jsr _ | .rts | .brk | .rti | .txs => true
  | .adc _ | .sbc _ | .and _ | .ora _ | .eor _ | .bit _ | .asl _ | .lsr _ | .rol _ | .ror _
  | .lda _ | .ldx _ | .ldy _ | .sta _ | .stx _ | .sty _ | .cmp _ | .cpx _ | .cpy _
  | .inc _ | .dec _ | .tax | .tay | .txa | .tya | .tsx | .inx | .iny | .dex | .dey
  | .bcc _ | .bcs _ | .beq _ | .bne _ | .bmi _ | .bpl _ | .bvc _ | .bvs _
  | .jmp _ | .nop | .clc | .sec | .cli | .sei | .cld | .sed | .clv | .undoc _ => false

/-- A bus call is a read. -/
def BusCall.isRead : BusCall → Bool
  | .read _ _ => true
  | .write _ _ => false

/-! ### Words of an instruction, as a line of 30_encoding.md R75 gives them -/

/-- The eight opcodes of ADC, SBC, AND, ORA, EOR, LDA, CMP: imm, zp, zpx, abs, absx, absy, indx,
indy. -/
def EncodesAlu (mk : Operand → Instr) (imm zp zpx abs absx absy indx indy : Byte) : Prop :=
  ∀ (d : Byte) (w : Word),
    encode (mk (.imm d)) = [imm, d] ∧ encode (mk (.zp d)) = [zp, d] ∧
    encode (mk (.zpx d)) = [zpx, d] ∧ encode (mk (.abs w)) = [abs, lo w, hi w] ∧
    encode (mk (.absx w)) = [absx, lo w, hi w] ∧ encode (mk (.absy w)) = [absy, lo w, hi w] ∧
    encode (mk (.indx d)) = [indx, d] ∧ encode (mk (.indy d)) = [indy, d]

/-- The four memory opcodes of a read-modify-write instruction: zp, zpx, abs, absx. -/
def EncodesModify (mk : Operand → Instr) (zp zpx abs absx : Byte) : Prop :=
  ∀ (d : Byte) (w : Word),
    encode (mk (.zp d)) = [zp, d] ∧ encode (mk (.zpx d)) = [zpx, d] ∧
    encode (mk (.abs w)) = [abs, lo w, hi w] ∧ encode (mk (.absx w)) = [absx, lo w, hi w]

/-! ### What the classes leave -/

/-- What a write-class instruction storing `v` does, whole: the byte at the resolver's address, one
bus write and no read of it, and nothing else (44_load_store_transfer.md R153 to R155). -/
def StoreEffect (i : Instr) (o : Operand) (v : Byte) (s : State) : Prop :=
  ∃ t, exec i s = .next t ∧
    Frame [] [] (resolve o s).place.stored s t ∧ t.p = s.p ∧ t.pc = s.pc ∧
    ∀ a, (resolve o s).place = .ea a →
      StoredAt t a v ∧ MadeCalls [.write a v] (resolve o s).st t

/-- What a read-modify-write instruction with result `r` does beside its flags: the result in the
accumulator (Implied) or at the resolver's address, with one bus read and one bus write of it
(43_shifts.md R144, 45_compare_incdec.md R174, R175). -/
structure ModifyDone (o : Operand) (flags : List Flag) (r : Byte) (s t : State) : Prop where
  frame : Frame (if o = .acc then [.a] else []) flags (resolve o s).place.stored s t
  pc : t.pc = s.pc
  inA : o = .acc → t.a = r ∧ MadeCalls [] s t
  inMem : ∀ a, (resolve o s).place = .ea a →
    StoredAt t a r ∧ MadeCalls [.write a r] (afterOperand o s) t

/-- What a branch on `P.f == b` does, whole (46_branches.md R185): the target is the next
instruction's address plus the signed displacement, mod 65536. -/
def BranchEffect (i : Instr) (f : Flag) (b : Bool) (d : Byte) (s : State) : Prop :=
  ∃ t, exec i s = .next t ∧ Frame [] [] [] s t ∧ t.p = s.p ∧ MadeCalls [] s t ∧
    if readFlag f s.p = b then
      (t.pc.toNat : Int) = ((s.pc.toNat : Int) + d.toInt) % 65536 ∧
      t.cyc = if t.pc.toNat / 256 = s.pc.toNat / 256 then 3 else 4
    else t.pc = s.pc ∧ t.cyc = 2

/-- A one-byte register instruction that puts `v` in register `r` with its Zero and Negative. -/
def TransferEffect (i : Instr) (op : Byte) (r : Reg) (v : Byte) (s : State) : Prop :=
  encode i = [op] ∧
  ∃ t, exec i s = .next t ∧ Frame [r] [.zero, .negative] [] s t ∧ r.get t = v ∧ HasZN v t ∧
    ImpliedDone s t

/-- An instruction that writes exactly one flag. -/
def FlagEffect (i : Instr) (op : Byte) (f : Flag) (b : Bool) (s : State) : Prop :=
  encode i = [op] ∧
  ∃ t, exec i s = .next t ∧ Frame [] [f] [] s t ∧ readFlag f t.p = b ∧ ImpliedDone s t

/-- A load of register `r`. -/
def LoadEffect (i : Instr) (o : Operand) (r : Reg) (s : State) : Prop :=
  ∃ t, exec i s = .next t ∧ Frame [r] [.zero, .negative] [] s t ∧ r.get t = operandByte o s ∧
    HasZN (operandByte o s) t ∧ ReadDone o s t

/-- A compare of the register value `v` with the operand (45_compare_incdec.md R173). -/
def CompareEffect (i : Instr) (o : Operand) (v : Byte) (s : State) : Prop :=
  ∃ t, exec i s = .next t ∧ Frame [] [.carry, .zero, .negative] [] s t ∧
    readFlag .carry t.p = decide ((operandByte o s).toNat ≤ v.toNat) ∧
    readFlag .zero t.p = decide (v = operandByte o s) ∧
    readFlag .negative t.p = decide (128 ≤ (v.toNat + 256 - (operandByte o s).toNat) % 256) ∧
    ReadDone o s t

/-- A logical operation with result `v` in `A`. -/
def LogicEffect (i : Instr) (o : Operand) (v : Byte) (s : State) : Prop :=
  ∃ t, exec i s = .next t ∧ Frame [.a] [.zero, .negative] [] s t ∧ t.a = v ∧ HasZN v t ∧
    ReadDone o s t

/-! ### Decimal numbers in bytes (41_arithmetic.md R123, R124) -/

/-- Both digits are 0 to 9. -/
def isBcd (v : Byte) : Prop := v.toNat / 16 ≤ 9 ∧ v.toNat % 16 ≤ 9

/-- The number a BCD byte stands for. -/
def decOf (v : Byte) : Nat := v.toNat / 16 * 10 + v.toNat % 16

/-- The number's BCD byte, as a number. -/
def bcdOf (n : Nat) : Nat := n / 10 * 16 + n % 10

/-- Decimal ADC's sum after the low digit's adjustment and before the high digit's: `t` of R123. -/
def decimalSum (a m c : Nat) : Nat :=
  let low := a % 16 + m % 16 + c
  a / 16 * 16 + m / 16 * 16 + if low < 10 then low else (low + 6) % 16 + 16

/-- Decimal SBC's result: `r` of R124. -/
def decimalDifference (a m c : Int) : Int :=
  let low := a % 16 - m % 16 + c - 1
  let t := a / 16 * 16 - m / 16 * 16 + if low < 0 then (low - 6) % 16 - 16 else low
  (if t < 0 then t - 96 else t) % 256

end Sys2Proof.Machine
end

