-- ==== Sys2Proof/Certificates/Slice0/Obligations.lean ====
section
/-! DEFINITION. The statements for the provers. Each docstring names the rule of spec/ it formalises,
or the sections it rests on and whose choice a clause is. -/

open Sys2Proof Sys2Proof.Machine

/-! ### Encoding -/

/-- Decoding the bytes of any well-formed instruction, whatever follows them, gives it back with
every operand (30_encoding.md sections 1 to 4). -/
def Obligations.DecodeOfEncodeIsIdentity : Prop :=
  ∀ (i : Instr) (rest : List Byte), WellFormed i → decode (encode i ++ rest) = .ok (i, rest)

/-- Whatever the decoder reads is a well-formed instruction, and its encoding is the bytes read: every
byte string has one meaning (30_encoding.md sections 1 to 4). -/
def Obligations.EncodeOfDecodeIsIdentity : Prop :=
  ∀ (bs : List Byte) (i : Instr) (rest : List Byte), decode bs = .ok (i, rest) →
    WellFormed i ∧ encode i ++ rest = bs ∧ (encode i).length = i.length

/-- R95: dispatch is total and static. Every opcode byte with operand bytes after it decodes, and the
instruction it decodes to runs from every state. -/
def Obligations.DispatchIsTotal : Prop :=
  ∀ (op b1 b2 : Byte) (rest : List Byte), ∃ i r, decode (op :: b1 :: b2 :: rest) = .ok (i, r) ∧
    WellFormed i ∧ ∀ s, ∃ t, exec i s = .next t

/-- Words written out from 30_encoding.md R71 and R75, one of each family (a sanity statement). That
0x80 is a fallback of one byte, which leaves the 0x05 after it, is the spec's decision D6 (R77's marker;
log entry 11). -/
def Obligations.SampleWordsDecode : Prop :=
  decode [0x69, 0xFF] = .ok (.adc (.imm 0xFF), []) ∧
  decode [0x2C, 0x00, 0x02] = .ok (.bit (.abs 0x0200), []) ∧
  decode [0x6A] = .ok (.ror .acc, []) ∧
  decode [0x96, 0xFF] = .ok (.stx (.zpy 0xFF), []) ∧
  decode [0xD9, 0xF0, 0x20] = .ok (.cmp (.absy 0x20F0), []) ∧
  decode [0xD0, 0xFB] = .ok (.bne 0xFB, []) ∧
  decode [0x6C, 0xFF, 0x10] = .ok (.jmp (.ind 0x10FF), []) ∧
  decode [0x68] = .ok (.pla, []) ∧
  decode [0x00] = .ok (.brk, []) ∧
  decode [0x80, 0x05] = .ok (.undoc 0x80, [0x05])

/-- A byte decodes to the fallback exactly when 30_encoding.md section 4 lists it, the fallback is
one byte long (the spec's decision D6, log entry 11), and the list has 105 bytes. -/
def Obligations.FallbackBytesAreThoseListed : Prop :=
  undocumentedOpcodes.length = 105 ∧
  ∀ (op : Byte) (rest : List Byte),
    decode (op :: rest) = .ok (.undoc op, rest) ↔ op ∈ undocumentedOpcodes

/-! ### The tick -/

/-- A step runs the decoded instruction: at an instruction boundary with no serviceable interrupt,
with the instruction's bytes in RAM at `PC`, the step is `exec` of the instruction from the state
after the host's calls with `PC` past the instruction, the Unused flag forced and the fetch on the
bus log; then the counter keeps one less than the total (40_engine_and_addressing.md section 1). One
less is the spec's decision D1 (log entry 6); that Immediate's operand byte is among the fetched bytes
is the model's reading (log entry 7). -/
def Obligations.StepRunsDecodedInstruction : Prop :=
  ∀ (s t : State) (i : Instr) (rest : List Byte),
    t = takeHostCalls s → t.cyc ≤ 0 → t.nmiPending = false → irqServiceable t = false →
    decode [byteAt t t.pc, byteAt t (t.pc + 1), byteAt t (t.pc + 2)] = .ok (i, rest) →
    (∀ k : Nat, k < i.length → isDevice t (t.pc + BitVec.ofNat 16 k) = false) →
    step s = finish (exec i
      { t with
        pc := t.pc + BitVec.ofNat 16 i.length
        p := t.p ||| 0x20
        busLog := t.busLog ++ (List.range i.length).map fun k =>
          .read (t.pc + BitVec.ofNat 16 k) (byteAt t (t.pc + BitVec.ofNat 16 k)) })

/-- The fetch from any state, devices among its addresses or not: the instruction is the decoding of
the bytes the bus answered, read one by one at ascending addresses from `PC` and nothing else of the
bus; `PC` moves past them, the Unused flag is 1, and nothing else changes (40_engine_and_addressing.md R91, 30_encoding.md R70;
that Immediate's operand byte is read here is the model's reading, log entry 7). -/
def Obligations.FetchDecodesTheBytesRead : Prop :=
  ∀ s : State, ∃ bs : List Byte,
    decode bs = .ok ((fetchInstr s).1, []) ∧
    bs.length = (fetchInstr s).1.length ∧
    (∀ b, bs[0]? = some b → AnsweredBy s s.pc b) ∧
    (∀ k b, bs[k]? = some b → AnsweredLater s (s.pc + BitVec.ofNat 16 k) b) ∧
    MadeCalls (bs.mapIdx fun k b => .read (s.pc + BitVec.ofNat 16 k) b) s (fetchInstr s).2 ∧
    (fetchInstr s).2.pc = s.pc + BitVec.ofNat 16 bs.length ∧
    readFlag .unused (fetchInstr s).2.p = true ∧
    (fetchInstr s).2.cyc = s.cyc ∧
    Frame [] [.unused] [] s (fetchInstr s).2

/-- R92: a Busy tick counts down and does nothing else, whatever the latches hold. -/
def Obligations.BusyTickOnlyCountsDown : Prop :=
  ∀ s : State, 0 < s.cyc → tick s = .next { s with cyc := s.cyc - 1 }

/-- Busy ticks with no host call run to the instruction boundary in exactly `cyc` steps, changing
nothing else (40_engine_and_addressing.md section 1). The cleared bus log is the model's own field
(log entry 4). -/
def Obligations.BusyTicksReachTheBoundary : Prop :=
  ∀ (k : Nat) (s : State), s.cyc = (k : Int) + 1 → s.agenda = [] →
    core.run (k + 1) s = .next { s with cyc := 0, busLog := [] }

/-- NMI service at a boundary, whatever `P.I` holds: the entry sequence through 0xFFFA with Break 0,
the NMI latch cleared, 7 ticks in all (60_exceptions.md section 3). That the service takes the Idle
tick itself is the spec's decision D5 (log entry 26), that the executing tick leaves 6 decision D1 (log
entry 6), and that the vector's low byte is read first decision D14 (log entry 23). -/
def Obligations.NmiServiceAtBoundary : Prop :=
  ∀ s : State, Memory.wf s.mem = true → s.cyc ≤ 0 → s.nmiPending = true →
    ∃ t, tick s = .next t ∧ Entered 0xFFFA false s.pc (s.setNmi false) t ∧ t.cyc = 6

/-- IRQ service at a boundary with no NMI pending and `P.I` clear: as the NMI's through 0xFFFE, with
the IRQ latch cleared (60_exceptions.md section 3; decisions D4 and D5, log entry 26; the counter
decision D1, log entry 6; the order of the vector's two reads decision D14, log entry 23). -/
def Obligations.IrqServiceAtBoundary : Prop :=
  ∀ s : State, Memory.wf s.mem = true → s.cyc ≤ 0 → s.nmiPending = false →
    s.irqPending = true → readFlag .interruptDisable s.p = false →
    ∃ t, tick s = .next t ∧ Entered 0xFFFE false s.pc (s.setIrq false) t ∧ t.cyc = 6

/-- One boundary services at most one event: NMI first (an IRQ beside it stays latched), else an
unmasked IRQ, else one instruction is fetched and executed and the latches stay (60_exceptions.md
sections 3 and 1). That an IRQ beside an NMI, or masked, stays latched is the spec's decision D4, and
that a service replaces the fetch decision D5 (log entry 26). -/
def Obligations.EventPriorityAtBoundary : Prop :=
  ∀ s : State, s.cyc ≤ 0 → ∃ t, tick s = .next t ∧
    (s.nmiPending = true → t.nmiPending = false ∧ t.irqPending = s.irqPending ∧
      readFlag .interruptDisable t.p = true) ∧
    (s.nmiPending = false → s.irqPending = true → readFlag .interruptDisable s.p = false →
      t.irqPending = false ∧ t.nmiPending = false) ∧
    (s.nmiPending = false → (s.irqPending = false ∨ readFlag .interruptDisable s.p = true) →
      tick s = executeOne s ∧ t.nmiPending = false ∧ t.irqPending = s.irqPending)

/-! ### The host's calls and reset -/

/-- `Reset()` from any state: A, X, Y zero, SP 0xFD, P 0x24, PC the little-endian word the bus answers
at 0xFFFC/0xFFFD, counter 0, those two bus reads and no write, and memory as they leave it: unchanged
where RAM answers them, and everywhere but where a device that answers one shares RAM (20_memory.md R58;
log entry 3) (70_reset_and_hazards.md section 1). Both latches are clear by the spec's decision D12 (log
entry 14); the order of the two reads is decision D14 (log entry 23). -/
def Obligations.ResetFromAnyState : Prop :=
  ∀ s : State, ∃ l h : Byte,
    AnsweredBy s 0xFFFC l ∧ AnsweredLater s 0xFFFD h ∧
    hostReset s =
      { s with
        a := 0, x := 0, y := 0, sp := 0xFD, p := 0x24, pc := mkWord h l, cyc := 0
        nmiPending := false, irqPending := false
        mem := (hostReset s).mem
        device := (hostReset s).device
        busLog := s.busLog ++ [.read 0xFFFC l, .read 0xFFFD h] } ∧
    MadeCalls [.read 0xFFFC l, .read 0xFFFD h] s (hostReset s) ∧
    (isDevice s 0xFFFC = false → isDevice s 0xFFFD = false → (hostReset s).mem = s.mem) ∧
    ∀ a, isShared s a = false → byteAt (hostReset s) a = byteAt s a

/-- The launch state is the state after `Reset()` of a machine with nothing listed in memory: the
values of 10_state.md section 8. The empty memory, windows and agenda are the model's choice (log
entries 1, 2, 5, 8); that Reset clears whatever the latches held is the spec's decision D12 (log entry
14); the two reads on the bus log rest on log entry 4, and their order on decision D14 (log entry
23). -/
def Obligations.LaunchStateIsAfterReset : Prop :=
  (∀ s : State, s.mem = [] → s.io = [] → s.device = 0 → s.busLog = [] → s.agenda = [] →
    hostReset s = State.reset) ∧
  State.reset.sp = 0xFD ∧ State.reset.p = 0x24 ∧ State.reset.a = 0 ∧ State.reset.x = 0 ∧
  State.reset.y = 0 ∧ State.reset.cyc = 0

/-- A request sets its own latch and does nothing else, and a second request of a pending kind changes
nothing (60_exceptions.md section 2; 10_state.md section 6). Two independent latches of one bit, which
absorb a second request, are the spec's decision D4 (log entry 26). -/
def Obligations.RequestSetsOneLatch : Prop :=
  ∀ s : State,
    applyHostCall (.requestInterrupt .nmi) s = { s with nmiPending := true } ∧
    applyHostCall (.requestInterrupt .irq) s = { s with irqPending := true } ∧
    ∀ k, applyHostCall (.requestInterrupt k) (applyHostCall (.requestInterrupt k) s) =
      applyHostCall (.requestInterrupt k) s

/-- `SetFlag(f, b)` then `GetFlag(g)`, in a state with bit 5 set: the flag written, every other flag
as before, Unused true whatever was written, and no other field changed (10_state.md section 5; that
bit 5 is constant is the spec's decision D17, log entry 16). -/
def Obligations.SetFlagThenGetFlag : Prop :=
  ∀ (s : State) (f g : Flag) (b : Bool), readFlag .unused s.p = true →
    hostGetFlag g (applyHostCall (.setFlag f b) s) =
      (if g = .unused then true else if g = f then b else hostGetFlag g s) ∧
    (applyHostCall (.setFlag f b) s).setP 0 = s.setP 0 ∧
    readFlag .unused (hostReadP s) = true

/-! ### Addressing -/

/-- R98: an index addition crosses a page exactly when the high byte of the sum differs from the
base's, equivalently when the low bytes' sum passes 255; AbsoluteX, AbsoluteY and IndirectY report
1 extra cycle exactly then, the modes indexed inside page zero always 0. -/
def Obligations.PageCrossing : Prop :=
  (∀ (b : Word) (i : Byte),
    crossed b i = decide ((b.toNat + i.toNat) % 65536 / 256 ≠ b.toNat / 256) ∧
    crossed b i = decide (255 < b.toNat % 256 + i.toNat)) ∧
  ∀ (d : Byte) (w : Word) (s : State),
    (resolve (.absx w) s).extra = (if crossed w s.x then 1 else 0) ∧
    (resolve (.absy w) s).extra = (if crossed w s.y then 1 else 0) ∧
    (resolve (.indy d) s).extra = (if crossed (readZeroPagePointer d s).1 s.y then 1 else 0) ∧
    (resolve (.zpx d) s).extra = 0 ∧ (resolve (.zpy d) s).extra = 0 ∧
    (resolve (.indx d) s).extra = 0

/-- The effective address of the modes that read no pointer: page-zero additions wrap in 8 bits,
absolute ones in 16, and no bus call is made; Accumulator, Immediate, ZeroPage and Absolute owe no
extra cycle (40_engine_and_addressing.md sections 1 and 3). That Immediate's place is the operand byte
itself, which the fetch has read at `PC`, is the model's reading (log entry 7). -/
def Obligations.DirectEffectiveAddresses : Prop :=
  ∀ (d : Byte) (w : Word) (s : State),
    (resolve .acc s).place = .acc ∧ (resolve (.imm d) s).place = .imm d ∧
    (∃ a, (resolve (.zp d) s).place = .ea a ∧ a.toNat = d.toNat) ∧
    (∃ a, (resolve (.zpx d) s).place = .ea a ∧ a.toNat = (d.toNat + s.x.toNat) % 256) ∧
    (∃ a, (resolve (.zpy d) s).place = .ea a ∧ a.toNat = (d.toNat + s.y.toNat) % 256) ∧
    (resolve (.abs w) s).place = .ea w ∧
    (∃ a, (resolve (.absx w) s).place = .ea a ∧ a.toNat = (w.toNat + s.x.toNat) % 65536) ∧
    (∃ a, (resolve (.absy w) s).place = .ea a ∧ a.toNat = (w.toNat + s.y.toNat) % 65536) ∧
    (resolve .acc s).extra = 0 ∧ (resolve (.imm d) s).extra = 0 ∧
    (resolve (.zp d) s).extra = 0 ∧ (resolve (.abs w) s).extra = 0 ∧
    ∀ o, (∀ z, o ≠ .indx z ∧ o ≠ .indy z) → (resolve o s).st = s

/-- The pointer modes: the two bytes are read low first, the second from the wrapped address
(page zero for IndirectX and IndirectY, the pointer's own page for JMP), and nothing but those two
reads happens (40_engine_and_addressing.md section 3; the wrap of IndirectY's pointer is the spec's
decision D11, the order D14, log entries 23 and 27). -/
def Obligations.PointerEffectiveAddresses : Prop :=
  ∀ (d : Byte) (ptr : Word) (s : State),
    (∃ l h : Byte, ∃ z1 z2 : Word,
      z1.toNat = (d.toNat + s.x.toNat) % 256 ∧ z2.toNat = (d.toNat + s.x.toNat + 1) % 256 ∧
      AnsweredBy s z1 l ∧ AnsweredLater s z2 h ∧
      (resolve (.indx d) s).place = .ea (mkWord h l) ∧
      MadeCalls [.read z1 l, .read z2 h] s (resolve (.indx d) s).st) ∧
    (∃ l h : Byte, ∃ z1 z2 a : Word,
      z1.toNat = d.toNat ∧ z2.toNat = (d.toNat + 1) % 256 ∧
      AnsweredBy s z1 l ∧ AnsweredLater s z2 h ∧
      (resolve (.indy d) s).place = .ea a ∧
      a.toNat = (h.toNat * 256 + l.toNat + s.y.toNat) % 65536 ∧
      MadeCalls [.read z1 l, .read z2 h] s (resolve (.indy d) s).st) ∧
    (∃ l h : Byte, ∃ p2 : Word,
      p2.toNat = ptr.toNat / 256 * 256 + (ptr.toNat + 1) % 256 ∧
      AnsweredBy s ptr l ∧ AnsweredLater s p2 h ∧
      (resolveTarget (.ind ptr) s).1 = mkWord h l ∧
      MadeCalls [.read ptr l, .read p2 h] s (resolveTarget (.ind ptr) s).2) ∧
    Frame [] [] [] s (resolve (.indx d) s).st ∧ Frame [] [] [] s (resolve (.indy d) s).st ∧
    Frame [] [] [] s (resolveTarget (.ind ptr) s).2

/-- Reading an operand is one bus read of the effective address, none for the accumulator, and none
beyond the fetch's for Immediate (40_engine_and_addressing.md section 2; log entry 7). -/
def Obligations.OperandReadIsOneBusRead : Prop :=
  ∀ (o : Operand) (s : State),
    Frame [] [] [] s (afterOperand o s) ∧ (afterOperand o s).pc = s.pc ∧
    match (resolve o s).place with
    | .acc => operandByte o s = s.a ∧ MadeCalls [] s (afterOperand o s)
    | .imm d => operandByte o s = d ∧ MadeCalls [] s (afterOperand o s)
    | .ea a => AnsweredBy (resolve o s).st a (operandByte o s) ∧
        MadeCalls [.read a (operandByte o s)] (resolve o s).st (afterOperand o s)

/-! ### Arithmetic -/

/-- R122: the 9-bit sum is the result and 256 times the carry, and overflow is set exactly when the
signed sum lies outside -128..+127. -/
def Obligations.AddBinIsNineBitSum : Prop :=
  ∀ (a m : Byte) (c : Bool),
    (addBin a m c).result.toNat + 256 * (addBin a m c).carry.toNat =
      a.toNat + m.toNat + c.toNat ∧
    ((addBin a m c).overflow = true ↔
      a.toInt + m.toInt + (c.toNat : Int) < -128 ∨ 127 < a.toInt + m.toInt + (c.toNat : Int)) ∧
    (addBin a m c).overflow =
      (((a ^^^ (addBin a m c).result) &&& (m ^^^ (addBin a m c).result)).getLsbD 7)

/-- ADC and SBC complete in both modes from every state and write A, C, V, Z, N and nothing else;
their opcodes (41_arithmetic.md section 2). -/
def Obligations.ArithmeticFrame : Prop :=
  EncodesAlu .adc 0x69 0x65 0x75 0x6D 0x7D 0x79 0x61 0x71 ∧
  EncodesAlu .sbc 0xE9 0xE5 0xF5 0xED 0xFD 0xF9 0xE1 0xF1 ∧
  ∀ (o : Operand) (s : State),
    (∃ t, exec (.adc o) s = .next t ∧
      Frame [.a] [.carry, .overflow, .zero, .negative] [] s t ∧ ReadDone o s t) ∧
    (∃ t, exec (.sbc o) s = .next t ∧
      Frame [.a] [.carry, .overflow, .zero, .negative] [] s t ∧ ReadDone o s t)

/-- ADC with Decimal clear: A, C, V, Z, N from the sum of A, the operand and C
(41_arithmetic.md sections 1 and 2). -/
def Obligations.AdcBinaryResult : Prop :=
  ∀ (o : Operand) (s : State), readFlag .decimal s.p = false →
    ∃ t, exec (.adc o) s = .next t ∧
      t.a.toNat =
        (s.a.toNat + (operandByte o s).toNat + (readFlag .carry s.p).toNat) % 256 ∧
      readFlag .carry t.p =
        decide (256 ≤ s.a.toNat + (operandByte o s).toNat + (readFlag .carry s.p).toNat) ∧
      (readFlag .overflow t.p = true ↔
        s.a.toInt + (operandByte o s).toInt + ((readFlag .carry s.p).toNat : Int) < -128 ∨
        127 < s.a.toInt + (operandByte o s).toInt + ((readFlag .carry s.p).toNat : Int)) ∧
      HasZN t.a t

/-- SBC with Decimal clear: the difference A - m - (1 - C), C exactly when there is no borrow, V when
the signed difference does not fit (41_arithmetic.md sections 1 and 2). -/
def Obligations.SbcBinaryResult : Prop :=
  ∀ (o : Operand) (s : State), readFlag .decimal s.p = false →
    ∃ t, exec (.sbc o) s = .next t ∧
      (t.a.toNat : Int) =
        ((s.a.toNat : Int) - (operandByte o s).toNat - (1 - (readFlag .carry s.p).toNat)) % 256 ∧
      readFlag .carry t.p =
        decide ((operandByte o s).toNat + (1 - (readFlag .carry s.p).toNat) ≤ s.a.toNat) ∧
      (readFlag .overflow t.p = true ↔
        s.a.toInt - (operandByte o s).toInt - (1 - ((readFlag .carry s.p).toNat : Int)) < -128 ∨
        127 < s.a.toInt - (operandByte o s).toInt - (1 - ((readFlag .carry s.p).toNat : Int))) ∧
      HasZN t.a t

/-- Decimal ADC and SBC on valid BCD operands: A is the decimal sum or difference modulo 100 and C
says whether it reached 100, or that there was no borrow (41_arithmetic.md section 1; the algorithm is
the spec's decision D7, log entry 12). -/
def Obligations.DecimalArithmeticOnBcd : Prop :=
  ∀ (o : Operand) (s : State), readFlag .decimal s.p = true → isBcd s.a →
    isBcd (operandByte o s) →
    (∃ t, exec (.adc o) s = .next t ∧
      t.a.toNat =
        bcdOf ((decOf s.a + decOf (operandByte o s) + (readFlag .carry s.p).toNat) % 100) ∧
      readFlag .carry t.p =
        decide (100 ≤ decOf s.a + decOf (operandByte o s) + (readFlag .carry s.p).toNat)) ∧
    (∃ t, exec (.sbc o) s = .next t ∧
      t.a.toNat =
        bcdOf ((decOf s.a + 100 - decOf (operandByte o s) -
          (1 - (readFlag .carry s.p).toNat)) % 100) ∧
      readFlag .carry t.p =
        decide (decOf (operandByte o s) + (1 - (readFlag .carry s.p).toNat) ≤ decOf s.a))

/-- Decimal ADC and SBC on every operand, valid BCD or not: A, C, V, Z, N of ADC in numbers, N and V
from the sum before the high digit's adjustment, Z from the binary sum; A of SBC in numbers, and its C,
Z, N, V those SBC has with Decimal clear (41_arithmetic.md section 1). The algorithm is the spec's
decision D7 (log entry 12). -/
def Obligations.DecimalFlags : Prop :=
  ∀ (o : Operand) (s : State), readFlag .decimal s.p = true →
    (∃ t, exec (.adc o) s = .next t ∧
      let sum := decimalSum s.a.toNat (operandByte o s).toNat (readFlag .carry s.p).toNat
      t.a.toNat = (if sum < 160 then sum else sum + 96) % 256 ∧
      readFlag .carry t.p = decide (160 ≤ sum) ∧
      readFlag .negative t.p = decide (128 ≤ sum % 256) ∧
      (readFlag .overflow t.p = true ↔
        (128 ≤ s.a.toNat ↔ 128 ≤ (operandByte o s).toNat) ∧
        ¬ (128 ≤ s.a.toNat ↔ 128 ≤ sum % 256)) ∧
      readFlag .zero t.p = decide
        ((s.a.toNat + (operandByte o s).toNat + (readFlag .carry s.p).toNat) % 256 = 0)) ∧
    (∃ t u, exec (.sbc o) s = .next t ∧
      exec (.sbc o) (s.setP (writeFlag .decimal false s.p)) = .next u ∧
      (t.a.toNat : Int) =
        decimalDifference s.a.toNat (operandByte o s).toNat (readFlag .carry s.p).toNat ∧
      ∀ f, f ≠ .decimal → readFlag f t.p = readFlag f u.p)

/-! ### Logical, shifts, loads, stores, transfers -/

/-- R130, R131, R132: AND, ORA, EOR of the operand with A into A, Z and N from it, every other flag,
register and byte unchanged; their opcodes. -/
def Obligations.LogicalResults : Prop :=
  EncodesAlu .and 0x29 0x25 0x35 0x2D 0x3D 0x39 0x21 0x31 ∧
  EncodesAlu .ora 0x09 0x05 0x15 0x0D 0x1D 0x19 0x01 0x11 ∧
  EncodesAlu .eor 0x49 0x45 0x55 0x4D 0x5D 0x59 0x41 0x51 ∧
  ∀ (o : Operand) (s : State),
    LogicEffect (.and o) o (s.a &&& operandByte o s) s ∧
    LogicEffect (.ora o) o (s.a ||| operandByte o s) s ∧
    LogicEffect (.eor o) o (s.a ^^^ operandByte o s) s

/-- R133: BIT sets Z from `A and m`, N and V from bits 7 and 6 of m, and changes nothing else; its
opcodes. -/
def Obligations.BitResult : Prop :=
  (∀ d w, encode (.bit (.zp d)) = [0x24, d] ∧ encode (.bit (.abs w)) = [0x2C, lo w, hi w] ∧
    ¬ WellFormed (.bit (.imm d))) ∧
  ∀ (o : Operand) (s : State), ∃ t, exec (.bit o) s = .next t ∧
    Frame [] [.zero, .negative, .overflow] [] s t ∧
    readFlag .zero t.p = decide (s.a &&& operandByte o s = 0) ∧
    readFlag .negative t.p = (operandByte o s).getLsbD 7 ∧
    readFlag .overflow t.p = (operandByte o s).getLsbD 6 ∧
    ReadDone o s t

/-- R140, R141: ASL and LSR shift the accumulator or the byte in memory by one, the bit shifted out
makes C, Z and N come from the result; nothing else changes; their opcodes. -/
def Obligations.ShiftResults : Prop :=
  EncodesModify .asl 0x06 0x16 0x0E 0x1E ∧ encode (.asl .acc) = [0x0A] ∧
  EncodesModify .lsr 0x46 0x56 0x4E 0x5E ∧ encode (.lsr .acc) = [0x4A] ∧
  ∀ (o : Operand) (s : State), Memory.wf s.mem = true →
    (WellFormed (.asl o) → ∃ t r, exec (.asl o) s = .next t ∧
      r.toNat = (operandByte o s).toNat * 2 % 256 ∧
      readFlag .carry t.p = (operandByte o s).getLsbD 7 ∧ HasZN r t ∧
      ModifyDone o [.carry, .zero, .negative] r s t) ∧
    (WellFormed (.lsr o) → ∃ t r, exec (.lsr o) s = .next t ∧
      r.toNat = (operandByte o s).toNat / 2 ∧
      readFlag .carry t.p = (operandByte o s).getLsbD 0 ∧ HasZN r t ∧
      readFlag .negative t.p = false ∧
      ModifyDone o [.carry, .zero, .negative] r s t)

/-- R142, R143: ROL and ROR rotate through C: the old C enters the vacated bit, the bit shifted out
makes C, Z and N come from the result; nothing else changes; their opcodes. -/
def Obligations.RotateResults : Prop :=
  EncodesModify .rol 0x26 0x36 0x2E 0x3E ∧ encode (.rol .acc) = [0x2A] ∧
  EncodesModify .ror 0x66 0x76 0x6E 0x7E ∧ encode (.ror .acc) = [0x6A] ∧
  ∀ (o : Operand) (s : State), Memory.wf s.mem = true →
    (WellFormed (.rol o) → ∃ t r, exec (.rol o) s = .next t ∧
      r.toNat = ((operandByte o s).toNat * 2 + (readFlag .carry s.p).toNat) % 256 ∧
      readFlag .carry t.p = (operandByte o s).getLsbD 7 ∧ HasZN r t ∧
      ModifyDone o [.carry, .zero, .negative] r s t) ∧
    (WellFormed (.ror o) → ∃ t r, exec (.ror o) s = .next t ∧
      r.toNat = (operandByte o s).toNat / 2 + 128 * (readFlag .carry s.p).toNat ∧
      readFlag .carry t.p = (operandByte o s).getLsbD 0 ∧ HasZN r t ∧
      ModifyDone o [.carry, .zero, .negative] r s t)

/-- R150, R151, R152: a load puts the operand in its register, Z and N come from it, nothing else
changes; the opcodes; LDX has no form indexed by X, LDY none by Y. -/
def Obligations.LoadResults : Prop :=
  EncodesAlu .lda 0xA9 0xA5 0xB5 0xAD 0xBD 0xB9 0xA1 0xB1 ∧
  (∀ d w, encode (.ldx (.imm d)) = [0xA2, d] ∧ encode (.ldx (.zp d)) = [0xA6, d] ∧
    encode (.ldx (.zpy d)) = [0xB6, d] ∧ encode (.ldx (.abs w)) = [0xAE, lo w, hi w] ∧
    encode (.ldx (.absy w)) = [0xBE, lo w, hi w] ∧
    encode (.ldy (.imm d)) = [0xA0, d] ∧ encode (.ldy (.zp d)) = [0xA4, d] ∧
    encode (.ldy (.zpx d)) = [0xB4, d] ∧ encode (.ldy (.abs w)) = [0xAC, lo w, hi w] ∧
    encode (.ldy (.absx w)) = [0xBC, lo w, hi w]) ∧
  (∀ d w, ¬ WellFormed (.ldx (.zpx d)) ∧ ¬ WellFormed (.ldx (.absx w)) ∧
    ¬ WellFormed (.ldy (.zpy d)) ∧ ¬ WellFormed (.ldy (.absy w))) ∧
  ∀ (o : Operand) (s : State),
    LoadEffect (.lda o) o .a s ∧ LoadEffect (.ldx o) o .x s ∧ LoadEffect (.ldy o) o .y s

/-- A store writes its register's byte at the effective address in one bus write,
reads nothing there, and changes no flag and no register; the opcodes (44_load_store_transfer.md
section 2; the totals are in `CycleTotals`). -/
def Obligations.StoreResults : Prop :=
  (∀ d w, encode (.sta (.zp d)) = [0x85, d] ∧ encode (.sta (.zpx d)) = [0x95, d] ∧
    encode (.sta (.abs w)) = [0x8D, lo w, hi w] ∧ encode (.sta (.absx w)) = [0x9D, lo w, hi w] ∧
    encode (.sta (.absy w)) = [0x99, lo w, hi w] ∧ encode (.sta (.indx d)) = [0x81, d] ∧
    encode (.sta (.indy d)) = [0x91, d] ∧
    encode (.stx (.zp d)) = [0x86, d] ∧ encode (.stx (.zpy d)) = [0x96, d] ∧
    encode (.stx (.abs w)) = [0x8E, lo w, hi w] ∧
    encode (.sty (.zp d)) = [0x84, d] ∧ encode (.sty (.zpx d)) = [0x94, d] ∧
    encode (.sty (.abs w)) = [0x8C, lo w, hi w]) ∧
  ∀ (o : Operand) (s : State), Memory.wf s.mem = true →
    (WellFormed (.sta o) → StoreEffect (.sta o) o s.a s) ∧
    (WellFormed (.stx o) → StoreEffect (.stx o) o s.x s) ∧
    (WellFormed (.sty o) → StoreEffect (.sty o) o s.y s)

/-- R156, R157, R158, R159: a transfer copies a register, Z and N come from the value, nothing else
changes; the opcodes. TSX's clause says the same of it (44_load_store_transfer.md section 3). -/
def Obligations.TransferResults : Prop :=
  ∀ s : State,
    TransferEffect .tax 0xAA .x s.a s ∧ TransferEffect .tay 0xA8 .y s.a s ∧
    TransferEffect .txa 0x8A .a s.x s ∧ TransferEffect .tya 0x98 .a s.y s ∧
    TransferEffect .tsx 0xBA .x s.sp s

/-- R161: TXS copies X to SP and changes no flag; no instruction but it, the pushes and the pulls
changes SP. -/
def Obligations.TxsSetsNoFlag : Prop :=
  encode .txs = [0x9A] ∧
  (∀ s : State, ∃ t, exec .txs s = .next t ∧ Frame [.sp] [] [] s t ∧ t.sp = s.x ∧ t.p = s.p ∧
    ImpliedDone s t) ∧
  ∀ (i : Instr) (s : State), changesSp i = false → ∃ t, exec i s = .next t ∧ t.sp = s.sp

/-! ### Compares, increments, decrements -/

/-- R173, R170, R171, R172: a compare sets C when the register is not below the operand (unsigned), Z
when equal, N from bit 7 of the 8-bit difference, as the binary addition of the complement with
carry in does; nothing is stored and V is unchanged; the opcodes. -/
def Obligations.CompareResults : Prop :=
  EncodesAlu .cmp 0xC9 0xC5 0xD5 0xCD 0xDD 0xD9 0xC1 0xD1 ∧
  (∀ d w, encode (.cpx (.imm d)) = [0xE0, d] ∧ encode (.cpx (.zp d)) = [0xE4, d] ∧
    encode (.cpx (.abs w)) = [0xEC, lo w, hi w] ∧
    encode (.cpy (.imm d)) = [0xC0, d] ∧ encode (.cpy (.zp d)) = [0xC4, d] ∧
    encode (.cpy (.abs w)) = [0xCC, lo w, hi w]) ∧
  (∀ r m : Byte, (addBin r (m ^^^ 0xFF) true).carry = decide (m.toNat ≤ r.toNat) ∧
    (addBin r (m ^^^ 0xFF) true).zero = decide (r = m) ∧
    (addBin r (m ^^^ 0xFF) true).negative = decide (128 ≤ (r.toNat + 256 - m.toNat) % 256)) ∧
  ∀ (o : Operand) (s : State),
    CompareEffect (.cmp o) o s.a s ∧ CompareEffect (.cpx o) o s.x s ∧
    CompareEffect (.cpy o) o s.y s

/-- INC and DEC add or subtract one modulo 256 in memory, with one read and one write; Z
and N come from the result, C and V are unchanged; the opcodes (45_compare_incdec.md section 2; the
totals are in `CycleTotals`). -/
def Obligations.MemoryIncDecResults : Prop :=
  EncodesModify .inc 0xE6 0xF6 0xEE 0xFE ∧ EncodesModify .dec 0xC6 0xD6 0xCE 0xDE ∧
  ∀ (o : Operand) (s : State), Memory.wf s.mem = true →
    (WellFormed (.inc o) → ∃ t r, exec (.inc o) s = .next t ∧
      r.toNat = ((operandByte o s).toNat + 1) % 256 ∧ HasZN r t ∧
      ModifyDone o [.zero, .negative] r s t) ∧
    (WellFormed (.dec o) → ∃ t r, exec (.dec o) s = .next t ∧
      r.toNat = ((operandByte o s).toNat + 255) % 256 ∧ HasZN r t ∧
      ModifyDone o [.zero, .negative] r s t)

/-- R176, R177, R178, R179: the register increments and decrements wrap modulo 256, set Z and N, and
change nothing else; the opcodes. -/
def Obligations.RegisterIncDecResults : Prop :=
  ∀ s : State,
    (∃ v : Byte, v.toNat = (s.x.toNat + 1) % 256 ∧ TransferEffect .inx 0xE8 .x v s) ∧
    (∃ v : Byte, v.toNat = (s.y.toNat + 1) % 256 ∧ TransferEffect .iny 0xC8 .y v s) ∧
    (∃ v : Byte, v.toNat = (s.x.toNat + 255) % 256 ∧ TransferEffect .dex 0xCA .x v s) ∧
    (∃ v : Byte, v.toNat = (s.y.toNat + 255) % 256 ∧ TransferEffect .dey 0x88 .y v s)

/-! ### Control flow -/

/-- Each branch tests its flag; taken, PC is the next instruction's address plus the signed
displacement modulo 65536 and the total is 3, or 4 into another page than the next instruction; not
taken, PC stays and the total is 2; nothing else changes; the opcodes (46_branches.md; the
displacement form is the spec's decision D10, log entry 27). -/
def Obligations.BranchResults : Prop :=
  (∀ d, encode (.bcc d) = [0x90, d] ∧ encode (.bcs d) = [0xB0, d] ∧ encode (.beq d) = [0xF0, d] ∧
    encode (.bne d) = [0xD0, d] ∧ encode (.bmi d) = [0x30, d] ∧ encode (.bpl d) = [0x10, d] ∧
    encode (.bvc d) = [0x50, d] ∧ encode (.bvs d) = [0x70, d]) ∧
  ∀ (d : Byte) (s : State),
    BranchEffect (.bcc d) .carry false d s ∧ BranchEffect (.bcs d) .carry true d s ∧
    BranchEffect (.beq d) .zero true d s ∧ BranchEffect (.bne d) .zero false d s ∧
    BranchEffect (.bmi d) .negative true d s ∧ BranchEffect (.bpl d) .negative false d s ∧
    BranchEffect (.bvc d) .overflow false d s ∧ BranchEffect (.bvs d) .overflow true d s

/-- JMP sets PC to the effective address, in both modes, and changes nothing else; the opcodes and
totals (47_jumps.md; 40_engine_and_addressing.md section 3). That the pointer's low byte is read before
its high byte is the spec's decision D14 (log entry 23). -/
def Obligations.JmpResult : Prop :=
  (∀ w, encode (.jmp (.abs w)) = [0x4C, lo w, hi w] ∧
    encode (.jmp (.ind w)) = [0x6C, lo w, hi w]) ∧
  ∀ (g : Target) (s : State), ∃ t, exec (.jmp g) s = .next t ∧
    Frame [] [] [] s t ∧ t.p = s.p ∧
    match g with
    | .abs w => t.pc = w ∧ t.cyc = 3 ∧ MadeCalls [] s t
    | .ind ptr => t.cyc = 5 ∧ ∃ l h : Byte,
        AnsweredBy s ptr l ∧ AnsweredLater s (mkWord (hi ptr) (lo ptr + 1)) h ∧
        t.pc = mkWord h l ∧
        MadeCalls [.read ptr l, .read (mkWord (hi ptr) (lo ptr + 1)) h] s t

/-- R201: JSR pushes the address of its own third byte, high byte first, and jumps; no flag changes;
the opcode and total; the executing tick reads all three bytes before it pushes. -/
def Obligations.JsrResult : Prop :=
  (∀ w, encode (.jsr w) = [0x20, lo w, hi w]) ∧
  (∀ (w : Word) (s : State), Memory.wf s.mem = true → ∃ t, exec (.jsr w) s = .next t ∧
    Frame [.sp] [] [stackAddr s.sp, stackAddr (s.sp - 1)] s t ∧ t.p = s.p ∧
    t.sp = s.sp - 2 ∧ t.pc = w ∧ t.cyc = 6 ∧
    StoredEarlier t (stackAddr s.sp) (hi (s.pc - 1)) ∧
    StoredAt t (stackAddr (s.sp - 1)) (lo (s.pc - 1)) ∧
    MadeCalls
      [.write (stackAddr s.sp) (hi (s.pc - 1)), .write (stackAddr (s.sp - 1)) (lo (s.pc - 1))] s t) ∧
  ∀ (w : Word) (s : State),
    isDevice s s.pc = false → isDevice s (s.pc + 1) = false → isDevice s (s.pc + 2) = false →
    byteAt s s.pc = 0x20 → byteAt s (s.pc + 1) = lo w → byteAt s (s.pc + 2) = hi w →
    ∃ t, executeOne s = .next t ∧ t.pc = w ∧ MadeCalls
      [.read s.pc 0x20, .read (s.pc + 1) (lo w), .read (s.pc + 2) (hi w),
       .write (stackAddr s.sp) (hi (s.pc + 2)), .write (stackAddr (s.sp - 1)) (lo (s.pc + 2))] s t

/-- R202: RTS pulls the low byte, then the high byte, and continues one past the word; no flag
changes; the opcode and total; the executing tick reads the opcode, then the two stack bytes. -/
def Obligations.RtsResult : Prop :=
  encode .rts = [0x60] ∧
  (∀ s : State, ∃ t, ∃ l h : Byte, exec .rts s = .next t ∧
    Frame [.sp] [] [] s t ∧ t.p = s.p ∧ t.sp = s.sp + 2 ∧ t.pc = mkWord h l + 1 ∧ t.cyc = 6 ∧
    AnsweredBy s (stackAddr (s.sp + 1)) l ∧ AnsweredLater s (stackAddr (s.sp + 2)) h ∧
    MadeCalls [.read (stackAddr (s.sp + 1)) l, .read (stackAddr (s.sp + 2)) h] s t) ∧
  ∀ s : State, isDevice s s.pc = false → byteAt s s.pc = 0x60 →
    ∃ t, ∃ l h : Byte, executeOne s = .next t ∧ t.pc = mkWord h l + 1 ∧ MadeCalls
      [.read s.pc 0x60, .read (stackAddr (s.sp + 1)) l, .read (stackAddr (s.sp + 2)) h] s t

/-- RTS after JSR: from any state whose two stack bytes are RAM, execution returns to the
instruction after the JSR with SP, the flags and the registers as before (47_jumps.md; 20_memory.md
section 6). -/
def Obligations.RtsUndoesJsr : Prop :=
  ∀ (w : Word) (s : State), Memory.wf s.mem = true →
    isDevice s (stackAddr s.sp) = false → isDevice s (stackAddr (s.sp - 1)) = false →
    ∃ t u, exec (.jsr w) s = .next t ∧ exec .rts t = .next u ∧
      u.pc = s.pc ∧ u.sp = s.sp ∧ u.p = s.p ∧ u.a = s.a ∧ u.x = s.x ∧ u.y = s.y

/-! ### Stack -/

/-- R53, R50: a push writes at 0x0100 + SP and decrements SP modulo 256; the pull after it gives the
byte back and restores SP, for every SP, on RAM. -/
def Obligations.PullUndoesPush : Prop :=
  ∀ (v : Byte) (s : State), Memory.wf s.mem = true → isDevice s (stackAddr s.sp) = false →
    (stackAddr s.sp).toNat = 0x100 + s.sp.toNat ∧
    byteAt (push v s) (stackAddr s.sp) = v ∧
    (push v s).sp.toNat = (s.sp.toNat + 255) % 256 ∧
    MadeCalls [.write (stackAddr s.sp) v] s (push v s) ∧
    (pull (push v s)).1 = v ∧ (pull (push v s)).2.sp = s.sp

/-- R54: a word is pushed high byte first and pulled low byte first, in the order of the bus calls and
in the slots of the stack, split across the wrap of SP where it comes to that; on RAM the word pulled is
the word pushed. -/
def Obligations.PulledWordIsPushedWord : Prop :=
  (∀ (w : Word) (s : State),
    MadeCalls [.write (stackAddr s.sp) (hi w), .write (stackAddr (s.sp - 1)) (lo w)] s
      (pushWord w s) ∧
    (pushWord w s).sp = s.sp - 2 ∧
    ∃ l h : Byte, (pullWord s).1 = mkWord h l ∧ (pullWord s).2.sp = s.sp + 2 ∧
      MadeCalls [.read (stackAddr (s.sp + 1)) l, .read (stackAddr (s.sp + 2)) h] s (pullWord s).2) ∧
  ∀ (w : Word) (s : State), Memory.wf s.mem = true →
    isDevice s (stackAddr s.sp) = false → isDevice s (stackAddr (s.sp - 1)) = false →
    byteAt (pushWord w s) (stackAddr s.sp) = hi w ∧
    byteAt (pushWord w s) (stackAddr (s.sp - 1)) = lo w ∧
    (pullWord (pushWord w s)).1 = w ∧ (pullWord (pushWord w s)).2.sp = s.sp

/-- R210, R211: PHA pushes A, PHP pushes P with bits 4 and 5 set; SP goes down by one, no flag and no
other register changes; the opcodes and totals. -/
def Obligations.PushInstructions : Prop :=
  encode .pha = [0x48] ∧ encode .php = [0x08] ∧
  ∀ s : State, Memory.wf s.mem = true →
    (∃ t, exec .pha s = .next t ∧ Frame [.sp] [] [stackAddr s.sp] s t ∧ t.p = s.p ∧
      t.sp = s.sp - 1 ∧ t.pc = s.pc ∧ t.cyc = 3 ∧ StoredAt t (stackAddr s.sp) s.a ∧
      MadeCalls [.write (stackAddr s.sp) s.a] s t) ∧
    (∃ t v, exec .php s = .next t ∧ Frame [.sp] [] [stackAddr s.sp] s t ∧ t.p = s.p ∧
      t.sp = s.sp - 1 ∧ t.pc = s.pc ∧ t.cyc = 3 ∧ StoredAt t (stackAddr s.sp) v ∧
      MadeCalls [.write (stackAddr s.sp) v] s t ∧
      ∀ f, readFlag f v = (if f = .break ∨ f = .unused then true else readFlag f s.p))

/-- R212: PLA pulls A and sets Z and N from it; nothing else changes; the opcode and total; PHA then
PLA restores A and SP for every SP, on RAM, and sets Z and N from A. -/
def Obligations.PlaResult : Prop :=
  encode .pla = [0x68] ∧
  (∀ s : State, ∃ t, exec .pla s = .next t ∧ Frame [.a, .sp] [.zero, .negative] [] s t ∧
    AnsweredBy s (stackAddr (s.sp + 1)) t.a ∧ HasZN t.a t ∧ t.sp = s.sp + 1 ∧ t.pc = s.pc ∧
    t.cyc = 4 ∧ MadeCalls [.read (stackAddr (s.sp + 1)) t.a] s t) ∧
  ∀ s : State, Memory.wf s.mem = true → isDevice s (stackAddr s.sp) = false →
    ∃ t u, exec .pha s = .next t ∧ exec .pla t = .next u ∧ u.a = s.a ∧ u.sp = s.sp ∧ HasZN s.a u

/-- PLP loads N, V, D, I, Z, C from the pulled byte, sets bit 5, and clears bit 4 (the spec's decision
D8, log entry 15); nothing else changes (48_stack.md). -/
def Obligations.PlpResult : Prop :=
  encode .plp = [0x28] ∧
  ∀ s : State, ∃ t v, exec .plp s = .next t ∧ AnsweredBy s (stackAddr (s.sp + 1)) v ∧
    (∀ f, readFlag f t.p =
      (if f = .unused then true else if f = .break then false else readFlag f v)) ∧
    Frame [.sp] [.negative, .overflow, .unused, .break, .decimal, .interruptDisable, .zero, .carry]
      [] s t ∧
    t.sp = s.sp + 1 ∧ t.pc = s.pc ∧ t.cyc = 4 ∧
    MadeCalls [.read (stackAddr (s.sp + 1)) v] s t

/-! ### System -/

/-- BRK, whatever `P.I` holds: the entry sequence through 0xFFFE with Break 1 and return address one
past the next byte, 7 ticks in all (49_system.md section 1). The return address is the spec's decision
D9 (log entry 13); the order of the vector's two reads is decision D14 (log entry 23). -/
def Obligations.BrkResult : Prop :=
  encode .brk = [0x00] ∧
  ∀ s : State, Memory.wf s.mem = true →
    ∃ t, exec .brk s = .next t ∧ Entered 0xFFFE true (s.pc + 1) s t ∧ t.cyc = 7

/-- RTI pulls the status (as PLP), then PC low, then PC high, with no increment (49_system.md section
1; bit 4 by the spec's decision D8, log entry 15). -/
def Obligations.RtiResult : Prop :=
  encode .rti = [0x40] ∧
  ∀ s : State, ∃ t, ∃ v l h : Byte, exec .rti s = .next t ∧
    AnsweredBy s (stackAddr (s.sp + 1)) v ∧ AnsweredLater s (stackAddr (s.sp + 2)) l ∧
    AnsweredLater s (stackAddr (s.sp + 3)) h ∧
    (∀ f, readFlag f t.p =
      (if f = .unused then true else if f = .break then false else readFlag f v)) ∧
    Frame [.sp] [.negative, .overflow, .unused, .break, .decimal, .interruptDisable, .zero, .carry]
      [] s t ∧
    t.sp = s.sp + 3 ∧ t.pc = mkWord h l ∧ t.cyc = 6 ∧
    MadeCalls [.read (stackAddr (s.sp + 1)) v, .read (stackAddr (s.sp + 2)) l,
      .read (stackAddr (s.sp + 3)) h] s t

/-- RTI after an entry sequence, on RAM (no device that answers the vector shares the stack): PC is the
return address, N, V, D, I, Z, C and the registers are as before the entry: interrupts and BRK are
precise (60_exceptions.md section 4; 49_system.md). -/
def Obligations.RtiUndoesEntry : Prop :=
  ∀ (vec : Word) (brk : Bool) (s : State), Memory.wf s.mem = true →
    (∀ k : Byte, isDevice s (stackAddr k) = false) →
    ((∀ k : Byte, isShared s (stackAddr k) = false) ∨
      isDevice s vec = false ∧ isDevice s (vec + 1) = false) →
    ∃ u, exec .rti (enterInterrupt vec brk s) = .next u ∧
      u.pc = s.pc ∧ u.sp = s.sp ∧ u.a = s.a ∧ u.x = s.x ∧ u.y = s.y ∧
      ∀ f, f ≠ .break → f ≠ .unused → readFlag f u.p = readFlag f s.p

/-- NOP does nothing: its total is 2 cycles, and its executing tick only fetches the opcode, moves PC
on by one and forces the Unused flag (49_system.md section 2). That the executing tick leaves 1 in the
counter is the spec's decision D1 (log entry 6). -/
def Obligations.NopChangesNothing : Prop :=
  encode .nop = [0xEA] ∧
  (∀ s : State, exec .nop s = .next { s with cyc := 2 }) ∧
  ∀ s : State, isDevice s s.pc = false → byteAt s s.pc = 0xEA →
    executeOne s = .next
      { s with
        pc := s.pc + 1, p := s.p ||| 0x20, cyc := 1, busLog := s.busLog ++ [.read s.pc 0xEA] }

/-- UNDOC does what NOP does, for each of its bytes: one byte, two cycles, by the spec's decision D6
(49_system.md section 2; log entry 11). -/
def Obligations.FallbackActsAsNop : Prop :=
  ∀ (op : Byte) (s : State), op ∈ undocumentedOpcodes →
    encode (.undoc op) = [op] ∧ exec (.undoc op) s = exec .nop s ∧
    exec (.undoc op) s = .next { s with cyc := 2 }

/-- R223, R224, R227, R229: each flag instruction writes exactly its flag and nothing else; the
opcodes. The clauses of CLI, SEI, SED say the same of them (49_system.md section 3). -/
def Obligations.FlagInstructionResults : Prop :=
  ∀ s : State,
    FlagEffect .clc 0x18 .carry false s ∧ FlagEffect .sec 0x38 .carry true s ∧
    FlagEffect .cli 0x58 .interruptDisable false s ∧
    FlagEffect .sei 0x78 .interruptDisable true s ∧
    FlagEffect .cld 0xD8 .decimal false s ∧ FlagEffect .sed 0xF8 .decimal true s ∧
    FlagEffect .clv 0xB8 .overflow false s

/-! ### The whole machine -/

/-- Every step keeps the memory's canonical form (20_memory.md sections 1 and 7), the counter's range
(10_state.md section 6; 0 to 7 between ticks rests on the spec's decisions D1 and D16, log entries 6 and
20) and bit 5 of P (10_state.md section 5; that it stays 1 after `SetFlag(Unused, false)` is decision
D17, log entry 16). -/
def Obligations.StepKeepsInvariant : Prop :=
  ∀ s t : State, Inv s → step s = .next t → Inv t

/-- The launch state has the invariant (10_state.md section 8). -/
def Obligations.LaunchStateHasInvariant : Prop := Inv State.reset

/-- Every step from every state, with every sequence of host calls and device answers, completes: no
fault and no refusal (60_exceptions.md section 1; 30_encoding.md section 4). -/
def Obligations.EveryStepCompletes : Prop := ∀ s : State, Completes s

/-- The live Break bit is read by no rule: two states that differ at most in it step, with the same
host calls, to states that differ at most in it. Every pushed copy, register, address and bus call is
the same (10_state.md section 5, 93_implementation_defined.md U1; the spec's decision D8, log entry
15). -/
def Obligations.LiveBreakBitIsNeverRead : Prop :=
  ∀ s t : State, SameButBreak s t →
    ∃ s' t', step s = .next s' ∧ step t = .next t' ∧ SameButBreak s' t'

/-- Which instruction writes which flag: every flag not in the row of the table in 10_state.md section
5 is unchanged; and no instruction changes the latches, the windows or the agenda (10_state.md
section 6; the last two are the model's own fields, log entries 2, 5). -/
def Obligations.FlagsWrittenAsTabled : Prop :=
  ∀ (i : Instr) (s : State), ∃ t, exec i s = .next t ∧
    (∀ f, f ∉ flagsWritten i → readFlag f t.p = readFlag f s.p) ∧
    t.nmiPending = s.nmiPending ∧ t.irqPending = s.irqPending ∧ t.io = s.io ∧ t.agenda = s.agenda

/-- Memory changes only by bus calls: every instruction makes a list of them and nothing else of the
bus. A byte that none of them writes is as before, unless a device answers one and shares that byte
(20_memory.md R58); where no device answers, the devices stay as they are. Only the stores, the memory
forms of the shifts, rotates, INC and DEC, PHA, PHP, JSR and BRK make writes; with reads alone and no
device, memory is as before (40_engine_and_addressing.md section 2, 20_memory.md section 7,
95_test_vectors.md section 4; the windows and the devices' state are the model's, log entries 2, 3). -/
def Obligations.OnlyWritersWrite : Prop :=
  ∀ (i : Instr) (s : State), ∃ t calls, exec i s = .next t ∧ MadeCalls calls s t ∧
    (∀ a, (∀ v, .write a v ∉ calls) → isShared s a = false ∨ NoDevice s calls →
      byteAt t a = byteAt s a) ∧
    (NoDevice s calls → t.device = s.device) ∧
    (WellFormed i → makesWrites i = false →
      (∀ c ∈ calls, c.isRead = true) ∧ (NoDevice s calls → t.mem = s.mem))

/-- The cycle total of every well-formed instruction is the base count of its opcode plus the
resolver's extra plus the branch's extra, at least 2 and at most 8 (40_engine_and_addressing.md
section 1, 70_reset_and_hazards.md section 4). That stores and read-modify-write instructions pay the
extra is the spec's decision D2 (log entry 10); that the total of every undocumented byte is 2 is
decision D6 (log entry 11). -/
def Obligations.CycleTotals : Prop :=
  ∀ (i : Instr) (s : State), WellFormed i → ∃ op t, i.opcode = some op ∧ exec i s = .next t ∧
    t.cyc = ((baseCycles op + addressingExtra i s + branchExtra i s : Nat) : Int) ∧
    2 ≤ t.cyc ∧ t.cyc ≤ 8
end

