-- ==== Sys2Proof/Laws/Memory.lean ====
section
/-! SUPPORT. The laws of the memory: read after write, and the canonical form. -/

namespace Sys2Proof.Machine

@[simp] theorem Memory.read_nil (a : Nat) : Memory.read [] a = unlistedByte := rfl

theorem Memory.read_cons (k : Nat) (v : Byte) (m : Memory) (a : Nat) :
    Memory.read ((k, v) :: m) a = if k = a then v else Memory.read m a := rfl

/-- A write leaves every other address alone, whatever the list. -/
theorem Memory.read_write_other (m : Memory) {a b : Nat} (v : Byte) (h : a ≠ b) :
    Memory.read (Memory.write m a v) b = Memory.read m b := by
  induction m with
  | nil => by_cases hv : v = unlistedByte <;> simp [Memory.write, Memory.read, hv, h]
  | cons e m ih =>
    obtain ⟨k, u⟩ := e
    simp only [Memory.write]
    split
    · split <;> simp [Memory.read, h]
    · split
      · next hk => subst hk; split <;> simp [Memory.read, h]
      · simp [Memory.read, ih]

/-- Below the first listed address, everything reads as unlisted. -/
theorem Memory.read_below {m : Memory} {n a : Nat} (hm : Memory.wfFrom n m = true) (h : a < n) :
    Memory.read m a = unlistedByte := by
  induction m generalizing n with
  | nil => rfl
  | cons e m ih =>
    obtain ⟨k, u⟩ := e
    simp only [Memory.wfFrom, Bool.and_eq_true, decide_eq_true_eq] at hm
    simp only [Memory.read]
    rw [if_neg (by omega)]
    exact ih hm.2 (by omega)

theorem Memory.wfFrom_mono {m : Memory} {n n' : Nat} (hm : Memory.wfFrom n m = true) (h : n' ≤ n) :
    Memory.wfFrom n' m = true := by
  cases m with
  | nil => rfl
  | cons e m =>
    obtain ⟨k, u⟩ := e
    simp only [Memory.wfFrom, Bool.and_eq_true, decide_eq_true_eq] at hm ⊢
    exact ⟨⟨⟨by omega, hm.1.1.2⟩, hm.1.2⟩, hm.2⟩

theorem Memory.read_write_same_from {m : Memory} {n a : Nat} (v : Byte)
    (hm : Memory.wfFrom n m = true) : Memory.read (Memory.write m a v) a = v := by
  induction m generalizing n with
  | nil => by_cases hv : v = unlistedByte <;> simp [Memory.write, Memory.read, hv]
  | cons e m ih =>
    obtain ⟨k, u⟩ := e
    simp only [Memory.wfFrom, Bool.and_eq_true, decide_eq_true_eq] at hm
    simp only [Memory.write]
    split
    · next hlt =>
      split
      · next hv =>
        simp only [Memory.read]
        rw [if_neg (by omega), Memory.read_below hm.2 (by omega), hv]
      · simp [Memory.read]
    · split
      · next hk =>
        subst hk
        split
        · next hv => rw [Memory.read_below hm.2 (by omega), hv]
        · simp [Memory.read]
      · next hk =>
        simp only [Memory.read]
        rw [if_neg (Ne.symm hk), ih hm.2]

/-- A read after a write to the same address gives the byte written. -/
theorem Memory.read_write_same {m : Memory} (a : Nat) (v : Byte) (hm : Memory.wf m = true) :
    Memory.read (Memory.write m a v) a = v := Memory.read_write_same_from v hm

theorem Memory.wfFrom_write {m : Memory} {n a : Nat} (v : Byte) (ha : a < 65536)
    (hn : n ≤ a) (hm : Memory.wfFrom n m = true) : Memory.wfFrom n (Memory.write m a v) = true := by
  induction m generalizing n with
  | nil =>
    by_cases hv : v = unlistedByte <;> simp [Memory.write, Memory.wfFrom, hv, hn, ha]
  | cons e m ih =>
    obtain ⟨k, u⟩ := e
    have hm' := hm
    simp only [Memory.wfFrom, Bool.and_eq_true, decide_eq_true_eq, bne_iff_ne] at hm
    simp only [Memory.write]
    split
    · next hlt =>
      split
      · exact hm'
      · next hv =>
        simp only [Memory.wfFrom, Bool.and_eq_true, decide_eq_true_eq, bne_iff_ne]
        exact ⟨⟨⟨hn, ha⟩, hv⟩, ⟨⟨by omega, hm.1.1.2⟩, hm.1.2⟩, hm.2⟩
    · split
      · next hk =>
        subst hk
        split
        · exact Memory.wfFrom_mono hm.2 (by omega)
        · next hv =>
          simp only [Memory.wfFrom, Bool.and_eq_true, decide_eq_true_eq, bne_iff_ne]
          exact ⟨⟨⟨hn, ha⟩, hv⟩, hm.2⟩
      · simp only [Memory.wfFrom, Bool.and_eq_true, decide_eq_true_eq, bne_iff_ne]
        exact ⟨hm.1, ih (by omega) hm.2⟩

/-- A write inside the address space keeps the canonical form. -/
theorem Memory.wf_write {m : Memory} {a : Nat} (v : Byte) (ha : a < 65536)
    (hm : Memory.wf m = true) : Memory.wf (Memory.write m a v) = true :=
  Memory.wfFrom_write v ha (Nat.zero_le a) hm

/-- In the canonical form, equal reads make equal memories. -/
theorem Memory.eq_of_reads {m m' : Memory} {n : Nat} (hm : Memory.wfFrom n m = true)
    (hm' : Memory.wfFrom n m' = true) (h : ∀ a, Memory.read m a = Memory.read m' a) : m = m' := by
  induction m generalizing n m' with
  | nil =>
    cases m' with
    | nil => rfl
    | cons e m' =>
      obtain ⟨k, u⟩ := e
      simp only [Memory.wfFrom, Bool.and_eq_true, bne_iff_ne] at hm'
      have := h k
      simp [Memory.read] at this
      exact absurd this.symm hm'.1.2
  | cons e m ih =>
    obtain ⟨k, u⟩ := e
    cases m' with
    | nil =>
      simp only [Memory.wfFrom, Bool.and_eq_true, bne_iff_ne] at hm
      have := h k
      simp [Memory.read] at this
      exact absurd this hm.1.2
    | cons e' m' =>
      obtain ⟨k', u'⟩ := e'
      simp only [Memory.wfFrom, Bool.and_eq_true, decide_eq_true_eq, bne_iff_ne] at hm hm'
      have hk : k = k' := by
        rcases Nat.lt_trichotomy k k' with hlt | heq | hgt
        · have := h k
          simp only [Memory.read, if_true] at this
          rw [if_neg (by omega), Memory.read_below hm'.2 (by omega)] at this
          exact absurd this hm.1.2
        · exact heq
        · have := h k'
          simp only [Memory.read, if_true] at this
          rw [if_neg (by omega), Memory.read_below hm.2 (by omega)] at this
          exact absurd this.symm hm'.1.2
      subst hk
      have hu : u = u' := by simpa [Memory.read] using h k
      subst hu
      have : m = m' := ih hm.2 hm'.2 fun a => by
        by_cases ha : k = a
        · subst ha
          rw [Memory.read_below hm.2 (by omega), Memory.read_below hm'.2 (by omega)]
        · simpa [Memory.read, ha] using h a
      rw [this]

end Sys2Proof.Machine
end

