-- ==== Sys2Proof/Laws/State.lean ====
section
/-! SUPPORT. Reading a field after an update of one field. -/

namespace Sys2Proof.Machine

@[simp] theorem State.setA_a (s : State) (v : Byte) : (s.setA v).a = v := rfl
@[simp] theorem State.setA_x (s : State) (v : Byte) : (s.setA v).x = s.x := rfl
@[simp] theorem State.setA_y (s : State) (v : Byte) : (s.setA v).y = s.y := rfl
@[simp] theorem State.setA_sp (s : State) (v : Byte) : (s.setA v).sp = s.sp := rfl
@[simp] theorem State.setA_p (s : State) (v : Byte) : (s.setA v).p = s.p := rfl
@[simp] theorem State.setA_pc (s : State) (v : Byte) : (s.setA v).pc = s.pc := rfl
@[simp] theorem State.setA_cyc (s : State) (v : Byte) : (s.setA v).cyc = s.cyc := rfl
@[simp] theorem State.setA_nmiPending (s : State) (v : Byte) : (s.setA v).nmiPending = s.nmiPending := rfl
@[simp] theorem State.setA_irqPending (s : State) (v : Byte) : (s.setA v).irqPending = s.irqPending := rfl
@[simp] theorem State.setA_mem (s : State) (v : Byte) : (s.setA v).mem = s.mem := rfl
@[simp] theorem State.setA_io (s : State) (v : Byte) : (s.setA v).io = s.io := rfl
@[simp] theorem State.setA_device (s : State) (v : Byte) : (s.setA v).device = s.device := rfl
@[simp] theorem State.setA_busLog (s : State) (v : Byte) : (s.setA v).busLog = s.busLog := rfl
@[simp] theorem State.setA_agenda (s : State) (v : Byte) : (s.setA v).agenda = s.agenda := rfl

@[simp] theorem State.setX_a (s : State) (v : Byte) : (s.setX v).a = s.a := rfl
@[simp] theorem State.setX_x (s : State) (v : Byte) : (s.setX v).x = v := rfl
@[simp] theorem State.setX_y (s : State) (v : Byte) : (s.setX v).y = s.y := rfl
@[simp] theorem State.setX_sp (s : State) (v : Byte) : (s.setX v).sp = s.sp := rfl
@[simp] theorem State.setX_p (s : State) (v : Byte) : (s.setX v).p = s.p := rfl
@[simp] theorem State.setX_pc (s : State) (v : Byte) : (s.setX v).pc = s.pc := rfl
@[simp] theorem State.setX_cyc (s : State) (v : Byte) : (s.setX v).cyc = s.cyc := rfl
@[simp] theorem State.setX_nmiPending (s : State) (v : Byte) : (s.setX v).nmiPending = s.nmiPending := rfl
@[simp] theorem State.setX_irqPending (s : State) (v : Byte) : (s.setX v).irqPending = s.irqPending := rfl
@[simp] theorem State.setX_mem (s : State) (v : Byte) : (s.setX v).mem = s.mem := rfl
@[simp] theorem State.setX_io (s : State) (v : Byte) : (s.setX v).io = s.io := rfl
@[simp] theorem State.setX_device (s : State) (v : Byte) : (s.setX v).device = s.device := rfl
@[simp] theorem State.setX_busLog (s : State) (v : Byte) : (s.setX v).busLog = s.busLog := rfl
@[simp] theorem State.setX_agenda (s : State) (v : Byte) : (s.setX v).agenda = s.agenda := rfl

@[simp] theorem State.setY_a (s : State) (v : Byte) : (s.setY v).a = s.a := rfl
@[simp] theorem State.setY_x (s : State) (v : Byte) : (s.setY v).x = s.x := rfl
@[simp] theorem State.setY_y (s : State) (v : Byte) : (s.setY v).y = v := rfl
@[simp] theorem State.setY_sp (s : State) (v : Byte) : (s.setY v).sp = s.sp := rfl
@[simp] theorem State.setY_p (s : State) (v : Byte) : (s.setY v).p = s.p := rfl
@[simp] theorem State.setY_pc (s : State) (v : Byte) : (s.setY v).pc = s.pc := rfl
@[simp] theorem State.setY_cyc (s : State) (v : Byte) : (s.setY v).cyc = s.cyc := rfl
@[simp] theorem State.setY_nmiPending (s : State) (v : Byte) : (s.setY v).nmiPending = s.nmiPending := rfl
@[simp] theorem State.setY_irqPending (s : State) (v : Byte) : (s.setY v).irqPending = s.irqPending := rfl
@[simp] theorem State.setY_mem (s : State) (v : Byte) : (s.setY v).mem = s.mem := rfl
@[simp] theorem State.setY_io (s : State) (v : Byte) : (s.setY v).io = s.io := rfl
@[simp] theorem State.setY_device (s : State) (v : Byte) : (s.setY v).device = s.device := rfl
@[simp] theorem State.setY_busLog (s : State) (v : Byte) : (s.setY v).busLog = s.busLog := rfl
@[simp] theorem State.setY_agenda (s : State) (v : Byte) : (s.setY v).agenda = s.agenda := rfl

@[simp] theorem State.setSp_a (s : State) (v : Byte) : (s.setSp v).a = s.a := rfl
@[simp] theorem State.setSp_x (s : State) (v : Byte) : (s.setSp v).x = s.x := rfl
@[simp] theorem State.setSp_y (s : State) (v : Byte) : (s.setSp v).y = s.y := rfl
@[simp] theorem State.setSp_sp (s : State) (v : Byte) : (s.setSp v).sp = v := rfl
@[simp] theorem State.setSp_p (s : State) (v : Byte) : (s.setSp v).p = s.p := rfl
@[simp] theorem State.setSp_pc (s : State) (v : Byte) : (s.setSp v).pc = s.pc := rfl
@[simp] theorem State.setSp_cyc (s : State) (v : Byte) : (s.setSp v).cyc = s.cyc := rfl
@[simp] theorem State.setSp_nmiPending (s : State) (v : Byte) : (s.setSp v).nmiPending = s.nmiPending := rfl
@[simp] theorem State.setSp_irqPending (s : State) (v : Byte) : (s.setSp v).irqPending = s.irqPending := rfl
@[simp] theorem State.setSp_mem (s : State) (v : Byte) : (s.setSp v).mem = s.mem := rfl
@[simp] theorem State.setSp_io (s : State) (v : Byte) : (s.setSp v).io = s.io := rfl
@[simp] theorem State.setSp_device (s : State) (v : Byte) : (s.setSp v).device = s.device := rfl
@[simp] theorem State.setSp_busLog (s : State) (v : Byte) : (s.setSp v).busLog = s.busLog := rfl
@[simp] theorem State.setSp_agenda (s : State) (v : Byte) : (s.setSp v).agenda = s.agenda := rfl

@[simp] theorem State.setP_a (s : State) (v : Byte) : (s.setP v).a = s.a := rfl
@[simp] theorem State.setP_x (s : State) (v : Byte) : (s.setP v).x = s.x := rfl
@[simp] theorem State.setP_y (s : State) (v : Byte) : (s.setP v).y = s.y := rfl
@[simp] theorem State.setP_sp (s : State) (v : Byte) : (s.setP v).sp = s.sp := rfl
@[simp] theorem State.setP_p (s : State) (v : Byte) : (s.setP v).p = v := rfl
@[simp] theorem State.setP_pc (s : State) (v : Byte) : (s.setP v).pc = s.pc := rfl
@[simp] theorem State.setP_cyc (s : State) (v : Byte) : (s.setP v).cyc = s.cyc := rfl
@[simp] theorem State.setP_nmiPending (s : State) (v : Byte) : (s.setP v).nmiPending = s.nmiPending := rfl
@[simp] theorem State.setP_irqPending (s : State) (v : Byte) : (s.setP v).irqPending = s.irqPending := rfl
@[simp] theorem State.setP_mem (s : State) (v : Byte) : (s.setP v).mem = s.mem := rfl
@[simp] theorem State.setP_io (s : State) (v : Byte) : (s.setP v).io = s.io := rfl
@[simp] theorem State.setP_device (s : State) (v : Byte) : (s.setP v).device = s.device := rfl
@[simp] theorem State.setP_busLog (s : State) (v : Byte) : (s.setP v).busLog = s.busLog := rfl
@[simp] theorem State.setP_agenda (s : State) (v : Byte) : (s.setP v).agenda = s.agenda := rfl

@[simp] theorem State.setPc_a (s : State) (v : Word) : (s.setPc v).a = s.a := rfl
@[simp] theorem State.setPc_x (s : State) (v : Word) : (s.setPc v).x = s.x := rfl
@[simp] theorem State.setPc_y (s : State) (v : Word) : (s.setPc v).y = s.y := rfl
@[simp] theorem State.setPc_sp (s : State) (v : Word) : (s.setPc v).sp = s.sp := rfl
@[simp] theorem State.setPc_p (s : State) (v : Word) : (s.setPc v).p = s.p := rfl
@[simp] theorem State.setPc_pc (s : State) (v : Word) : (s.setPc v).pc = v := rfl
@[simp] theorem State.setPc_cyc (s : State) (v : Word) : (s.setPc v).cyc = s.cyc := rfl
@[simp] theorem State.setPc_nmiPending (s : State) (v : Word) : (s.setPc v).nmiPending = s.nmiPending := rfl
@[simp] theorem State.setPc_irqPending (s : State) (v : Word) : (s.setPc v).irqPending = s.irqPending := rfl
@[simp] theorem State.setPc_mem (s : State) (v : Word) : (s.setPc v).mem = s.mem := rfl
@[simp] theorem State.setPc_io (s : State) (v : Word) : (s.setPc v).io = s.io := rfl
@[simp] theorem State.setPc_device (s : State) (v : Word) : (s.setPc v).device = s.device := rfl
@[simp] theorem State.setPc_busLog (s : State) (v : Word) : (s.setPc v).busLog = s.busLog := rfl
@[simp] theorem State.setPc_agenda (s : State) (v : Word) : (s.setPc v).agenda = s.agenda := rfl

@[simp] theorem State.setCyc_a (s : State) (v : Int) : (s.setCyc v).a = s.a := rfl
@[simp] theorem State.setCyc_x (s : State) (v : Int) : (s.setCyc v).x = s.x := rfl
@[simp] theorem State.setCyc_y (s : State) (v : Int) : (s.setCyc v).y = s.y := rfl
@[simp] theorem State.setCyc_sp (s : State) (v : Int) : (s.setCyc v).sp = s.sp := rfl
@[simp] theorem State.setCyc_p (s : State) (v : Int) : (s.setCyc v).p = s.p := rfl
@[simp] theorem State.setCyc_pc (s : State) (v : Int) : (s.setCyc v).pc = s.pc := rfl
@[simp] theorem State.setCyc_cyc (s : State) (v : Int) : (s.setCyc v).cyc = v := rfl
@[simp] theorem State.setCyc_nmiPending (s : State) (v : Int) : (s.setCyc v).nmiPending = s.nmiPending := rfl
@[simp] theorem State.setCyc_irqPending (s : State) (v : Int) : (s.setCyc v).irqPending = s.irqPending := rfl
@[simp] theorem State.setCyc_mem (s : State) (v : Int) : (s.setCyc v).mem = s.mem := rfl
@[simp] theorem State.setCyc_io (s : State) (v : Int) : (s.setCyc v).io = s.io := rfl
@[simp] theorem State.setCyc_device (s : State) (v : Int) : (s.setCyc v).device = s.device := rfl
@[simp] theorem State.setCyc_busLog (s : State) (v : Int) : (s.setCyc v).busLog = s.busLog := rfl
@[simp] theorem State.setCyc_agenda (s : State) (v : Int) : (s.setCyc v).agenda = s.agenda := rfl

@[simp] theorem State.setNmi_a (s : State) (v : Bool) : (s.setNmi v).a = s.a := rfl
@[simp] theorem State.setNmi_x (s : State) (v : Bool) : (s.setNmi v).x = s.x := rfl
@[simp] theorem State.setNmi_y (s : State) (v : Bool) : (s.setNmi v).y = s.y := rfl
@[simp] theorem State.setNmi_sp (s : State) (v : Bool) : (s.setNmi v).sp = s.sp := rfl
@[simp] theorem State.setNmi_p (s : State) (v : Bool) : (s.setNmi v).p = s.p := rfl
@[simp] theorem State.setNmi_pc (s : State) (v : Bool) : (s.setNmi v).pc = s.pc := rfl
@[simp] theorem State.setNmi_cyc (s : State) (v : Bool) : (s.setNmi v).cyc = s.cyc := rfl
@[simp] theorem State.setNmi_nmiPending (s : State) (v : Bool) : (s.setNmi v).nmiPending = v := rfl
@[simp] theorem State.setNmi_irqPending (s : State) (v : Bool) : (s.setNmi v).irqPending = s.irqPending := rfl
@[simp] theorem State.setNmi_mem (s : State) (v : Bool) : (s.setNmi v).mem = s.mem := rfl
@[simp] theorem State.setNmi_io (s : State) (v : Bool) : (s.setNmi v).io = s.io := rfl
@[simp] theorem State.setNmi_device (s : State) (v : Bool) : (s.setNmi v).device = s.device := rfl
@[simp] theorem State.setNmi_busLog (s : State) (v : Bool) : (s.setNmi v).busLog = s.busLog := rfl
@[simp] theorem State.setNmi_agenda (s : State) (v : Bool) : (s.setNmi v).agenda = s.agenda := rfl

@[simp] theorem State.setIrq_a (s : State) (v : Bool) : (s.setIrq v).a = s.a := rfl
@[simp] theorem State.setIrq_x (s : State) (v : Bool) : (s.setIrq v).x = s.x := rfl
@[simp] theorem State.setIrq_y (s : State) (v : Bool) : (s.setIrq v).y = s.y := rfl
@[simp] theorem State.setIrq_sp (s : State) (v : Bool) : (s.setIrq v).sp = s.sp := rfl
@[simp] theorem State.setIrq_p (s : State) (v : Bool) : (s.setIrq v).p = s.p := rfl
@[simp] theorem State.setIrq_pc (s : State) (v : Bool) : (s.setIrq v).pc = s.pc := rfl
@[simp] theorem State.setIrq_cyc (s : State) (v : Bool) : (s.setIrq v).cyc = s.cyc := rfl
@[simp] theorem State.setIrq_nmiPending (s : State) (v : Bool) : (s.setIrq v).nmiPending = s.nmiPending := rfl
@[simp] theorem State.setIrq_irqPending (s : State) (v : Bool) : (s.setIrq v).irqPending = v := rfl
@[simp] theorem State.setIrq_mem (s : State) (v : Bool) : (s.setIrq v).mem = s.mem := rfl
@[simp] theorem State.setIrq_io (s : State) (v : Bool) : (s.setIrq v).io = s.io := rfl
@[simp] theorem State.setIrq_device (s : State) (v : Bool) : (s.setIrq v).device = s.device := rfl
@[simp] theorem State.setIrq_busLog (s : State) (v : Bool) : (s.setIrq v).busLog = s.busLog := rfl
@[simp] theorem State.setIrq_agenda (s : State) (v : Bool) : (s.setIrq v).agenda = s.agenda := rfl

@[simp] theorem State.setMem_a (s : State) (v : Memory) : (s.setMem v).a = s.a := rfl
@[simp] theorem State.setMem_x (s : State) (v : Memory) : (s.setMem v).x = s.x := rfl
@[simp] theorem State.setMem_y (s : State) (v : Memory) : (s.setMem v).y = s.y := rfl
@[simp] theorem State.setMem_sp (s : State) (v : Memory) : (s.setMem v).sp = s.sp := rfl
@[simp] theorem State.setMem_p (s : State) (v : Memory) : (s.setMem v).p = s.p := rfl
@[simp] theorem State.setMem_pc (s : State) (v : Memory) : (s.setMem v).pc = s.pc := rfl
@[simp] theorem State.setMem_cyc (s : State) (v : Memory) : (s.setMem v).cyc = s.cyc := rfl
@[simp] theorem State.setMem_nmiPending (s : State) (v : Memory) : (s.setMem v).nmiPending = s.nmiPending := rfl
@[simp] theorem State.setMem_irqPending (s : State) (v : Memory) : (s.setMem v).irqPending = s.irqPending := rfl
@[simp] theorem State.setMem_mem (s : State) (v : Memory) : (s.setMem v).mem = v := rfl
@[simp] theorem State.setMem_io (s : State) (v : Memory) : (s.setMem v).io = s.io := rfl
@[simp] theorem State.setMem_device (s : State) (v : Memory) : (s.setMem v).device = s.device := rfl
@[simp] theorem State.setMem_busLog (s : State) (v : Memory) : (s.setMem v).busLog = s.busLog := rfl
@[simp] theorem State.setMem_agenda (s : State) (v : Memory) : (s.setMem v).agenda = s.agenda := rfl

@[simp] theorem State.setDevice_a (s : State) (v : Nat) : (s.setDevice v).a = s.a := rfl
@[simp] theorem State.setDevice_x (s : State) (v : Nat) : (s.setDevice v).x = s.x := rfl
@[simp] theorem State.setDevice_y (s : State) (v : Nat) : (s.setDevice v).y = s.y := rfl
@[simp] theorem State.setDevice_sp (s : State) (v : Nat) : (s.setDevice v).sp = s.sp := rfl
@[simp] theorem State.setDevice_p (s : State) (v : Nat) : (s.setDevice v).p = s.p := rfl
@[simp] theorem State.setDevice_pc (s : State) (v : Nat) : (s.setDevice v).pc = s.pc := rfl
@[simp] theorem State.setDevice_cyc (s : State) (v : Nat) : (s.setDevice v).cyc = s.cyc := rfl
@[simp] theorem State.setDevice_nmiPending (s : State) (v : Nat) : (s.setDevice v).nmiPending = s.nmiPending := rfl
@[simp] theorem State.setDevice_irqPending (s : State) (v : Nat) : (s.setDevice v).irqPending = s.irqPending := rfl
@[simp] theorem State.setDevice_mem (s : State) (v : Nat) : (s.setDevice v).mem = s.mem := rfl
@[simp] theorem State.setDevice_io (s : State) (v : Nat) : (s.setDevice v).io = s.io := rfl
@[simp] theorem State.setDevice_device (s : State) (v : Nat) : (s.setDevice v).device = v := rfl
@[simp] theorem State.setDevice_busLog (s : State) (v : Nat) : (s.setDevice v).busLog = s.busLog := rfl
@[simp] theorem State.setDevice_agenda (s : State) (v : Nat) : (s.setDevice v).agenda = s.agenda := rfl

@[simp] theorem State.setBusLog_a (s : State) (v : List BusCall) : (s.setBusLog v).a = s.a := rfl
@[simp] theorem State.setBusLog_x (s : State) (v : List BusCall) : (s.setBusLog v).x = s.x := rfl
@[simp] theorem State.setBusLog_y (s : State) (v : List BusCall) : (s.setBusLog v).y = s.y := rfl
@[simp] theorem State.setBusLog_sp (s : State) (v : List BusCall) : (s.setBusLog v).sp = s.sp := rfl
@[simp] theorem State.setBusLog_p (s : State) (v : List BusCall) : (s.setBusLog v).p = s.p := rfl
@[simp] theorem State.setBusLog_pc (s : State) (v : List BusCall) : (s.setBusLog v).pc = s.pc := rfl
@[simp] theorem State.setBusLog_cyc (s : State) (v : List BusCall) : (s.setBusLog v).cyc = s.cyc := rfl
@[simp] theorem State.setBusLog_nmiPending (s : State) (v : List BusCall) : (s.setBusLog v).nmiPending = s.nmiPending := rfl
@[simp] theorem State.setBusLog_irqPending (s : State) (v : List BusCall) : (s.setBusLog v).irqPending = s.irqPending := rfl
@[simp] theorem State.setBusLog_mem (s : State) (v : List BusCall) : (s.setBusLog v).mem = s.mem := rfl
@[simp] theorem State.setBusLog_io (s : State) (v : List BusCall) : (s.setBusLog v).io = s.io := rfl
@[simp] theorem State.setBusLog_device (s : State) (v : List BusCall) : (s.setBusLog v).device = s.device := rfl
@[simp] theorem State.setBusLog_busLog (s : State) (v : List BusCall) : (s.setBusLog v).busLog = v := rfl
@[simp] theorem State.setBusLog_agenda (s : State) (v : List BusCall) : (s.setBusLog v).agenda = s.agenda := rfl

@[simp] theorem State.setAgenda_a (s : State) (v : List (List HostCall)) : (s.setAgenda v).a = s.a := rfl
@[simp] theorem State.setAgenda_x (s : State) (v : List (List HostCall)) : (s.setAgenda v).x = s.x := rfl
@[simp] theorem State.setAgenda_y (s : State) (v : List (List HostCall)) : (s.setAgenda v).y = s.y := rfl
@[simp] theorem State.setAgenda_sp (s : State) (v : List (List HostCall)) : (s.setAgenda v).sp = s.sp := rfl
@[simp] theorem State.setAgenda_p (s : State) (v : List (List HostCall)) : (s.setAgenda v).p = s.p := rfl
@[simp] theorem State.setAgenda_pc (s : State) (v : List (List HostCall)) : (s.setAgenda v).pc = s.pc := rfl
@[simp] theorem State.setAgenda_cyc (s : State) (v : List (List HostCall)) : (s.setAgenda v).cyc = s.cyc := rfl
@[simp] theorem State.setAgenda_nmiPending (s : State) (v : List (List HostCall)) : (s.setAgenda v).nmiPending = s.nmiPending := rfl
@[simp] theorem State.setAgenda_irqPending (s : State) (v : List (List HostCall)) : (s.setAgenda v).irqPending = s.irqPending := rfl
@[simp] theorem State.setAgenda_mem (s : State) (v : List (List HostCall)) : (s.setAgenda v).mem = s.mem := rfl
@[simp] theorem State.setAgenda_io (s : State) (v : List (List HostCall)) : (s.setAgenda v).io = s.io := rfl
@[simp] theorem State.setAgenda_device (s : State) (v : List (List HostCall)) : (s.setAgenda v).device = s.device := rfl
@[simp] theorem State.setAgenda_busLog (s : State) (v : List (List HostCall)) : (s.setAgenda v).busLog = s.busLog := rfl
@[simp] theorem State.setAgenda_agenda (s : State) (v : List (List HostCall)) : (s.setAgenda v).agenda = v := rfl

/-- Two states with equal fields are equal. -/
theorem State.ext_fields {s t : State} (ha : s.a = t.a) (hx : s.x = t.x) (hy : s.y = t.y)
    (hsp : s.sp = t.sp) (hp : s.p = t.p) (hpc : s.pc = t.pc) (hcyc : s.cyc = t.cyc)
    (hn : s.nmiPending = t.nmiPending) (hi : s.irqPending = t.irqPending) (hm : s.mem = t.mem)
    (hio : s.io = t.io) (hr : s.device = t.device) (hb : s.busLog = t.busLog)
    (hg : s.agenda = t.agenda) : s = t := by
  cases s
  cases t
  simp_all

end Sys2Proof.Machine
end

