-- ==== Sys2Proof/Laws/Bus.lean ====
section
/-! SUPPORT. The two bus calls, and sequences of bus calls: what they keep, what they change, how
they compose. -/

namespace Sys2Proof.Machine

/-! ### Windows -/

/-- The windows decide which addresses are devices. -/
theorem isDevice_congr {s t : State} (h : t.io = s.io) (a : Word) : isDevice t a = isDevice s a := by
  simp only [isDevice, inWindow, h]

/-- The windows decide which bytes are shared. -/
theorem isShared_congr {s t : State} (h : t.io = s.io) (a : Word) : isShared t a = isShared s a := by
  simp only [isShared, inWindow, h]

/-- Memory decides what a byte of RAM is. -/
theorem byteAt_congr {s t : State} (h : t.mem = s.mem) (a : Word) : byteAt t a = byteAt s a := by
  simp only [byteAt, h]

theorem busAnswer_ram {s : State} {a : Word} (h : isDevice s a = false) :
    busAnswer a s = byteAt s a := by
  simp [busAnswer, h]

/-! ### What devices do to RAM -/

theorem deviceStores_wf (s : State) (ws : List (Word × Byte)) {m : Memory}
    (hm : Memory.wf m = true) : Memory.wf (deviceStores s ws m) = true := by
  induction ws generalizing m with
  | nil => exact hm
  | cons w rest ih =>
    obtain ⟨a, v⟩ := w
    simp only [deviceStores]
    split
    · exact ih (Memory.wf_write v (by have := a.isLt; omega) hm)
    · exact ih hm

/-- Devices change shared bytes only (20_memory.md R58). -/
theorem deviceStores_other (s : State) (ws : List (Word × Byte)) (m : Memory) {b : Word}
    (h : isShared s b = false) : Memory.read (deviceStores s ws m) b.toNat = Memory.read m b.toNat := by
  induction ws generalizing m with
  | nil => rfl
  | cons w rest ih =>
    obtain ⟨a, v⟩ := w
    simp only [deviceStores]
    rw [ih]
    split
    · rename_i ha
      refine Memory.read_write_other _ _ fun he => ?_
      rw [BitVec.eq_of_toNat_eq he] at ha
      exact Bool.false_ne_true (h.symm.trans ha)
    · rfl

theorem deviceStores_congr {s t : State} (h : t.io = s.io) (ws : List (Word × Byte)) (m : Memory) :
    deviceStores t ws m = deviceStores s ws m := by
  induction ws generalizing m with
  | nil => rfl
  | cons w rest ih =>
    obtain ⟨a, v⟩ := w
    simp only [deviceStores, isShared_congr h, ih]

/-! ### One bus call -/

/-- What devices do keeps everything but their state and shared RAM. -/
@[simp] theorem deviceCall_kept (a : Word) (w : Option Byte) (s : State) :
    (deviceCall a w s).a = s.a ∧ (deviceCall a w s).x = s.x ∧ (deviceCall a w s).y = s.y ∧
      (deviceCall a w s).sp = s.sp ∧ (deviceCall a w s).p = s.p ∧ (deviceCall a w s).pc = s.pc ∧
      (deviceCall a w s).cyc = s.cyc ∧ (deviceCall a w s).nmiPending = s.nmiPending ∧
      (deviceCall a w s).irqPending = s.irqPending ∧ (deviceCall a w s).io = s.io ∧
      (deviceCall a w s).busLog = s.busLog ∧ (deviceCall a w s).agenda = s.agenda := by
  unfold deviceCall
  split <;> simp

theorem deviceCall_mem (a : Word) (w : Option Byte) (s : State) :
    (deviceCall a w s).mem =
      if isDevice s a then deviceStores s (Config.deviceWrites s.device s.mem a w) s.mem else s.mem := by
  unfold deviceCall
  split <;> rfl

theorem deviceCall_device (a : Word) (w : Option Byte) (s : State) :
    (deviceCall a w s).device =
      if isDevice s a then Config.deviceAfter s.device s.mem a w else s.device := by
  unfold deviceCall
  split <;> rfl

/-- A bus read keeps everything but the bus log, the devices' state and shared RAM. -/
@[simp] theorem busRead_kept (a : Word) (s : State) :
    (busRead a s).2.a = s.a ∧ (busRead a s).2.x = s.x ∧ (busRead a s).2.y = s.y ∧
      (busRead a s).2.sp = s.sp ∧ (busRead a s).2.p = s.p ∧ (busRead a s).2.pc = s.pc ∧
      (busRead a s).2.cyc = s.cyc ∧ (busRead a s).2.nmiPending = s.nmiPending ∧
      (busRead a s).2.irqPending = s.irqPending ∧ (busRead a s).2.io = s.io ∧
      (busRead a s).2.agenda = s.agenda := by
  simp [busRead]

@[simp] theorem busRead_fst (a : Word) (s : State) : (busRead a s).1 = busAnswer a s := rfl

@[simp] theorem busRead_busLog (a : Word) (s : State) :
    (busRead a s).2.busLog = s.busLog ++ [.read a (busAnswer a s)] := by
  simp [busRead]

theorem busRead_mem (a : Word) (s : State) :
    (busRead a s).2.mem =
      if isDevice s a then deviceStores s (Config.deviceWrites s.device s.mem a none) s.mem else s.mem := by
  simp only [busRead, deviceCall_mem, isDevice_congr (s := s) (State.setBusLog_io s _),
    deviceStores_congr (s := s) (State.setBusLog_io s _), State.setBusLog_mem, State.setBusLog_device]

theorem busRead_device (a : Word) (s : State) :
    (busRead a s).2.device =
      if isDevice s a then Config.deviceAfter s.device s.mem a none else s.device := by
  simp only [busRead, deviceCall_device, isDevice_congr (s := s) (State.setBusLog_io s _),
    State.setBusLog_mem, State.setBusLog_device]

/-- A bus write keeps everything but memory, the bus log and the devices' state. -/
@[simp] theorem busWrite_kept (a : Word) (v : Byte) (s : State) :
    (busWrite a v s).a = s.a ∧ (busWrite a v s).x = s.x ∧ (busWrite a v s).y = s.y ∧
      (busWrite a v s).sp = s.sp ∧ (busWrite a v s).p = s.p ∧ (busWrite a v s).pc = s.pc ∧
      (busWrite a v s).cyc = s.cyc ∧ (busWrite a v s).nmiPending = s.nmiPending ∧
      (busWrite a v s).irqPending = s.irqPending ∧ (busWrite a v s).io = s.io ∧
      (busWrite a v s).agenda = s.agenda := by
  simp [busWrite]

@[simp] theorem busWrite_busLog (a : Word) (v : Byte) (s : State) :
    (busWrite a v s).busLog = s.busLog ++ [.write a v] := by
  simp [busWrite]

theorem busWrite_mem (a : Word) (v : Byte) (s : State) :
    (busWrite a v s).mem =
      if isDevice s a then deviceStores s (Config.deviceWrites s.device s.mem a (some v)) s.mem
      else Memory.write s.mem a.toNat v := by
  have hio : ∀ m, ((s.setBusLog (s.busLog ++ [.write a v])).setMem m).io = s.io := fun m => by simp
  simp only [busWrite, deviceCall_mem, isDevice_congr (hio _), deviceStores_congr (hio _),
    State.setMem_mem, State.setMem_device, State.setBusLog_device]
  split <;> rfl

theorem busWrite_device (a : Word) (v : Byte) (s : State) :
    (busWrite a v s).device =
      if isDevice s a then Config.deviceAfter s.device s.mem a (some v) else s.device := by
  have hio : ∀ m, ((s.setBusLog (s.busLog ++ [.write a v])).setMem m).io = s.io := fun m => by simp
  simp only [busWrite, deviceCall_device, isDevice_congr (hio _), State.setMem_mem,
    State.setMem_device, State.setBusLog_device]
  split <;> rfl

/-- A bus read leaves every byte of RAM alone that no device shares. -/
theorem byteAt_busRead (a : Word) (s : State) {b : Word} (h : isShared s b = false) :
    byteAt (busRead a s).2 b = byteAt s b := by
  simp only [byteAt, busRead_mem]
  split
  · exact deviceStores_other s _ _ h
  · rfl

/-- A bus write leaves every other byte of RAM alone that no device shares. -/
theorem byteAt_busWrite_other (s : State) {a b : Word} (v : Byte) (hab : a ≠ b)
    (h : isShared s b = false) : byteAt (busWrite a v s) b = byteAt s b := by
  simp only [byteAt, busWrite_mem]
  split
  · exact deviceStores_other s _ _ h
  · exact Memory.read_write_other _ _ fun he => hab (BitVec.eq_of_toNat_eq he)

/-- A bus write to RAM is read back (20_memory.md R55). -/
theorem byteAt_busWrite_same {s : State} {a : Word} (v : Byte) (hm : Memory.wf s.mem = true)
    (hd : isDevice s a = false) : byteAt (busWrite a v s) a = v := by
  simp only [byteAt, busWrite_mem, hd, Bool.false_eq_true, if_false]
  exact Memory.read_write_same _ _ hm

theorem busRead_wf {s : State} (a : Word) (hm : Memory.wf s.mem = true) :
    Memory.wf (busRead a s).2.mem = true := by
  rw [busRead_mem]
  split
  · exact deviceStores_wf s _ hm
  · exact hm

theorem busWrite_wf {s : State} (a : Word) (v : Byte) (hm : Memory.wf s.mem = true) :
    Memory.wf (busWrite a v s).mem = true := by
  rw [busWrite_mem]
  split
  · exact deviceStores_wf s _ hm
  · exact Memory.wf_write _ (by have := a.isLt; omega) hm

/-- A bus read of RAM, whole: one entry of the bus log (20_memory.md R62). -/
theorem busRead_eq_of_ram {s : State} {a : Word} (h : isDevice s a = false) :
    busRead a s = (byteAt s a, s.setBusLog (s.busLog ++ [.read a (byteAt s a)])) := by
  have hd : ∀ l, isDevice (s.setBusLog l) a = false := fun _ => h
  simp only [busRead, deviceCall, busAnswer_ram h, hd, Bool.false_eq_true, if_false]

/-- A bus write to RAM, whole: the byte and one entry of the bus log (20_memory.md R62). -/
theorem busWrite_eq_of_ram {s : State} {a : Word} (v : Byte) (h : isDevice s a = false) :
    busWrite a v s =
      (s.setBusLog (s.busLog ++ [.write a v])).setMem (Memory.write s.mem a.toNat v) := by
  have hd : ∀ l m, isDevice ((s.setBusLog l).setMem m) a = false := fun _ _ => h
  simp only [busWrite, deviceCall, h, hd, Bool.false_eq_true, if_false]

/-- A read of RAM leaves the bus as it was (20_memory.md R62). -/
theorem busRead_ram {s : State} {a : Word} (h : isDevice s a = false) :
    SameBus s (busRead a s).2 :=
  ⟨by simp [busRead_mem, h], by simp [busRead_device, h], by simp⟩

/-! ### The same bus -/

theorem SameBus.refl (s : State) : SameBus s s := ⟨rfl, rfl, rfl⟩

theorem SameBus.symm {s t : State} (h : SameBus s t) : SameBus t s :=
  ⟨h.mem.symm, h.device.symm, h.io.symm⟩

theorem SameBus.trans {s t u : State} (h : SameBus s t) (h' : SameBus t u) : SameBus s u :=
  ⟨h'.mem.trans h.mem, h'.device.trans h.device, h'.io.trans h.io⟩

theorem SameBus.answer {s t : State} (h : SameBus s t) (a : Word) : busAnswer a t = busAnswer a s := by
  simp only [busAnswer, isDevice_congr h.io, byteAt_congr h.mem, h.mem, h.device]

theorem SameBus.read {s t : State} (h : SameBus s t) (a : Word) :
    SameBus (busRead a s).2 (busRead a t).2 :=
  ⟨by simp only [busRead_mem, isDevice_congr h.io, h.mem, h.device, deviceStores_congr h.io],
   by simp only [busRead_device, isDevice_congr h.io, h.mem, h.device], by simp [h.io]⟩

theorem SameBus.write {s t : State} (h : SameBus s t) (a : Word) (v : Byte) :
    SameBus (busWrite a v s) (busWrite a v t) :=
  ⟨by simp only [busWrite_mem, isDevice_congr h.io, h.mem, h.device, deviceStores_congr h.io],
   by simp only [busWrite_device, isDevice_congr h.io, h.mem, h.device], by simp [h.io]⟩

/-! ### Sequences of bus calls -/

/-- A run is about the bus alone: it may start and end in states with the same bus. -/
theorem BusRun.congr {calls : List BusCall} {s s' t t' : State} (h : BusRun calls s t)
    (hs : SameBus s s') (ht : SameBus t t') : BusRun calls s' t' := by
  induction calls generalizing s s' with
  | nil => exact hs.symm.trans (SameBus.trans h ht)
  | cons c rest ih =>
    cases c with
    | read a v => exact ⟨h.1.trans (hs.answer a).symm, ih h.2 (hs.read a)⟩
    | write a v => exact ih (s := busWrite a v s) h (hs.write a v)

theorem BusRun.append {c c' : List BusCall} {s t u : State} (h : BusRun c s t)
    (h' : BusRun c' t u) : BusRun (c ++ c') s u := by
  induction c generalizing s with
  | nil => exact h'.congr h.symm (SameBus.refl u)
  | cons d rest ih =>
    cases d with
    | read a v => exact ⟨h.1, ih h.2⟩
    | write a v => exact ih (s := busWrite a v s) h

theorem BusRun.io {calls : List BusCall} {s t : State} (h : BusRun calls s t) : t.io = s.io := by
  induction calls generalizing s with
  | nil => exact SameBus.io h
  | cons c rest ih =>
    cases c with
    | read a v => exact (ih h.2).trans (by simp)
    | write a v => exact (ih (s := busWrite a v s) h).trans (by simp)

theorem BusRun.wf {calls : List BusCall} {s t : State} (h : BusRun calls s t)
    (hm : Memory.wf s.mem = true) : Memory.wf t.mem = true := by
  induction calls generalizing s with
  | nil => rw [SameBus.mem h]; exact hm
  | cons c rest ih =>
    cases c with
    | read a v => exact ih h.2 (busRead_wf a hm)
    | write a v => exact ih (s := busWrite a v s) h (busWrite_wf a v hm)

/-- A byte no call writes and no device shares is as before. -/
theorem BusRun.byteAt {calls : List BusCall} {s t : State} (h : BusRun calls s t) {b : Word}
    (hw : ∀ v, .write b v ∉ calls) (hb : isShared s b = false) :
    byteAt t b = Machine.byteAt s b := by
  induction calls generalizing s with
  | nil => exact byteAt_congr (SameBus.mem h) b
  | cons c rest ih =>
    have hr : ∀ v, .write b v ∉ rest := fun v hv => hw v (List.mem_cons_of_mem _ hv)
    cases c with
    | read a v =>
      exact (ih h.2 hr (by rw [isShared_congr (s := s) (by simp)]; exact hb)).trans
        (byteAt_busRead a s hb)
    | write a v =>
      have hab : a ≠ b := fun e => hw v (by rw [e]; exact List.mem_cons_self ..)
      exact (ih (s := busWrite a v s) h hr (by rw [isShared_congr (s := s) (by simp)]; exact hb)).trans
        (byteAt_busWrite_other s v hab hb)

/-- Where no device answers, the devices stay as they are, and so does every byte no call writes,
shared or not. -/
theorem BusRun.noDevice {calls : List BusCall} {s t : State} (h : BusRun calls s t)
    (hd : NoDevice s calls) :
    t.device = s.device ∧ ∀ b, (∀ v, .write b v ∉ calls) → Machine.byteAt t b = Machine.byteAt s b := by
  induction calls generalizing s with
  | nil => exact ⟨SameBus.device h, fun b _ => byteAt_congr (SameBus.mem h) b⟩
  | cons c rest ih =>
    have hc : isDevice s c.addr = false := hd c (List.mem_cons_self ..)
    have hrest : ∀ u : State, u.io = s.io → NoDevice u rest := fun u hu d hdm =>
      (isDevice_congr hu d.addr).trans (hd d (List.mem_cons_of_mem _ hdm))
    have hr : ∀ {b : Word}, (∀ v, .write b v ∉ c :: rest) → ∀ v, .write b v ∉ rest :=
      fun hw v hv => hw v (List.mem_cons_of_mem _ hv)
    cases c with
    | read a v =>
      have hs := busRead_ram (s := s) (a := a) hc
      obtain ⟨h1, h2⟩ := ih h.2 (hrest _ (by simp))
      exact ⟨h1.trans hs.device, fun b hw => (h2 b (hr hw)).trans (byteAt_congr hs.mem b)⟩
    | write a v =>
      have hc' : isDevice s a = false := hc
      obtain ⟨h1, h2⟩ := ih (s := busWrite a v s) h (hrest _ (by simp))
      refine ⟨h1.trans (by simp [busWrite_device, hc']), fun b hw => (h2 b (hr hw)).trans ?_⟩
      have hab : a ≠ b := fun e => hw v (by rw [e]; exact List.mem_cons_self ..)
      simp only [Machine.byteAt, busWrite_mem, hc', Bool.false_eq_true, if_false]
      exact Memory.read_write_other _ _ fun he => hab (BitVec.eq_of_toNat_eq he)

/-- Reads alone, none answered by a device, leave the bus as it was. -/
theorem BusRun.sameBus {calls : List BusCall} {s t : State} (h : BusRun calls s t)
    (hr : ∀ c ∈ calls, c.isRead = true) (hd : NoDevice s calls) : SameBus s t := by
  induction calls generalizing s with
  | nil => exact h
  | cons c rest ih =>
    cases c with
    | write a v => exact absurd (hr _ (List.mem_cons_self ..)) Bool.false_ne_true
    | read a v =>
      have ha : isDevice s a = false := hd _ (List.mem_cons_self ..)
      exact (busRead_ram ha).trans (ih h.2 (fun c hc => hr c (List.mem_cons_of_mem _ hc)) fun c hc =>
        (isDevice_congr (by simp) _).trans (hd c (List.mem_cons_of_mem _ hc)))

/-- A byte no call writes is as before, unless a device answers a call and shares that byte. -/
theorem BusRun.kept {calls : List BusCall} {s t : State} (h : BusRun calls s t) {b : Word}
    (hw : ∀ v, .write b v ∉ calls) (hb : isShared s b = false ∨ NoDevice s calls) :
    Machine.byteAt t b = Machine.byteAt s b :=
  hb.elim (h.byteAt hw) fun hd => (h.noDevice hd).2 b hw

/-- A run stops between any two of its calls. -/
theorem BusRun.split {c c' : List BusCall} {s u : State} (h : BusRun (c ++ c') s u) :
    ∃ t, BusRun c s t ∧ BusRun c' t u := by
  induction c generalizing s with
  | nil => exact ⟨s, SameBus.refl s, h⟩
  | cons d rest ih =>
    cases d with
    | read a v =>
      obtain ⟨t, h1, h2⟩ := ih h.2
      exact ⟨t, ⟨h.1, h1⟩, h2⟩
    | write a v =>
      obtain ⟨t, h1, h2⟩ := ih (s := busWrite a v s) h
      exact ⟨t, h1, h2⟩

/-- The windows decide which calls no device answers. -/
theorem NoDevice.congr {calls : List BusCall} {s t : State} (h : NoDevice s calls)
    (hio : t.io = s.io) : NoDevice t calls := fun c hc => (isDevice_congr hio _).trans (h c hc)

/-- A byte written to RAM is there at the end, if no later call writes it and no device that answers
one shares it. -/
theorem BusRun.stored {pre post : List BusCall} {a : Word} {v : Byte} {s t : State}
    (h : BusRun (pre ++ .write a v :: post) s t) (hm : Memory.wf s.mem = true)
    (hw : ∀ u, .write a u ∉ post) (hd : isDevice s a = false)
    (hs : isShared s a = false ∨ NoDevice s post) : Machine.byteAt t a = v := by
  obtain ⟨m, h1, h2⟩ := h.split
  have h2 : BusRun post (busWrite a v m) t := h2
  have hio : (busWrite a v m).io = s.io := by simp [h1.io]
  exact (h2.kept hw (hs.imp (isShared_congr hio a).trans (·.congr hio))).trans
    (byteAt_busWrite_same v (h1.wf hm) ((isDevice_congr h1.io a).trans hd))

/-- A byte read from RAM is the byte before the run, if no earlier call writes it and no device that
answers one shares it. -/
theorem BusRun.answered {pre post : List BusCall} {a : Word} {v : Byte} {s t : State}
    (h : BusRun (pre ++ .read a v :: post) s t) (hw : ∀ u, .write a u ∉ pre)
    (hd : isDevice s a = false) (hs : isShared s a = false ∨ NoDevice s pre) :
    v = Machine.byteAt s a := by
  obtain ⟨m, h1, h2⟩ := h.split
  exact h2.1.trans ((busAnswer_ram ((isDevice_congr h1.io a).trans hd)).trans (h1.kept hw hs))

/-! ### Bus calls made -/

/-- No call is made where the bus and its log are the same. -/
theorem MadeCalls.of_same {s t : State} (hl : t.busLog = s.busLog) (h : SameBus s t) :
    MadeCalls [] s t := ⟨by simp [hl], h⟩

theorem MadeCalls.trans {c c' : List BusCall} {s t u : State} (h : MadeCalls c s t)
    (h' : MadeCalls c' t u) : MadeCalls (c ++ c') s u :=
  ⟨by rw [h'.log, h.log, List.append_assoc], h.run.append h'.run⟩

theorem busRead_calls (a : Word) (s : State) :
    MadeCalls [.read a (busAnswer a s)] s (busRead a s).2 := ⟨by simp, rfl, SameBus.refl _⟩

theorem busWrite_calls (a : Word) (v : Byte) (s : State) :
    MadeCalls [.write a v] s (busWrite a v s) := ⟨by simp, SameBus.refl (busWrite a v s)⟩

/-- The calls may be counted from and to states with the same bus and the same log. -/
theorem MadeCalls.congr {c : List BusCall} {s s' t t' : State} (h : MadeCalls c s t)
    (hs : SameBus s s') (hsl : s'.busLog = s.busLog) (ht : SameBus t t')
    (htl : t'.busLog = t.busLog) : MadeCalls c s' t' :=
  ⟨by rw [htl, h.log, hsl], h.run.congr hs ht⟩

end Sys2Proof.Machine
end

