-- ==== Sys2Proof/Laws/Flags.lean ====
section
/-! SUPPORT. One flag at a time: what a write of a flag, and the status byte's copies, read as. -/

namespace Sys2Proof.Machine

@[simp] theorem readFlag_writeFlag_same (f : Flag) (b : Bool) (p : Byte) :
    readFlag f (writeFlag f b p) = b := by
  cases f <;> cases b <;> revert p <;> decide

theorem readFlag_writeFlag_other {f g : Flag} (b : Bool) (p : Byte) (h : f ≠ g) :
    readFlag f (writeFlag g b p) = readFlag f p := by
  cases f <;> cases g <;> first | exact absurd rfl h | (cases b <;> revert p <;> decide)

/-- `P.f <- b` read back at any flag. -/
theorem readFlag_writeFlag (f g : Flag) (b : Bool) (p : Byte) :
    readFlag f (writeFlag g b p) = if f = g then b else readFlag f p := by
  by_cases h : f = g
  · subst h; simp
  · rw [if_neg h, readFlag_writeFlag_other b p h]

/-- Equal at every flag, equal as bytes. -/
theorem status_ext {p q : Byte} (h : ∀ f, readFlag f p = readFlag f q) : p = q := by
  have h0 := h .carry
  have h1 := h .zero
  have h2 := h .interruptDisable
  have h3 := h .decimal
  have h4 := h .break
  have h5 := h .unused
  have h6 := h .overflow
  have h7 := h .negative
  have key : ∀ p : Byte, p.toNat =
      (readFlag .carry p).toNat + 2 * (readFlag .zero p).toNat
        + 4 * (readFlag .interruptDisable p).toNat + 8 * (readFlag .decimal p).toNat
        + 16 * (readFlag .break p).toNat + 32 * (readFlag .unused p).toNat
        + 64 * (readFlag .overflow p).toNat + 128 * (readFlag .negative p).toNat := by decide
  apply BitVec.eq_of_toNat_eq
  rw [key p, key q, h0, h1, h2, h3, h4, h5, h6, h7]

/-- `SetZN` writes Z and N and no other flag (10_state.md R20). -/
theorem readFlag_setZN (f : Flag) (v p : Byte) :
    readFlag f (setZN v p) =
      if f = .negative then v.msb else if f = .zero then v == 0 else readFlag f p := by
  simp only [setZN, readFlag_writeFlag]

/-- The pushed copy: bit 5 is 1, bit 4 says a software break, the rest is `P` (10_state.md R18). -/
theorem readFlag_pushedStatus (f : Flag) (p : Byte) (brk : Bool) :
    readFlag f (pushedStatus p brk) =
      if f = .unused then true else if f = .break then brk else readFlag f p := by
  cases f <;> cases brk <;> revert p <;> decide

/-- The loaded status: bit 5 is 1, bit 4 is 0, the rest is the pulled byte (48_stack.md R213). -/
theorem readFlag_loadedStatus (f : Flag) (v : Byte) :
    readFlag f (loadedStatus v) =
      if f = .unused then true else if f = .break then false else readFlag f v := by
  cases f <;> revert v <;> decide

end Sys2Proof.Machine
end

