-- ==== Sys2Proof/Laws/Ops.lean ====
section
/-! SUPPORT. What each shared operation does: the fields it keeps, and the value of each field it
changes. -/

namespace Sys2Proof.Machine

/-! ### Bytes and words -/

theorem mkWord_toNat (h l : Byte) : (mkWord h l).toNat = h.toNat * 256 + l.toNat := by
  simp only [mkWord, BitVec.toNat_append]
  rw [← Nat.shiftLeft_add_eq_or_of_lt l.isLt, Nat.shiftLeft_eq]

theorem hi_toNat (w : Word) : (hi w).toNat = w.toNat / 256 := by
  have := w.isLt
  simp [hi, BitVec.extractLsb'_toNat, Nat.shiftRight_eq_div_pow]
  omega

theorem lo_toNat (w : Word) : (lo w).toNat = w.toNat % 256 := by
  simp [lo, BitVec.extractLsb'_toNat]

@[simp] theorem hi_mkWord (h l : Byte) : hi (mkWord h l) = h := by
  apply BitVec.eq_of_toNat_eq
  have := l.isLt
  rw [hi_toNat, mkWord_toNat]
  omega

@[simp] theorem lo_mkWord (h l : Byte) : lo (mkWord h l) = l := by
  apply BitVec.eq_of_toNat_eq
  have := l.isLt
  rw [lo_toNat, mkWord_toNat]
  omega

@[simp] theorem mkWord_hi_lo (w : Word) : mkWord (hi w) (lo w) = w := by
  apply BitVec.eq_of_toNat_eq
  rw [mkWord_toNat, hi_toNat, lo_toNat]
  omega

theorem zext16_toNat (b : Byte) : (zext16 b).toNat = b.toNat := by
  have := b.isLt
  simp [zext16]
  omega

theorem stackAddr_toNat (sp : Byte) : (stackAddr sp).toNat = 256 + sp.toNat := by
  have := sp.isLt
  simp [stackAddr, BitVec.toNat_add, zext16_toNat]
  omega

/-- Two stack addresses are equal only for equal stack pointers (10_state.md R13). -/
theorem stackAddr_inj {p q : Byte} (h : stackAddr p = stackAddr q) : p = q := by
  apply BitVec.eq_of_toNat_eq
  have := congrArg BitVec.toNat h
  simp only [stackAddr_toNat] at this
  omega

/-! ### The bus -/

/-- A word read keeps everything but the bus log, the devices' state and shared RAM. -/
@[simp] theorem readWord_kept (al ah : Word) (s : State) :
    ((readWord al ah s).2).a = s.a ∧ ((readWord al ah s).2).x = s.x ∧ ((readWord al ah s).2).y = s.y ∧
      ((readWord al ah s).2).sp = s.sp ∧ ((readWord al ah s).2).p = s.p ∧ ((readWord al ah s).2).pc = s.pc ∧
      ((readWord al ah s).2).cyc = s.cyc ∧ ((readWord al ah s).2).nmiPending = s.nmiPending ∧ ((readWord al ah s).2).irqPending = s.irqPending ∧
      ((readWord al ah s).2).io = s.io ∧ ((readWord al ah s).2).agenda = s.agenda := by
  simp [readWord]

theorem readWord_fst (al ah : Word) (s : State) :
    (readWord al ah s).1 = mkWord (busAnswer ah (busRead al s).2) (busAnswer al s) := rfl

theorem readWord_busLog (al ah : Word) (s : State) :
    (readWord al ah s).2.busLog =
      s.busLog ++ [.read al (busAnswer al s), .read ah (busAnswer ah (busRead al s).2)] := by
  simp [readWord]

theorem readWord_calls (al ah : Word) (s : State) :
    MadeCalls [.read al (busAnswer al s), .read ah (busAnswer ah (busRead al s).2)] s
      (readWord al ah s).2 :=
  (busRead_calls al s).trans (busRead_calls ah (busRead al s).2)

/-! ### Registers -/

/-- `SetZN` changes only the status byte. -/
@[simp] theorem applyZN_kept (v : Byte) (s : State) :
    (applyZN v s).a = s.a ∧ (applyZN v s).x = s.x ∧ (applyZN v s).y = s.y ∧
      (applyZN v s).sp = s.sp ∧ (applyZN v s).pc = s.pc ∧ (applyZN v s).cyc = s.cyc ∧
      (applyZN v s).nmiPending = s.nmiPending ∧ (applyZN v s).irqPending = s.irqPending ∧ (applyZN v s).mem = s.mem ∧
      (applyZN v s).io = s.io ∧ (applyZN v s).device = s.device ∧ (applyZN v s).busLog = s.busLog ∧
      (applyZN v s).agenda = s.agenda :=
  ⟨rfl, rfl, rfl, rfl, rfl, rfl, rfl, rfl, rfl, rfl, rfl, rfl, rfl⟩

@[simp] theorem applyZN_p (v : Byte) (s : State) : (applyZN v s).p = setZN v s.p := rfl

/-- Writing a flag changes only the status byte. -/
@[simp] theorem applyFlag_kept (f : Flag) (b : Bool) (s : State) :
    (applyFlag f b s).a = s.a ∧ (applyFlag f b s).x = s.x ∧ (applyFlag f b s).y = s.y ∧
      (applyFlag f b s).sp = s.sp ∧ (applyFlag f b s).pc = s.pc ∧ (applyFlag f b s).cyc = s.cyc ∧
      (applyFlag f b s).nmiPending = s.nmiPending ∧ (applyFlag f b s).irqPending = s.irqPending ∧ (applyFlag f b s).mem = s.mem ∧
      (applyFlag f b s).io = s.io ∧ (applyFlag f b s).device = s.device ∧ (applyFlag f b s).busLog = s.busLog ∧
      (applyFlag f b s).agenda = s.agenda :=
  ⟨rfl, rfl, rfl, rfl, rfl, rfl, rfl, rfl, rfl, rfl, rfl, rfl, rfl⟩

@[simp] theorem applyFlag_p (f : Flag) (b : Bool) (s : State) :
    (applyFlag f b s).p = writeFlag f b s.p := rfl

/-- Charging cycles changes only the counter. -/
@[simp] theorem charge_kept (base ax ox : Nat) (s : State) :
    (charge base ax ox s).a = s.a ∧ (charge base ax ox s).x = s.x ∧ (charge base ax ox s).y = s.y ∧
      (charge base ax ox s).sp = s.sp ∧ (charge base ax ox s).p = s.p ∧ (charge base ax ox s).pc = s.pc ∧
      (charge base ax ox s).nmiPending = s.nmiPending ∧ (charge base ax ox s).irqPending = s.irqPending ∧ (charge base ax ox s).mem = s.mem ∧
      (charge base ax ox s).io = s.io ∧ (charge base ax ox s).device = s.device ∧ (charge base ax ox s).busLog = s.busLog ∧
      (charge base ax ox s).agenda = s.agenda :=
  ⟨rfl, rfl, rfl, rfl, rfl, rfl, rfl, rfl, rfl, rfl, rfl, rfl, rfl⟩

@[simp] theorem charge_cyc (base ax ox : Nat) (s : State) :
    (charge base ax ox s).cyc = ((base + ax + ox : Nat) : Int) := rfl

/-! ### The stack -/

/-- A push keeps everything but `SP`, memory, the bus log and the devices' state (20_memory.md R50). -/
@[simp] theorem push_kept (v : Byte) (s : State) :
    (push v s).a = s.a ∧ (push v s).x = s.x ∧ (push v s).y = s.y ∧
      (push v s).p = s.p ∧ (push v s).pc = s.pc ∧ (push v s).cyc = s.cyc ∧
      (push v s).nmiPending = s.nmiPending ∧ (push v s).irqPending = s.irqPending ∧ (push v s).io = s.io ∧
      (push v s).agenda = s.agenda := by
  simp [push]

@[simp] theorem push_sp (v : Byte) (s : State) : (push v s).sp = s.sp - 1 := rfl

@[simp] theorem push_mem (v : Byte) (s : State) :
    (push v s).mem = (busWrite (stackAddr s.sp) v s).mem := rfl

@[simp] theorem push_busLog (v : Byte) (s : State) :
    (push v s).busLog = s.busLog ++ [.write (stackAddr s.sp) v] := by
  simp [push]

/-- A pull keeps everything but `SP`, the bus log, the devices' state and shared RAM (20_memory.md R51). -/
@[simp] theorem pull_kept (s : State) :
    ((pull s).2).a = s.a ∧ ((pull s).2).x = s.x ∧ ((pull s).2).y = s.y ∧
      ((pull s).2).p = s.p ∧ ((pull s).2).pc = s.pc ∧ ((pull s).2).cyc = s.cyc ∧
      ((pull s).2).nmiPending = s.nmiPending ∧ ((pull s).2).irqPending = s.irqPending ∧
      ((pull s).2).io = s.io ∧ ((pull s).2).agenda = s.agenda := by
  simp [pull]

@[simp] theorem pull_sp (s : State) : (pull s).2.sp = s.sp + 1 := by
  simp [pull]

@[simp] theorem pull_fst (s : State) : (pull s).1 = busAnswer (stackAddr (s.sp + 1)) s := rfl

@[simp] theorem pull_busLog (s : State) :
    (pull s).2.busLog = s.busLog ++ [.read (stackAddr (s.sp + 1)) (pull s).1] := by
  simp only [pull, busRead_busLog, busRead_fst, State.setSp_busLog]

/-- Pushing a word keeps everything but `SP`, memory, the bus log and the devices' state (20_memory.md R54). -/
@[simp] theorem pushWord_kept (w : Word) (s : State) :
    (pushWord w s).a = s.a ∧ (pushWord w s).x = s.x ∧ (pushWord w s).y = s.y ∧
      (pushWord w s).p = s.p ∧ (pushWord w s).pc = s.pc ∧ (pushWord w s).cyc = s.cyc ∧
      (pushWord w s).nmiPending = s.nmiPending ∧ (pushWord w s).irqPending = s.irqPending ∧ (pushWord w s).io = s.io ∧
      (pushWord w s).agenda = s.agenda := by
  simp [pushWord]

@[simp] theorem pushWord_sp (w : Word) (s : State) : (pushWord w s).sp = s.sp - 2 := by
  simp only [pushWord, push_sp]
  bv_omega

@[simp] theorem pushWord_busLog (w : Word) (s : State) :
    (pushWord w s).busLog =
      s.busLog ++ [.write (stackAddr s.sp) (hi w), .write (stackAddr (s.sp - 1)) (lo w)] := by
  simp [pushWord]

/-- Pulling a word keeps everything but `SP`, the bus log, the devices' state and shared RAM. -/
@[simp] theorem pullWord_kept (s : State) :
    ((pullWord s).2).a = s.a ∧ ((pullWord s).2).x = s.x ∧ ((pullWord s).2).y = s.y ∧
      ((pullWord s).2).p = s.p ∧ ((pullWord s).2).pc = s.pc ∧ ((pullWord s).2).cyc = s.cyc ∧
      ((pullWord s).2).nmiPending = s.nmiPending ∧ ((pullWord s).2).irqPending = s.irqPending ∧
      ((pullWord s).2).io = s.io ∧ ((pullWord s).2).agenda = s.agenda := by
  simp [pullWord]

@[simp] theorem pullWord_sp (s : State) : (pullWord s).2.sp = s.sp + 2 := by
  simp only [pullWord, pull_sp]
  bv_omega

theorem pullWord_fst (s : State) :
    (pullWord s).1 = mkWord (pull (pull s).2).1 (pull s).1 := rfl

theorem pullWord_busLog (s : State) :
    (pullWord s).2.busLog =
      s.busLog ++ [.read (stackAddr (s.sp + 1)) (pull s).1,
        .read (stackAddr (s.sp + 2)) (pull (pull s).2).1] := by
  have h : s.sp + 1 + 1 = s.sp + 2 := by bv_omega
  simp only [pullWord, pull_busLog, pull_sp, h, List.append_assoc, List.cons_append, List.nil_append]

theorem push_calls (v : Byte) (s : State) :
    MadeCalls [.write (stackAddr s.sp) v] s (push v s) :=
  (busWrite_calls (stackAddr s.sp) v s).congr (.refl s) rfl ⟨rfl, rfl, rfl⟩ rfl

theorem pull_calls (s : State) :
    MadeCalls [.read (stackAddr (s.sp + 1)) (pull s).1] s (pull s).2 :=
  (busRead_calls (stackAddr (s.sp + 1)) (s.setSp (s.sp + 1))).congr ⟨rfl, rfl, rfl⟩ rfl (.refl _) rfl

theorem pushWord_calls (w : Word) (s : State) :
    MadeCalls [.write (stackAddr s.sp) (hi w), .write (stackAddr (s.sp - 1)) (lo w)] s
      (pushWord w s) := (push_calls (hi w) s).trans (push_calls (lo w) (push (hi w) s))

theorem pullWord_calls (s : State) :
    MadeCalls [.read (stackAddr (s.sp + 1)) (pull s).1,
      .read (stackAddr (s.sp + 2)) (pull (pull s).2).1] s (pullWord s).2 := by
  have h : s.sp + 2 = s.sp + 1 + 1 := by bv_omega
  have h2 := pull_calls (pull s).2
  rw [pull_sp] at h2
  rw [h]
  exact (pull_calls s).trans h2

/-! ### The interrupt sequence and the return -/

/-- The entry sequence keeps A, X, Y, the counter, the latches, the windows and the agenda (60_exceptions.md R245). -/
@[simp] theorem enterInterrupt_kept (vec : Word) (brk : Bool) (s : State) :
    (enterInterrupt vec brk s).a = s.a ∧ (enterInterrupt vec brk s).x = s.x ∧ (enterInterrupt vec brk s).y = s.y ∧
      (enterInterrupt vec brk s).cyc = s.cyc ∧ (enterInterrupt vec brk s).nmiPending = s.nmiPending ∧ (enterInterrupt vec brk s).irqPending = s.irqPending ∧
      (enterInterrupt vec brk s).io = s.io ∧ (enterInterrupt vec brk s).agenda = s.agenda := by
  simp [enterInterrupt]

@[simp] theorem enterInterrupt_p (vec : Word) (brk : Bool) (s : State) :
    (enterInterrupt vec brk s).p = writeFlag .interruptDisable true s.p := by
  simp [enterInterrupt]

@[simp] theorem enterInterrupt_sp (vec : Word) (brk : Bool) (s : State) :
    (enterInterrupt vec brk s).sp = s.sp - 3 := by
  simp only [enterInterrupt, State.setPc_sp, readWord_kept, applyFlag_kept, push_sp, pushWord_sp]
  bv_omega

/-- The five bus calls of the entry sequence, in order (60_exceptions.md R245). -/
theorem enterInterrupt_calls (vec : Word) (brk : Bool) (s : State) :
    ∃ l h, (enterInterrupt vec brk s).pc = mkWord h l ∧
      MadeCalls [.write (stackAddr s.sp) (hi s.pc), .write (stackAddr (s.sp - 1)) (lo s.pc),
        .write (stackAddr (s.sp - 2)) (pushedStatus s.p brk), .read vec l, .read (vec + 1) h] s
        (enterInterrupt vec brk s) := by
  have hp := (pushWord_calls s.pc s).trans (push_calls (pushedStatus s.p brk) (pushWord s.pc s))
  rw [pushWord_sp] at hp
  have he : enterInterrupt vec brk s =
      (readWord vec (vec + 1)
        (applyFlag .interruptDisable true (push (pushedStatus s.p brk) (pushWord s.pc s)))).2.setPc
      (readWord vec (vec + 1)
        (applyFlag .interruptDisable true (push (pushedStatus s.p brk) (pushWord s.pc s)))).1 := by
    simp only [enterInterrupt, pushWord_kept]
  rw [he]
  generalize push (pushedStatus s.p brk) (pushWord s.pc s) = m at hp
  exact ⟨_, _, rfl, hp.trans ((readWord_calls vec (vec + 1) (applyFlag .interruptDisable true m)).congr
    ⟨rfl, rfl, rfl⟩ rfl ⟨rfl, rfl, rfl⟩ rfl)⟩

theorem enterInterrupt_wf {s : State} (vec : Word) (brk : Bool) (hm : Memory.wf s.mem = true) :
    Memory.wf (enterInterrupt vec brk s).mem = true := by
  obtain ⟨_, _, _, h⟩ := enterInterrupt_calls vec brk s
  exact h.run.wf hm

/-- Pulling the status keeps everything but `SP`, `P`, the bus log, the devices' state and shared RAM. -/
@[simp] theorem pullStatus_kept (s : State) :
    (pullStatus s).a = s.a ∧ (pullStatus s).x = s.x ∧ (pullStatus s).y = s.y ∧
      (pullStatus s).pc = s.pc ∧ (pullStatus s).cyc = s.cyc ∧ (pullStatus s).nmiPending = s.nmiPending ∧
      (pullStatus s).irqPending = s.irqPending ∧ (pullStatus s).io = s.io ∧
      (pullStatus s).agenda = s.agenda := by
  simp [pullStatus]

@[simp] theorem pullStatus_p (s : State) : (pullStatus s).p = loadedStatus (pull s).1 := rfl

@[simp] theorem pullStatus_sp (s : State) : (pullStatus s).sp = s.sp + 1 := pull_sp s

/-- RTI keeps everything but `SP`, `P`, `PC`, the bus log, the devices' state and shared RAM. -/
@[simp] theorem returnFromInterrupt_kept (s : State) :
    (returnFromInterrupt s).a = s.a ∧ (returnFromInterrupt s).x = s.x ∧ (returnFromInterrupt s).y = s.y ∧
      (returnFromInterrupt s).cyc = s.cyc ∧ (returnFromInterrupt s).nmiPending = s.nmiPending ∧ (returnFromInterrupt s).irqPending = s.irqPending ∧
      (returnFromInterrupt s).io = s.io ∧ (returnFromInterrupt s).agenda = s.agenda := by
  simp [returnFromInterrupt]

@[simp] theorem returnFromInterrupt_p (s : State) :
    (returnFromInterrupt s).p = loadedStatus (pull s).1 := by
  simp [returnFromInterrupt]

@[simp] theorem returnFromInterrupt_sp (s : State) : (returnFromInterrupt s).sp = s.sp + 3 := by
  simp only [returnFromInterrupt, State.setPc_sp, pullWord_sp, pullStatus_sp]
  bv_omega

/-- The three bus reads of RTI, in order (49_system.md R221). -/
theorem returnFromInterrupt_calls (s : State) :
    ∃ l h, (returnFromInterrupt s).pc = mkWord h l ∧
      MadeCalls [.read (stackAddr (s.sp + 1)) (pull s).1, .read (stackAddr (s.sp + 2)) l,
        .read (stackAddr (s.sp + 3)) h] s (returnFromInterrupt s) := by
  have e1 : s.sp + 2 = s.sp + 1 + 1 := by bv_omega
  have e2 : s.sp + 3 = s.sp + 1 + 2 := by bv_omega
  have h2 := pullWord_calls (pullStatus s)
  rw [pullStatus_sp] at h2
  rw [e1, e2]
  exact ⟨_, _, rfl, ((pull_calls s).congr (SameBus.refl s) rfl (t' := pullStatus s)
    ⟨rfl, rfl, rfl⟩ rfl).trans (h2.congr (SameBus.refl _) rfl (t' := returnFromInterrupt s)
      ⟨rfl, rfl, rfl⟩ rfl)⟩

/-! ### The resolvers -/

/-- A resolver keeps everything but the bus log, the devices' state and shared RAM. -/
@[simp] theorem resolve_kept (o : Operand) (s : State) :
    (resolve o s).st.a = s.a ∧ (resolve o s).st.x = s.x ∧ (resolve o s).st.y = s.y ∧
      (resolve o s).st.sp = s.sp ∧ (resolve o s).st.p = s.p ∧ (resolve o s).st.pc = s.pc ∧
      (resolve o s).st.cyc = s.cyc ∧ (resolve o s).st.nmiPending = s.nmiPending ∧
      (resolve o s).st.irqPending = s.irqPending ∧
      (resolve o s).st.io = s.io ∧ (resolve o s).st.agenda = s.agenda := by
  cases o <;> simp [resolve, direct, indexed, readZeroPagePointer]

/-- Reading a place keeps everything but the bus log, the devices' state and shared RAM. -/
@[simp] theorem readPlace_kept (p : Place) (s : State) :
    (readPlace p s).2.a = s.a ∧ (readPlace p s).2.x = s.x ∧ (readPlace p s).2.y = s.y ∧
      (readPlace p s).2.sp = s.sp ∧ (readPlace p s).2.p = s.p ∧ (readPlace p s).2.pc = s.pc ∧
      (readPlace p s).2.cyc = s.cyc ∧ (readPlace p s).2.nmiPending = s.nmiPending ∧
      (readPlace p s).2.irqPending = s.irqPending ∧
      (readPlace p s).2.io = s.io ∧ (readPlace p s).2.agenda = s.agenda := by
  cases p <;> simp [readPlace]

/-- A resolver makes only reads. -/
theorem resolve_calls (o : Operand) (s : State) :
    ∃ calls, (∀ c ∈ calls, c.isRead = true) ∧ MadeCalls calls s (resolve o s).st := by
  cases o with
  | indx d => exact ⟨_, by simp [BusCall.isRead], readWord_calls _ _ s⟩
  | indy d => exact ⟨_, by simp [BusCall.isRead], readWord_calls _ _ s⟩
  | acc | imm d | zp d | zpx d | zpy d | abs w | absx w | absy w =>
    exact ⟨[], by simp, .of_same rfl (SameBus.refl s)⟩

/-- Reading a place makes one read or none. -/
theorem readPlace_calls (p : Place) (s : State) :
    ∃ calls, (∀ c ∈ calls, c.isRead = true) ∧ MadeCalls calls s (readPlace p s).2 := by
  cases p with
  | ea a => exact ⟨_, by simp [BusCall.isRead], busRead_calls a s⟩
  | acc | imm d => exact ⟨[], by simp, .of_same rfl (SameBus.refl s)⟩

/-- A resolver's extra is 0 or 1 (40_engine_and_addressing.md R98). -/
theorem resolve_extra_le (o : Operand) (s : State) : (resolve o s).extra ≤ 1 := by
  cases o <;> simp only [resolve, direct, indexed, crossExtra] <;> (try split) <;> omega

end Sys2Proof.Machine
end

