-- ==== Sys2Proof/Laws/Frame.lean ====
section
/-! SUPPORT. Frames of the shared operations, and how frames compose. -/

namespace Sys2Proof.Machine

theorem Frame.refl (rs : List Reg) (fs : List Flag) (ms : List Word) (s : State) :
    Frame rs fs ms s s :=
  ⟨fun _ _ => rfl, fun _ _ => rfl, fun _ _ _ => rfl, rfl, rfl, rfl, rfl⟩

theorem Frame.trans {rs : List Reg} {fs : List Flag} {ms : List Word} {s t u : State}
    (h : Frame rs fs ms s t) (h' : Frame rs fs ms t u) : Frame rs fs ms s u :=
  ⟨fun r hr => (h'.keptRegs r hr).trans (h.keptRegs r hr),
   fun f hf => (h'.keptFlags f hf).trans (h.keptFlags f hf),
   fun a ha hs => (h'.keptMem a ha ((isShared_congr h.keptIo a).trans hs)).trans (h.keptMem a ha hs),
   h'.keptNmi.trans h.keptNmi, h'.keptIrq.trans h.keptIrq,
   h'.keptIo.trans h.keptIo, h'.keptAgenda.trans h.keptAgenda⟩

/-- A frame that allows less is a frame that allows more. -/
theorem Frame.mono {rs rs' : List Reg} {fs fs' : List Flag} {ms ms' : List Word} {s t : State}
    (h : Frame rs fs ms s t) (hr : rs ⊆ rs') (hf : fs ⊆ fs') (hm : ms ⊆ ms') :
    Frame rs' fs' ms' s t :=
  ⟨fun r h' => h.keptRegs r fun x => h' (hr x),
   fun f h' => h.keptFlags f fun x => h' (hf x),
   fun a h' => h.keptMem a fun x => h' (hm x),
   h.keptNmi, h.keptIrq, h.keptIo, h.keptAgenda⟩

/-- A frame from the bus calls made: memory changes at the addresses written, and where a device
changes RAM it shares. -/
theorem Frame.of_calls {rs : List Reg} {fs : List Flag} {ms : List Word} {calls : List BusCall}
    {s t : State} (hc : MadeCalls calls s t) (hw : ∀ a v, .write a v ∈ calls → a ∈ ms)
    (hr : ∀ r, r ∉ rs → r.get t = r.get s) (hf : ∀ f, f ∉ fs → readFlag f t.p = readFlag f s.p)
    (hn : t.nmiPending = s.nmiPending) (hi : t.irqPending = s.irqPending)
    (ha : t.agenda = s.agenda) : Frame rs fs ms s t :=
  ⟨hr, hf, fun a hm hs => hc.run.byteAt (fun v h => hm (hw a v h)) hs, hn, hi, hc.run.io, ha⟩

/-- As `Frame.of_calls`, where every call is a read. -/
theorem Frame.of_reads {rs : List Reg} {fs : List Flag} {s t : State}
    (hc : ∃ calls, (∀ c ∈ calls, c.isRead = true) ∧ MadeCalls calls s t)
    (hr : ∀ r, r ∉ rs → r.get t = r.get s) (hf : ∀ f, f ∉ fs → readFlag f t.p = readFlag f s.p)
    (hn : t.nmiPending = s.nmiPending) (hi : t.irqPending = s.irqPending)
    (ha : t.agenda = s.agenda) : Frame rs fs [] s t := by
  obtain ⟨calls, hread, h⟩ := hc
  exact .of_calls h (fun a v hm => absurd (hread _ hm) Bool.false_ne_true) hr hf hn hi ha

/-- A frame from the equal fields, where no bus call is made. -/
theorem Frame.of_same {rs : List Reg} {fs : List Flag} {s t : State} (hb : SameBus s t)
    (ha : .a ∉ rs → t.a = s.a) (hx : .x ∉ rs → t.x = s.x) (hy : .y ∉ rs → t.y = s.y)
    (hsp : .sp ∉ rs → t.sp = s.sp) (hf : ∀ f, f ∉ fs → readFlag f t.p = readFlag f s.p)
    (hk : t.nmiPending = s.nmiPending ∧ t.irqPending = s.irqPending ∧ t.agenda = s.agenda) :
    Frame rs fs [] s t :=
  ⟨fun r => by cases r <;> assumption, hf, fun a _ _ => byteAt_congr hb.mem a, hk.1, hk.2.1, hb.io,
    hk.2.2⟩

theorem busRead_frame (a : Word) (s : State) : Frame [] [] [] s (busRead a s).2 :=
  .of_reads ⟨_, by simp [BusCall.isRead], busRead_calls a s⟩ (fun r _ => by cases r <;> simp [Reg.get])
    (by simp) (by simp) (by simp) (by simp)

theorem busWrite_frame (a : Word) (v : Byte) (s : State) : Frame [] [] [a] s (busWrite a v s) :=
  .of_calls (busWrite_calls a v s) (by simp) (fun r _ => by cases r <;> simp [Reg.get])
    (by simp) (by simp) (by simp) (by simp)

theorem readWord_frame (al ah : Word) (s : State) : Frame [] [] [] s (readWord al ah s).2 :=
  (busRead_frame al s).trans (busRead_frame ah _)

theorem charge_frame (base ax ox : Nat) (s : State) : Frame [] [] [] s (charge base ax ox s) :=
  .of_same ⟨rfl, rfl, rfl⟩ (by simp) (by simp) (by simp) (by simp) (by simp) (by simp)

theorem push_frame (v : Byte) (s : State) : Frame [.sp] [] [stackAddr s.sp] s (push v s) :=
  .of_calls (push_calls v s) (by simp) (fun r hr => by cases r <;> simp_all [Reg.get])
    (by simp) (by simp) (by simp) (by simp)

theorem pull_frame (s : State) : Frame [.sp] [] [] s (pull s).2 :=
  .of_reads ⟨_, by simp [BusCall.isRead], pull_calls s⟩ (fun r hr => by cases r <;> simp_all [Reg.get])
    (by simp) (by simp) (by simp) (by simp)

theorem pushWord_frame (w : Word) (s : State) :
    Frame [.sp] [] [stackAddr s.sp, stackAddr (s.sp - 1)] s (pushWord w s) :=
  ((push_frame (hi w) s).mono (by simp) (by simp) (by simp)).trans
    ((push_frame (lo w) (push (hi w) s)).mono (by simp) (by simp) (by simp))

theorem pullWord_frame (s : State) : Frame [.sp] [] [] s (pullWord s).2 :=
  (pull_frame s).trans (pull_frame _)

theorem resolve_frame (o : Operand) (s : State) : Frame [] [] [] s (resolve o s).st :=
  .of_reads (resolve_calls o s) (fun r _ => by cases r <;> simp [Reg.get]) (by simp) (by simp)
    (by simp) (by simp)

theorem readPlace_frame (p : Place) (s : State) : Frame [] [] [] s (readPlace p s).2 :=
  .of_reads (readPlace_calls p s) (fun r _ => by cases r <;> simp [Reg.get]) (by simp) (by simp)
    (by simp) (by simp)

/-- Resolving and reading an operand keeps everything but the bus log, the devices' state and shared
RAM. -/
@[simp] theorem afterOperand_kept (o : Operand) (s : State) :
    (afterOperand o s).a = s.a ∧ (afterOperand o s).x = s.x ∧ (afterOperand o s).y = s.y ∧
      (afterOperand o s).sp = s.sp ∧ (afterOperand o s).p = s.p ∧ (afterOperand o s).pc = s.pc ∧
      (afterOperand o s).cyc = s.cyc ∧ (afterOperand o s).nmiPending = s.nmiPending ∧
      (afterOperand o s).irqPending = s.irqPending ∧ (afterOperand o s).io = s.io ∧
      (afterOperand o s).agenda = s.agenda := by
  simp [afterOperand]

/-- Resolving and reading an operand makes only reads. -/
theorem afterOperand_calls (o : Operand) (s : State) :
    ∃ calls, (∀ c ∈ calls, c.isRead = true) ∧ MadeCalls calls s (afterOperand o s) := by
  obtain ⟨c, hc, h⟩ := resolve_calls o s
  obtain ⟨c', hc', h'⟩ := readPlace_calls (resolve o s).place (resolve o s).st
  exact ⟨c ++ c', fun d hd => (List.mem_append.1 hd).elim (hc d) (hc' d), h.trans h'⟩

theorem afterOperand_wf {s : State} (o : Operand) (hm : Memory.wf s.mem = true) :
    Memory.wf (afterOperand o s).mem = true := by
  obtain ⟨_, _, h⟩ := afterOperand_calls o s
  exact h.run.wf hm

theorem afterOperand_frame (o : Operand) (s : State) : Frame [] [] [] s (afterOperand o s) :=
  (resolve_frame o s).trans (readPlace_frame _ _)

/-- Writing a place other than an Immediate changes only the accumulator or memory there. -/
theorem writePlace_frame {p : Place} (v : Byte) (s : State) (h : ∀ d, p ≠ .imm d) :
    Frame (if p = .acc then [.a] else []) [] p.stored s (writePlace p v s) := by
  cases p with
  | acc =>
    exact .of_same ⟨rfl, rfl, rfl⟩ (by simp) (by simp [writePlace]) (by simp [writePlace])
      (by simp [writePlace]) (by simp [writePlace]) (by simp [writePlace])
  | imm d => exact absurd rfl (h d)
  | ea a => simpa [writePlace, Place.stored] using busWrite_frame a v s

/-- The entry sequence changes SP, the InterruptDisable flag, the three bytes it pushes, PC, the bus
log, and what devices change (60_exceptions.md R245). -/
theorem enterInterrupt_frame (vec : Word) (brk : Bool) (s : State) :
    Frame [.sp] [.interruptDisable] [stackAddr s.sp, stackAddr (s.sp - 1), stackAddr (s.sp - 2)] s
      (enterInterrupt vec brk s) := by
  obtain ⟨l, h, -, hc⟩ := enterInterrupt_calls vec brk s
  refine .of_calls hc ?_ (fun r hr => ?_) (fun f hf => ?_) (by simp) (by simp) (by simp)
  · simp only [List.mem_cons, BusCall.write.injEq, reduceCtorEq, List.not_mem_nil, or_false]
    rintro _ _ (⟨rfl, -⟩ | ⟨rfl, -⟩ | ⟨rfl, -⟩) <;> simp
  · cases r with
    | sp => simp at hr
    | a | x | y => simp [Reg.get]
  · simp only [List.mem_singleton] at hf
    rw [enterInterrupt_p, readFlag_writeFlag_other _ _ hf]

end Sys2Proof.Machine
end

