-- ==== Sys2Proof/Laws/Exec.lean ====
section
/-! SUPPORT. What the shapes of the operand-access classes do, said once over the operand byte and
the state after it is read. -/

namespace Sys2Proof.Machine

/-- The read class: the operation acts on the operand byte in the state after the read. -/
theorem readOp_eq (o : Operand) (k : Byte → State → State) (s : State) :
    readOp o k s =
      charge (readCycles o) (resolve o s).extra 0 (k (operandByte o s) (afterOperand o s)) := rfl

/-- The write class. -/
theorem storeOp_eq (o : Operand) (v : Byte) (s : State) :
    storeOp o v s =
      charge (storeCycles o) (resolve o s).extra 0
        (writePlace (resolve o s).place v (resolve o s).st) := by
  simp [storeOp, writeExtra, Params.pageCrossOnWrite]

/-- The read-modify-write class. -/
theorem modifyOp_eq (o : Operand) (f : Byte → Byte → Byte × Byte) (s : State) :
    modifyOp o f s =
      charge (modifyCycles o) (resolve o s).extra 0
        (writePlace (resolve o s).place (f (operandByte o s) s.p).1
          ((afterOperand o s).setP (f (operandByte o s) s.p).2)) := by
  have h : (readPlace (resolve o s).place (resolve o s).st).2.p = s.p := by simp
  simp only [modifyOp, writeExtra, Params.pageCrossOnWrite, if_true, h]
  rfl

/-- Loading a register and its flags. -/
theorem putA_eq (v : Byte) (s : State) : putA v s = (s.setA v).setP (setZN v s.p) := rfl
theorem putX_eq (v : Byte) (s : State) : putX v s = (s.setX v).setP (setZN v s.p) := rfl
theorem putY_eq (v : Byte) (s : State) : putY v s = (s.setY v).setP (setZN v s.p) := rfl

end Sys2Proof.Machine
end

