-- ==== Sys2Proof/Laws/Step.lean ====
section
/-! SUPPORT. One equation for each kind of tick, the cases of a tick, and the host's calls. -/

namespace Sys2Proof.Machine

theorem tick_busy {s : State} (h : 0 < s.cyc) : tick s = .next (countDown s) := by
  simp [tick, busy, h]

theorem tick_nmi {s : State} (h : s.cyc ≤ 0) (hn : s.nmiPending = true) :
    tick s = .next (countDown (serviceNmi s)) := by
  have : ¬ 0 < s.cyc := by omega
  simp [tick, busy, this, hn]

theorem tick_irq {s : State} (h : s.cyc ≤ 0) (hn : s.nmiPending = false)
    (hi : irqServiceable s = true) : tick s = .next (countDown (serviceIrq s)) := by
  have : ¬ 0 < s.cyc := by omega
  simp [tick, busy, this, hn, hi]

theorem tick_execute {s : State} (h : s.cyc ≤ 0) (hn : s.nmiPending = false)
    (hi : irqServiceable s = false) : tick s = executeOne s := by
  have : ¬ 0 < s.cyc := by omega
  simp [tick, busy, this, hn, hi]

/-- A tick is one of these four (40_engine_and_addressing.md R90). -/
theorem tick_cases (s : State) :
    (0 < s.cyc ∧ tick s = .next (countDown s)) ∨
    (s.cyc ≤ 0 ∧ s.nmiPending = true ∧ tick s = .next (countDown (serviceNmi s))) ∨
    (s.cyc ≤ 0 ∧ s.nmiPending = false ∧ irqServiceable s = true ∧
      tick s = .next (countDown (serviceIrq s))) ∨
    (s.cyc ≤ 0 ∧ s.nmiPending = false ∧ irqServiceable s = false ∧ tick s = executeOne s) := by
  by_cases h : 0 < s.cyc
  · exact .inl ⟨h, tick_busy h⟩
  have h0 : s.cyc ≤ 0 := by omega
  cases hn : s.nmiPending
  · cases hi : irqServiceable s
    · exact .inr (.inr (.inr ⟨h0, rfl, rfl, tick_execute h0 hn hi⟩))
    · exact .inr (.inr (.inl ⟨h0, rfl, rfl, tick_irq h0 hn hi⟩))
  · exact .inr (.inl ⟨h0, rfl, tick_nmi h0 hn⟩)

/-- With no call before the tick, a step is the tick on a cleared bus log. -/
theorem takeHostCalls_nil {s : State} (h : s.agenda = []) :
    takeHostCalls s = s.setBusLog [] := by
  cases s
  simp only at h
  subst h
  rfl

/-- Each host call keeps the memory's canonical form. -/
theorem applyHostCall_wf {s : State} (c : HostCall) (hm : Memory.wf s.mem = true) :
    Memory.wf (applyHostCall c s).mem = true := by
  cases c with
  | reset =>
    simp only [applyHostCall, hostReset, Params.resetClearsPending, if_true, State.setIrq_mem,
      State.setNmi_mem, State.setCyc_mem, State.setPc_mem]
    exact (readWord_calls _ _ _).run.wf hm
  | deviceChange d => simpa [applyHostCall, deviceChange] using hm
  | requestInterrupt k => cases k <;> simpa [applyHostCall, requestInterrupt] using hm
  | setFlag f b => simpa [applyHostCall, hostSetFlag] using hm
  | otherWriter a v =>
    simp only [applyHostCall, otherWriter, State.setMem_mem]
    exact Memory.wf_write v (by have := a.isLt; omega) hm

/-- Placing an instruction keeps the memory's canonical form. -/
theorem placeBytes_wf {s : State} (bs : List Byte) (a : Word) (hm : Memory.wf s.mem = true) :
    Memory.wf (placeBytes a bs s).mem = true := by
  induction bs generalizing a s with
  | nil => exact hm
  | cons b rest ih =>
    simp only [placeBytes]
    exact ih (a := a + 1) (Memory.wf_write b (by have := a.isLt; omega) hm)

/-- The reset memory is in canonical form. -/
theorem reset_wf : Memory.wf State.reset.mem = true := rfl

end Sys2Proof.Machine
end

