-- ==== Sys2Proof/Laws/Does.lean ====
section
/-! SUPPORT. What each shared operation of the meanings does, whole: the entry sequence, the bus's
answers, and the write, read-modify-write and branch shapes. -/

namespace Sys2Proof.Machine

/-- What the bus answers now. -/
theorem busAnswer_answered (a : Word) (s : State) : AnsweredBy s a (busAnswer a s) := busAnswer_ram

/-- The first call of a run is answered by the bus of its start. -/
theorem MadeCalls.answeredBy {a : Word} {v : Byte} {post : List BusCall} {s t : State}
    (h : MadeCalls (.read a v :: post) s t) : AnsweredBy s a v := fun hd =>
  h.run.1.trans (busAnswer_ram hd)

/-- A later read of a run is answered by the bus of its start, if no call before it writes there. -/
theorem MadeCalls.answeredLater {pre post : List BusCall} {a : Word} {v : Byte} {s t : State}
    (h : MadeCalls (pre ++ .read a v :: post) s t) (hw : ∀ u, .write a u ∉ pre) :
    AnsweredLater s a v := fun hd hs => h.run.answered hw hd (.inl hs)

/-- The last call of a run, a write, is read back. -/
theorem MadeCalls.storedAt {pre : List BusCall} {a : Word} {v : Byte} {s t : State}
    (h : MadeCalls (pre ++ [.write a v]) s t) (hm : Memory.wf s.mem = true) : StoredAt t a v :=
  fun hd => h.run.stored hm (by simp) ((isDevice_congr h.run.io a).symm.trans hd)
    (.inr fun _ h => absurd h List.not_mem_nil)

/-- An earlier write of a run is read back, if no call after it writes there. -/
theorem MadeCalls.storedEarlier {pre post : List BusCall} {a : Word} {v : Byte} {s t : State}
    (h : MadeCalls (pre ++ .write a v :: post) s t) (hm : Memory.wf s.mem = true)
    (hw : ∀ u, .write a u ∉ post) : StoredEarlier t a v := fun hd hs =>
  h.run.stored hm hw ((isDevice_congr h.run.io a).symm.trans hd)
    (.inl ((isShared_congr h.run.io a).symm.trans hs))

/-- `SetZN(v)` leaves Zero and Negative those of `v` (10_state.md R20). -/
theorem hasZN_of_setZN {t : State} {v p : Byte} (h : t.p = setZN v p) : HasZN v t := by
  constructor
  · rw [h, readFlag_setZN, if_neg (by decide), if_pos rfl]
    exact Bool.eq_iff_iff.2 (by simp)
  · rw [h, readFlag_setZN, if_pos rfl, BitVec.msb_eq_getLsbD_last]

/-- The stack slots of one entry are three different addresses. -/
theorem stackAddr_sub_ne (sp : Byte) :
    stackAddr sp ≠ stackAddr (sp - 1) ∧ stackAddr sp ≠ stackAddr (sp - 2) ∧
      stackAddr (sp - 1) ≠ stackAddr (sp - 2) := by
  refine ⟨fun h => ?_, fun h => ?_, fun h => ?_⟩ <;>
  · have := stackAddr_inj h
    bv_omega

/-- The two bytes of a pushed word, where the stack is RAM (20_memory.md R54). -/
theorem pushWord_stored {s : State} (w : Word) (hm : Memory.wf s.mem = true) :
    StoredEarlier (pushWord w s) (stackAddr s.sp) (hi w) ∧
    StoredAt (pushWord w s) (stackAddr (s.sp - 1)) (lo w) := by
  obtain ⟨h01, -, -⟩ := stackAddr_sub_ne s.sp
  have h := pushWord_calls w s
  exact ⟨h.storedEarlier (pre := []) hm (by simpa using h01), h.storedAt (pre := [_]) hm⟩

/-- The entry sequence does what 60_exceptions.md R245 says, through any vector above the stack. -/
theorem enterInterrupt_entered {vec : Word} (brk : Bool) {s : State}
    (hm : Memory.wf s.mem = true) (hv : 0x0200 ≤ vec.toNat) (hv' : vec.toNat < 0xFFFF) :
    Entered vec brk s.pc s (enterInterrupt vec brk s) := by
  obtain ⟨h01, h02, h12⟩ := stackAddr_sub_ne s.sp
  obtain ⟨l, h, hpc, hc⟩ := enterInterrupt_calls vec brk s
  have hs : ∀ a : Word, 0x0200 ≤ a.toNat → ∀ k, a ≠ stackAddr k := fun a ha k h => by
    have := congrArg BitVec.toNat h
    rw [stackAddr_toNat] at this
    omega
  have hs1 : ∀ k, vec + 1 ≠ stackAddr k := hs _ (by bv_omega)
  simp only [BitVec.ofNat_eq_ofNat] at h01 h02 h12 hs1
  exact ⟨enterInterrupt_frame vec brk s, by simp, by simp,
    hc.storedEarlier (pre := []) hm (by simp [h01, h02]),
    hc.storedEarlier (pre := [_]) hm (by simp [h12]),
    hc.storedEarlier (pre := [_, _]) hm (by simp),
    l, h, hpc, hc.answeredLater (pre := [_, _, _]) (by simp [hs vec hv]),
    hc.answeredLater (pre := [_, _, _, _]) (by simp [hs1]), hc⟩

/-- The entry sequence told of other states with the same bus, stack pointer and status byte. -/
theorem Entered.congr {vec : Word} {brk : Bool} {ret : Word} {s s' t t' : State}
    (h : Entered vec brk ret s t)
    (hs : SameBus s s' ∧ s'.busLog = s.busLog ∧ s'.sp = s.sp ∧ s'.p = s.p)
    (ht : SameBus t t' ∧ t'.busLog = t.busLog ∧ t'.sp = t.sp ∧ t'.p = t.p ∧ t'.pc = t.pc)
    (hf : Frame [.sp] [.interruptDisable]
      [stackAddr s.sp, stackAddr (s.sp - 1), stackAddr (s.sp - 2)] s' t') :
    Entered vec brk ret s' t' := by
  obtain ⟨hsb, hsl, hsp, hp⟩ := hs
  obtain ⟨htb, htl, htsp, htp, htpc⟩ := ht
  obtain ⟨-, h1, h2, h3, h4, h5, l, u, h6, h7, h8, h9⟩ := h
  have hst : ∀ a v, StoredEarlier t a v → StoredEarlier t' a v := fun a v he hd hsh =>
    (byteAt_congr htb.mem a).trans (he ((isDevice_congr htb.io a).symm.trans hd)
      ((isShared_congr htb.io a).symm.trans hsh))
  have han : ∀ a v, AnsweredLater s a v → AnsweredLater s' a v := fun a v he hd hsh =>
    (he ((isDevice_congr hsb.io a).symm.trans hd) ((isShared_congr hsb.io a).symm.trans hsh)).trans
      (byteAt_congr hsb.mem a).symm
  rw [← hsp] at hf h1 h3 h4 h5 h9
  rw [← hp] at h5 h9
  exact ⟨hf, htsp.trans h1, by rw [htp]; exact h2, hst _ _ h3, hst _ _ h4, hst _ _ h5, l, u,
    htpc.trans h6, han _ _ h7, han _ _ h8, h9.congr hsb hsl htb htl⟩

/-- The place of an operand that is not an Immediate, and when it is the accumulator. -/
theorem resolve_place {o : Operand} (h : o.mode ≠ .immediate) (s : State) :
    (∀ d, (resolve o s).place ≠ .imm d) ∧ (o = .acc ↔ (resolve o s).place = .acc) := by
  cases o <;> simp [resolve, direct, indexed, Operand.mode] at h ⊢

/-- What a write of a place other than an Immediate keeps. -/
theorem writePlace_kept {p : Place} (v : Byte) (s : State) (h : ∀ d, p ≠ .imm d) :
    (writePlace p v s).x = s.x ∧ (writePlace p v s).y = s.y ∧ (writePlace p v s).sp = s.sp ∧
      (writePlace p v s).p = s.p ∧ (writePlace p v s).pc = s.pc ∧
      (writePlace p v s).io = s.io := by
  cases p with
  | imm d => exact absurd rfl (h d)
  | acc => simp [writePlace]
  | ea a => simp [writePlace]

/-- The write class, whole (44_load_store_transfer.md R153 to R155). -/
theorem storeOp_does {o : Operand} (v : Byte) {s : State} (hm : Memory.wf s.mem = true)
    (hi : o.mode ≠ .immediate) (ha : o ≠ .acc) :
    Frame [] [] (resolve o s).place.stored s (storeOp o v s) ∧
    (storeOp o v s).p = s.p ∧ (storeOp o v s).pc = s.pc ∧
    ∀ a, (resolve o s).place = .ea a →
      StoredAt (storeOp o v s) a v ∧ MadeCalls [.write a v] (resolve o s).st (storeOp o v s) := by
  obtain ⟨hp, hacc⟩ := resolve_place hi s
  obtain ⟨-, -, -, kp, kpc, -⟩ := writePlace_kept v (resolve o s).st hp
  rw [storeOp_eq]
  refine ⟨?_, by simp [kp], by simp [kpc], fun a hea => ?_⟩
  · have hw := writePlace_frame v (resolve o s).st hp
    rw [if_neg fun h => ha (hacc.2 h)] at hw
    exact ((resolve_frame o s).mono (by simp) (by simp) (by simp)).trans
      (hw.trans ((charge_frame _ _ _ _).mono (by simp) (by simp) (by simp)))
  · have h : MadeCalls [.write a v] (resolve o s).st
        (charge (storeCycles o) (resolve o s).extra 0
          (writePlace (resolve o s).place v (resolve o s).st)) := by
      rw [hea]
      exact (busWrite_calls a v _).congr (.refl _) rfl ⟨rfl, rfl, rfl⟩ rfl
    obtain ⟨_, _, hr⟩ := resolve_calls o s
    exact ⟨h.storedAt (pre := []) (hr.run.wf hm), h⟩

/-- The read-modify-write class, whole: the result and the status byte come from the operand byte
and the old status byte (43_shifts.md R144, 45_compare_incdec.md R174, R175). -/
theorem modifyOp_does {o : Operand} (f : Byte → Byte → Byte × Byte) (flags : List Flag) {s : State}
    (hm : Memory.wf s.mem = true) (hi : o.mode ≠ .immediate)
    (hf : ∀ g, g ∉ flags → readFlag g (f (operandByte o s) s.p).2 = readFlag g s.p) :
    ModifyDone o flags (f (operandByte o s) s.p).1 s (modifyOp o f s) ∧
    (modifyOp o f s).p = (f (operandByte o s) s.p).2 := by
  obtain ⟨hp, hacc⟩ := resolve_place hi s
  rw [modifyOp_eq]
  obtain ⟨-, -, -, kp, kpc, -⟩ := writePlace_kept (f (operandByte o s) s.p).1
    ((afterOperand o s).setP (f (operandByte o s) s.p).2) hp
  refine ⟨⟨?_, by simp [kpc], ?_, fun a hea => ?_⟩, by simp [kp]⟩
  · have ho : Frame [] flags [] s ((afterOperand o s).setP (f (operandByte o s) s.p).2) :=
      ((afterOperand_frame o s).mono (by simp) (by simp) (by simp)).trans
        (.of_same ⟨rfl, rfl, rfl⟩ (by simp) (by simp) (by simp) (by simp) (by simpa using hf) (by simp))
    have hw := writePlace_frame (f (operandByte o s) s.p).1
      ((afterOperand o s).setP (f (operandByte o s) s.p).2) hp
    simp only [hacc]
    exact (ho.mono (by simp) (by simp) (by simp)).trans ((hw.mono (by simp) (by simp) (by simp)).trans
      ((charge_frame _ _ _ _).mono (by simp) (by simp) (by simp)))
  · rintro rfl
    exact ⟨rfl, .of_same rfl ⟨rfl, rfl, rfl⟩⟩
  · have h : MadeCalls [.write a (f (operandByte o s) s.p).1] (afterOperand o s)
        (charge (modifyCycles o) (resolve o s).extra 0
          (writePlace (resolve o s).place (f (operandByte o s) s.p).1
            ((afterOperand o s).setP (f (operandByte o s) s.p).2))) := by
      rw [hea]
      exact (busWrite_calls a _ ((afterOperand o s).setP (f (operandByte o s) s.p).2)).congr
        ⟨rfl, rfl, rfl⟩ rfl ⟨rfl, rfl, rfl⟩ rfl
    exact ⟨h.storedAt (pre := []) (afterOperand_wf o hm), h⟩

/-- The branch target in integers: the next instruction's address plus the signed displacement, mod
65536 (40_engine_and_addressing.md R111). -/
theorem branchTarget_toNat (d : Byte) (s : State) :
    ((branchTarget d s).toNat : Int) = ((s.pc.toNat : Int) + d.toInt) % 65536 := by
  have h : (sext16 d).toNat = if d.toNat < 128 then d.toNat else d.toNat + 65280 := by
    rw [sext16, BitVec.toNat_signExtend, BitVec.msb_eq_decide]
    have := d.isLt
    by_cases hd : d.toNat < 128
    · simp [hd, Nat.not_le.2 hd, Nat.mod_eq_of_lt (show d.toNat < 65536 by omega)]
    · simp [hd, Nat.le_of_not_lt hd, Nat.mod_eq_of_lt (show d.toNat < 65536 by omega)]
  have := d.isLt
  rw [branchTarget, BitVec.toNat_add, h, BitVec.toInt_eq_toNat_cond]
  split <;> split <;> omega

end Sys2Proof.Machine
end

