-- ==== Sys2Proof/Laws/PerInstr.lean ====
section
/-! SUPPORT. Per-instruction statements about the syntax: the family `Shape`. -/

namespace Sys2Proof.Laws.Shape

/-- A well-formed term encodes to as many bytes as its form is long (30_encoding.md R71, R72); an
ill-formed term has no encoding. -/
def Statement (i : Instr) : Prop :=
  (WellFormed i ∧ (encode i).length = i.length) ∨ (¬ WellFormed i ∧ encode i = [])

theorem adc (o : Operand) : Statement (.adc o) := by
  cases o <;> first | exact .inl ⟨rfl, rfl⟩ | exact .inr ⟨Bool.false_ne_true, rfl⟩

theorem sbc (o : Operand) : Statement (.sbc o) := by
  cases o <;> first | exact .inl ⟨rfl, rfl⟩ | exact .inr ⟨Bool.false_ne_true, rfl⟩

theorem and (o : Operand) : Statement (.and o) := by
  cases o <;> first | exact .inl ⟨rfl, rfl⟩ | exact .inr ⟨Bool.false_ne_true, rfl⟩

theorem ora (o : Operand) : Statement (.ora o) := by
  cases o <;> first | exact .inl ⟨rfl, rfl⟩ | exact .inr ⟨Bool.false_ne_true, rfl⟩

theorem eor (o : Operand) : Statement (.eor o) := by
  cases o <;> first | exact .inl ⟨rfl, rfl⟩ | exact .inr ⟨Bool.false_ne_true, rfl⟩

theorem bit (o : Operand) : Statement (.bit o) := by
  cases o <;> first | exact .inl ⟨rfl, rfl⟩ | exact .inr ⟨Bool.false_ne_true, rfl⟩

theorem asl (o : Operand) : Statement (.asl o) := by
  cases o <;> first | exact .inl ⟨rfl, rfl⟩ | exact .inr ⟨Bool.false_ne_true, rfl⟩

theorem lsr (o : Operand) : Statement (.lsr o) := by
  cases o <;> first | exact .inl ⟨rfl, rfl⟩ | exact .inr ⟨Bool.false_ne_true, rfl⟩

theorem rol (o : Operand) : Statement (.rol o) := by
  cases o <;> first | exact .inl ⟨rfl, rfl⟩ | exact .inr ⟨Bool.false_ne_true, rfl⟩

theorem ror (o : Operand) : Statement (.ror o) := by
  cases o <;> first | exact .inl ⟨rfl, rfl⟩ | exact .inr ⟨Bool.false_ne_true, rfl⟩

theorem lda (o : Operand) : Statement (.lda o) := by
  cases o <;> first | exact .inl ⟨rfl, rfl⟩ | exact .inr ⟨Bool.false_ne_true, rfl⟩

theorem ldx (o : Operand) : Statement (.ldx o) := by
  cases o <;> first | exact .inl ⟨rfl, rfl⟩ | exact .inr ⟨Bool.false_ne_true, rfl⟩

theorem ldy (o : Operand) : Statement (.ldy o) := by
  cases o <;> first | exact .inl ⟨rfl, rfl⟩ | exact .inr ⟨Bool.false_ne_true, rfl⟩

theorem sta (o : Operand) : Statement (.sta o) := by
  cases o <;> first | exact .inl ⟨rfl, rfl⟩ | exact .inr ⟨Bool.false_ne_true, rfl⟩

theorem stx (o : Operand) : Statement (.stx o) := by
  cases o <;> first | exact .inl ⟨rfl, rfl⟩ | exact .inr ⟨Bool.false_ne_true, rfl⟩

theorem sty (o : Operand) : Statement (.sty o) := by
  cases o <;> first | exact .inl ⟨rfl, rfl⟩ | exact .inr ⟨Bool.false_ne_true, rfl⟩

theorem tax : Statement .tax := .inl ⟨rfl, rfl⟩

theorem tay : Statement .tay := .inl ⟨rfl, rfl⟩

theorem txa : Statement .txa := .inl ⟨rfl, rfl⟩

theorem tya : Statement .tya := .inl ⟨rfl, rfl⟩

theorem tsx : Statement .tsx := .inl ⟨rfl, rfl⟩

theorem txs : Statement .txs := .inl ⟨rfl, rfl⟩

theorem cmp (o : Operand) : Statement (.cmp o) := by
  cases o <;> first | exact .inl ⟨rfl, rfl⟩ | exact .inr ⟨Bool.false_ne_true, rfl⟩

theorem cpx (o : Operand) : Statement (.cpx o) := by
  cases o <;> first | exact .inl ⟨rfl, rfl⟩ | exact .inr ⟨Bool.false_ne_true, rfl⟩

theorem cpy (o : Operand) : Statement (.cpy o) := by
  cases o <;> first | exact .inl ⟨rfl, rfl⟩ | exact .inr ⟨Bool.false_ne_true, rfl⟩

theorem inc (o : Operand) : Statement (.inc o) := by
  cases o <;> first | exact .inl ⟨rfl, rfl⟩ | exact .inr ⟨Bool.false_ne_true, rfl⟩

theorem dec (o : Operand) : Statement (.dec o) := by
  cases o <;> first | exact .inl ⟨rfl, rfl⟩ | exact .inr ⟨Bool.false_ne_true, rfl⟩

theorem inx : Statement .inx := .inl ⟨rfl, rfl⟩

theorem iny : Statement .iny := .inl ⟨rfl, rfl⟩

theorem dex : Statement .dex := .inl ⟨rfl, rfl⟩

theorem dey : Statement .dey := .inl ⟨rfl, rfl⟩

theorem bcc (d : Byte) : Statement (.bcc d) := .inl ⟨rfl, rfl⟩

theorem bcs (d : Byte) : Statement (.bcs d) := .inl ⟨rfl, rfl⟩

theorem beq (d : Byte) : Statement (.beq d) := .inl ⟨rfl, rfl⟩

theorem bne (d : Byte) : Statement (.bne d) := .inl ⟨rfl, rfl⟩

theorem bmi (d : Byte) : Statement (.bmi d) := .inl ⟨rfl, rfl⟩

theorem bpl (d : Byte) : Statement (.bpl d) := .inl ⟨rfl, rfl⟩

theorem bvc (d : Byte) : Statement (.bvc d) := .inl ⟨rfl, rfl⟩

theorem bvs (d : Byte) : Statement (.bvs d) := .inl ⟨rfl, rfl⟩

theorem jmp (t : Target) : Statement (.jmp t) := by cases t <;> exact .inl ⟨rfl, rfl⟩

theorem jsr (w : Word) : Statement (.jsr w) := .inl ⟨rfl, rfl⟩

theorem rts : Statement .rts := .inl ⟨rfl, rfl⟩

theorem pha : Statement .pha := .inl ⟨rfl, rfl⟩

theorem php : Statement .php := .inl ⟨rfl, rfl⟩

theorem pla : Statement .pla := .inl ⟨rfl, rfl⟩

theorem plp : Statement .plp := .inl ⟨rfl, rfl⟩

theorem brk : Statement .brk := .inl ⟨rfl, rfl⟩

theorem rti : Statement .rti := .inl ⟨rfl, rfl⟩

theorem nop : Statement .nop := .inl ⟨rfl, rfl⟩

theorem clc : Statement .clc := .inl ⟨rfl, rfl⟩

theorem sec : Statement .sec := .inl ⟨rfl, rfl⟩

theorem cli : Statement .cli := .inl ⟨rfl, rfl⟩

theorem sei : Statement .sei := .inl ⟨rfl, rfl⟩

theorem cld : Statement .cld := .inl ⟨rfl, rfl⟩

theorem sed : Statement .sed := .inl ⟨rfl, rfl⟩

theorem clv : Statement .clv := .inl ⟨rfl, rfl⟩

theorem undoc (op : Byte) : Statement (.undoc op) := by
  cases h : undocumentedOpcodes.contains op with
  | true => exact .inl ⟨h, by simp only [encode, Instr.opcode, h, if_true]; rfl⟩
  | false =>
    exact .inr ⟨fun w => Bool.false_ne_true (h.symm.trans w),
      by simp only [encode, Instr.opcode, h, Bool.false_eq_true, if_false]⟩

end Sys2Proof.Laws.Shape
end

