-- ==== Sys2Proof/Tests/Slice0.lean ====
section
/-! SUPPORT. The model's own tests and the witnesses of the statements' hypotheses. Expected results
are the rows of 95_test_vectors.md section 2 and the encodings of 30_encoding.md R71, R75, R77; none
is the model's own answer. -/

namespace Sys2Proof.Machine

/-! ### Helpers -/

/-- One step gives a next state with the property. -/
def runs (s : State) (q : State → Bool) : Bool :=
  match step s with
  | .next t => q t
  | .fault _ | .refused _ => false

/-- Put bytes in RAM. -/
def withCells : List (Word × Byte) → State → State
  | [], s => s
  | (a, v) :: rest, s => withCells rest { s with mem := Memory.write s.mem a.toNat v }

/-- After Reset, with the instruction at `pc` and bytes in memory. -/
def at_ (pc : Word) (code : List Byte) (cells : List (Word × Byte)) : State :=
  withCells cells { placeBytes pc code State.reset with pc := pc }

/-- The bytes decode to exactly this instruction, which is well formed and encodes to them. -/
def reads (bs : List Byte) (i : Instr) : Bool :=
  match decode bs with
  | .ok (j, rest) => j == i && rest == [] && i.wellFormed && encode i == bs
  | .error _ => false

/-! ### WellFormed: an ill-formed term for each check, refused -/

theorem test_illFormed_alu : (Instr.wellFormed (.adc .acc) || Instr.wellFormed (.sbc (.zpy 0)) ||
    Instr.wellFormed (.and .acc) || Instr.wellFormed (.ora (.zpy 0)) ||
    Instr.wellFormed (.eor .acc) || Instr.wellFormed (.lda (.zpy 0)) ||
    Instr.wellFormed (.cmp .acc)) = false := by decide
theorem test_illFormed_bit : Instr.wellFormed (.bit (.imm 0)) = false := by decide
theorem test_illFormed_shift : (Instr.wellFormed (.asl (.imm 0)) ||
    Instr.wellFormed (.lsr (.absy 0)) || Instr.wellFormed (.rol (.zpy 0)) ||
    Instr.wellFormed (.ror (.indx 0))) = false := by decide
theorem test_illFormed_ldx : Instr.wellFormed (.ldx (.zpx 0)) = false := by decide
theorem test_illFormed_ldy : Instr.wellFormed (.ldy (.absy 0)) = false := by decide
theorem test_illFormed_sta : Instr.wellFormed (.sta (.imm 0)) = false := by decide
theorem test_illFormed_stx : Instr.wellFormed (.stx (.zpx 0)) = false := by decide
theorem test_illFormed_sty : Instr.wellFormed (.sty (.absx 0)) = false := by decide
theorem test_illFormed_cpx_cpy : (Instr.wellFormed (.cpx (.zpx 0)) ||
    Instr.wellFormed (.cpy (.indy 0))) = false := by decide
theorem test_illFormed_inc_dec : (Instr.wellFormed (.inc .acc) ||
    Instr.wellFormed (.dec (.absy 0))) = false := by decide
theorem test_illFormed_undoc : Instr.wellFormed (.undoc 0xEA) = false := by decide
theorem test_illFormed_has_no_words : encode (.sta (.imm 0)) = [] := by decide

/-! ### Decode: the words of 30_encoding.md R75, operand bytes 0xF5 and 0x12 -/

theorem test_decode_arithmetic : (
    reads [0x61, 0xF5] (.adc (.indx 0xF5)) && reads [0x65, 0xF5] (.adc (.zp 0xF5)) &&
    reads [0x69, 0xF5] (.adc (.imm 0xF5)) && reads [0x6D, 0xF5, 0x12] (.adc (.abs 0x12F5)) &&
    reads [0x71, 0xF5] (.adc (.indy 0xF5)) && reads [0x75, 0xF5] (.adc (.zpx 0xF5)) &&
    reads [0x79, 0xF5, 0x12] (.adc (.absy 0x12F5)) &&
    reads [0x7D, 0xF5, 0x12] (.adc (.absx 0x12F5)) && reads [0xE1, 0xF5] (.sbc (.indx 0xF5)) &&
    reads [0xE5, 0xF5] (.sbc (.zp 0xF5)) && reads [0xE9, 0xF5] (.sbc (.imm 0xF5)) &&
    reads [0xED, 0xF5, 0x12] (.sbc (.abs 0x12F5)) && reads [0xF1, 0xF5] (.sbc (.indy 0xF5)) &&
    reads [0xF5, 0xF5] (.sbc (.zpx 0xF5)) && reads [0xF9, 0xF5, 0x12] (.sbc (.absy 0x12F5)) &&
    reads [0xFD, 0xF5, 0x12] (.sbc (.absx 0x12F5))) := by decide

theorem test_decode_logical : (
    reads [0x21, 0xF5] (.and (.indx 0xF5)) && reads [0x25, 0xF5] (.and (.zp 0xF5)) &&
    reads [0x29, 0xF5] (.and (.imm 0xF5)) && reads [0x2D, 0xF5, 0x12] (.and (.abs 0x12F5)) &&
    reads [0x31, 0xF5] (.and (.indy 0xF5)) && reads [0x35, 0xF5] (.and (.zpx 0xF5)) &&
    reads [0x39, 0xF5, 0x12] (.and (.absy 0x12F5)) &&
    reads [0x3D, 0xF5, 0x12] (.and (.absx 0x12F5)) && reads [0x01, 0xF5] (.ora (.indx 0xF5)) &&
    reads [0x05, 0xF5] (.ora (.zp 0xF5)) && reads [0x09, 0xF5] (.ora (.imm 0xF5)) &&
    reads [0x0D, 0xF5, 0x12] (.ora (.abs 0x12F5)) && reads [0x11, 0xF5] (.ora (.indy 0xF5)) &&
    reads [0x15, 0xF5] (.ora (.zpx 0xF5)) && reads [0x19, 0xF5, 0x12] (.ora (.absy 0x12F5)) &&
    reads [0x1D, 0xF5, 0x12] (.ora (.absx 0x12F5)) && reads [0x41, 0xF5] (.eor (.indx 0xF5)) &&
    reads [0x45, 0xF5] (.eor (.zp 0xF5)) && reads [0x49, 0xF5] (.eor (.imm 0xF5)) &&
    reads [0x4D, 0xF5, 0x12] (.eor (.abs 0x12F5)) && reads [0x51, 0xF5] (.eor (.indy 0xF5)) &&
    reads [0x55, 0xF5] (.eor (.zpx 0xF5)) && reads [0x59, 0xF5, 0x12] (.eor (.absy 0x12F5)) &&
    reads [0x5D, 0xF5, 0x12] (.eor (.absx 0x12F5)) && reads [0x24, 0xF5] (.bit (.zp 0xF5)) &&
    reads [0x2C, 0xF5, 0x12] (.bit (.abs 0x12F5))) := by decide

theorem test_decode_shifts : (
    reads [0x06, 0xF5] (.asl (.zp 0xF5)) && reads [0x0A] (.asl .acc) &&
    reads [0x0E, 0xF5, 0x12] (.asl (.abs 0x12F5)) && reads [0x16, 0xF5] (.asl (.zpx 0xF5)) &&
    reads [0x1E, 0xF5, 0x12] (.asl (.absx 0x12F5)) && reads [0x46, 0xF5] (.lsr (.zp 0xF5)) &&
    reads [0x4A] (.lsr .acc) && reads [0x4E, 0xF5, 0x12] (.lsr (.abs 0x12F5)) &&
    reads [0x56, 0xF5] (.lsr (.zpx 0xF5)) && reads [0x5E, 0xF5, 0x12] (.lsr (.absx 0x12F5)) &&
    reads [0x26, 0xF5] (.rol (.zp 0xF5)) && reads [0x2A] (.rol .acc) &&
    reads [0x2E, 0xF5, 0x12] (.rol (.abs 0x12F5)) && reads [0x36, 0xF5] (.rol (.zpx 0xF5)) &&
    reads [0x3E, 0xF5, 0x12] (.rol (.absx 0x12F5)) && reads [0x66, 0xF5] (.ror (.zp 0xF5)) &&
    reads [0x6A] (.ror .acc) && reads [0x6E, 0xF5, 0x12] (.ror (.abs 0x12F5)) &&
    reads [0x76, 0xF5] (.ror (.zpx 0xF5)) && reads [0x7E, 0xF5, 0x12] (.ror (.absx 0x12F5))) := by decide

theorem test_decode_loads : (
    reads [0xA1, 0xF5] (.lda (.indx 0xF5)) && reads [0xA5, 0xF5] (.lda (.zp 0xF5)) &&
    reads [0xA9, 0xF5] (.lda (.imm 0xF5)) && reads [0xAD, 0xF5, 0x12] (.lda (.abs 0x12F5)) &&
    reads [0xB1, 0xF5] (.lda (.indy 0xF5)) && reads [0xB5, 0xF5] (.lda (.zpx 0xF5)) &&
    reads [0xB9, 0xF5, 0x12] (.lda (.absy 0x12F5)) &&
    reads [0xBD, 0xF5, 0x12] (.lda (.absx 0x12F5)) && reads [0xA2, 0xF5] (.ldx (.imm 0xF5)) &&
    reads [0xA6, 0xF5] (.ldx (.zp 0xF5)) && reads [0xAE, 0xF5, 0x12] (.ldx (.abs 0x12F5)) &&
    reads [0xB6, 0xF5] (.ldx (.zpy 0xF5)) && reads [0xBE, 0xF5, 0x12] (.ldx (.absy 0x12F5)) &&
    reads [0xA0, 0xF5] (.ldy (.imm 0xF5)) && reads [0xA4, 0xF5] (.ldy (.zp 0xF5)) &&
    reads [0xAC, 0xF5, 0x12] (.ldy (.abs 0x12F5)) && reads [0xB4, 0xF5] (.ldy (.zpx 0xF5)) &&
    reads [0xBC, 0xF5, 0x12] (.ldy (.absx 0x12F5))) := by decide

theorem test_decode_stores : (
    reads [0x81, 0xF5] (.sta (.indx 0xF5)) && reads [0x85, 0xF5] (.sta (.zp 0xF5)) &&
    reads [0x8D, 0xF5, 0x12] (.sta (.abs 0x12F5)) && reads [0x91, 0xF5] (.sta (.indy 0xF5)) &&
    reads [0x95, 0xF5] (.sta (.zpx 0xF5)) && reads [0x99, 0xF5, 0x12] (.sta (.absy 0x12F5)) &&
    reads [0x9D, 0xF5, 0x12] (.sta (.absx 0x12F5)) && reads [0x86, 0xF5] (.stx (.zp 0xF5)) &&
    reads [0x8E, 0xF5, 0x12] (.stx (.abs 0x12F5)) && reads [0x96, 0xF5] (.stx (.zpy 0xF5)) &&
    reads [0x84, 0xF5] (.sty (.zp 0xF5)) && reads [0x8C, 0xF5, 0x12] (.sty (.abs 0x12F5)) &&
    reads [0x94, 0xF5] (.sty (.zpx 0xF5))) := by decide

theorem test_decode_transfers : (
    reads [0xAA] .tax && reads [0xA8] .tay && reads [0x8A] .txa && reads [0x98] .tya &&
    reads [0xBA] .tsx && reads [0x9A] .txs) := by decide

theorem test_decode_compares : (
    reads [0xC1, 0xF5] (.cmp (.indx 0xF5)) && reads [0xC5, 0xF5] (.cmp (.zp 0xF5)) &&
    reads [0xC9, 0xF5] (.cmp (.imm 0xF5)) && reads [0xCD, 0xF5, 0x12] (.cmp (.abs 0x12F5)) &&
    reads [0xD1, 0xF5] (.cmp (.indy 0xF5)) && reads [0xD5, 0xF5] (.cmp (.zpx 0xF5)) &&
    reads [0xD9, 0xF5, 0x12] (.cmp (.absy 0x12F5)) &&
    reads [0xDD, 0xF5, 0x12] (.cmp (.absx 0x12F5)) && reads [0xE0, 0xF5] (.cpx (.imm 0xF5)) &&
    reads [0xE4, 0xF5] (.cpx (.zp 0xF5)) && reads [0xEC, 0xF5, 0x12] (.cpx (.abs 0x12F5)) &&
    reads [0xC0, 0xF5] (.cpy (.imm 0xF5)) && reads [0xC4, 0xF5] (.cpy (.zp 0xF5)) &&
    reads [0xCC, 0xF5, 0x12] (.cpy (.abs 0x12F5))) := by decide

theorem test_decode_incdec : (
    reads [0xE6, 0xF5] (.inc (.zp 0xF5)) && reads [0xEE, 0xF5, 0x12] (.inc (.abs 0x12F5)) &&
    reads [0xF6, 0xF5] (.inc (.zpx 0xF5)) && reads [0xFE, 0xF5, 0x12] (.inc (.absx 0x12F5)) &&
    reads [0xC6, 0xF5] (.dec (.zp 0xF5)) && reads [0xCE, 0xF5, 0x12] (.dec (.abs 0x12F5)) &&
    reads [0xD6, 0xF5] (.dec (.zpx 0xF5)) && reads [0xDE, 0xF5, 0x12] (.dec (.absx 0x12F5)) &&
    reads [0xE8] .inx && reads [0xC8] .iny && reads [0xCA] .dex && reads [0x88] .dey) := by decide

theorem test_decode_branches : (
    reads [0x90, 0xF5] (.bcc 0xF5) && reads [0xB0, 0xF5] (.bcs 0xF5) &&
    reads [0xF0, 0xF5] (.beq 0xF5) && reads [0xD0, 0xF5] (.bne 0xF5) &&
    reads [0x30, 0xF5] (.bmi 0xF5) && reads [0x10, 0xF5] (.bpl 0xF5) &&
    reads [0x50, 0xF5] (.bvc 0xF5) && reads [0x70, 0xF5] (.bvs 0xF5)) := by decide

theorem test_decode_jumps : (
    reads [0x4C, 0xF5, 0x12] (.jmp (.abs 0x12F5)) &&
    reads [0x6C, 0xF5, 0x12] (.jmp (.ind 0x12F5)) && reads [0x20, 0xF5, 0x12] (.jsr 0x12F5) &&
    reads [0x60] .rts) := by decide

theorem test_decode_stack : (
    reads [0x48] .pha && reads [0x08] .php && reads [0x68] .pla && reads [0x28] .plp) := by decide

theorem test_decode_system : (
    reads [0x00] .brk && reads [0x40] .rti && reads [0xEA] .nop && reads [0x18] .clc &&
    reads [0x38] .sec && reads [0x58] .cli && reads [0x78] .sei && reads [0xD8] .cld &&
    reads [0xF8] .sed && reads [0xB8] .clv) := by decide

theorem test_decode_undocumented : (reads [0x02] (.undoc 0x02) && reads [0x80] (.undoc 0x80) &&
    reads [0x9C] (.undoc 0x9C) && reads [0xEB] (.undoc 0xEB) && reads [0xFF] (.undoc 0xFF)) := by
  decide
theorem test_decode_too_short : (match decode [0xAD, 0x00] with
    | .error .missingOperand => true | _ => false) = true := by decide
theorem test_decode_empty : (match decode [] with
    | .error .noOpcode => true | _ => false) = true := by decide
theorem test_decodeTableWord : decodeTableWord 24 0x1234AD = some (.lda (.abs 0x1234)) := by decide
theorem test_withFetchWord : runs (State.reset.withFetchWord 16 0x80A9)
    (fun t => t.a == 0x80 && t.pc == 0x0002) := by decide

/-! ### One step each: rows of 95_test_vectors.md sections 2.1 to 2.10 -/

theorem test_lda_immediate : runs (at_ 0x8000 [0xA9, 0x80] [])
    (fun t => t.a == 0x80 && t.p == 0xA4 && t.pc == 0x8002 && t.cyc == 1) := by decide
theorem test_lda_absoluteX_wraps_the_address_space :
    runs { at_ 0x8000 [0xBD, 0xFF, 0xFF] [(0x0000, 0x5A)] with x := 0x01 }
    (fun t => t.a == 0x5A && t.p == 0x24 && t.pc == 0x8003 && t.cyc == 4) := by decide
theorem test_adc_absoluteX_carry_in :
    runs { at_ 0x8000 [0x7D, 0xFF, 0x12] [(0x1300, 0x20)] with a := 0x10, x := 0x01, p := 0x25 }
    (fun t => t.a == 0x31 && t.p == 0x24 && t.pc == 0x8003 && t.cyc == 4) := by decide
theorem test_adc_decimal : runs { at_ 0x8000 [0x69, 0x01] [] with a := 0x99, p := 0x2C }
    (fun t => t.a == 0x00 && t.p == 0xAD && t.pc == 0x8002 && t.cyc == 1) := by decide
theorem test_sbc_indirectY_borrow :
    runs { at_ 0x8000 [0xF1, 0x40] [(0x0040, 0x01), (0x0041, 0x20), (0x2100, 0x00)] with y := 0xFF }
    (fun t => t.a == 0xFF && t.p == 0xA4 && t.pc == 0x8002 && t.cyc == 5) := by decide
theorem test_sbc_decimal : runs { at_ 0x8000 [0xE9, 0x01] [] with p := 0x2D }
    (fun t => t.a == 0x99 && t.p == 0xAC && t.pc == 0x8002 && t.cyc == 1) := by decide
theorem test_and_absolute : runs { at_ 0x8000 [0x2D, 0x00, 0x02] [(0x0200, 0x80)] with a := 0xF0 }
    (fun t => t.a == 0x80 && t.p == 0xA4 && t.pc == 0x8003 && t.cyc == 3) := by decide
theorem test_ora_indirectY :
    runs { at_ 0x8000 [0x11, 0x20] [(0x0020, 0xFF), (0x0021, 0x02), (0x0300,
      0xF0)] with a := 0x0F, y := 0x01 }
    (fun t => t.a == 0xFF && t.p == 0xA4 && t.pc == 0x8002 && t.cyc == 5) := by decide
theorem test_eor_zeroPage : runs { at_ 0x8000 [0x45, 0x10] [(0x0010, 0x5A)] with a := 0x5A }
    (fun t => t.a == 0x00 && t.p == 0x26 && t.pc == 0x8002 && t.cyc == 2) := by decide
theorem test_bit_zeroPage : runs { at_ 0x8000 [0x24, 0x10] [(0x0010, 0xC0)] with a := 0x01 }
    (fun t => t.p == 0xE6 && t.pc == 0x8002 && t.cyc == 2) := by decide
theorem test_bit_clears :
    runs { at_ 0x8000 [0x24, 0x10] [(0x0010, 0x3F)] with a := 0xFF, p := 0xE4 }
    (fun t => t.p == 0x24 && t.pc == 0x8002 && t.cyc == 2) := by decide
theorem test_asl_absoluteX_page_cross :
    runs { at_ 0x8000 [0x1E, 0xFF, 0x12] [(0x1300, 0x81)] with x := 0x01 }
    (fun t => t.p == 0x25 && t.pc == 0x8003 && t.cyc == 7 && byteAt t 0x1300 == 0x02) := by decide
theorem test_asl_accumulator : runs { at_ 0x8000 [0x0A] [] with a := 0xFF, p := 0x25 }
    (fun t => t.a == 0xFE && t.p == 0xA5 && t.pc == 0x8001 && t.cyc == 1) := by decide
theorem test_lsr_accumulator_clears_negative :
    runs { at_ 0x8000 [0x4A] [] with a := 0xFF, p := 0xA4 }
    (fun t => t.a == 0x7F && t.p == 0x25 && t.pc == 0x8001 && t.cyc == 1) := by decide
theorem test_lsr_zeroPage : runs (at_ 0x8000 [0x46, 0x40] [(0x0040, 0x03)])
    (fun t => t.p == 0x25 && t.pc == 0x8002 && t.cyc == 4 && byteAt t 0x0040 == 0x01) := by decide
theorem test_rol_accumulator : runs { at_ 0x8000 [0x2A] [] with a := 0x40, p := 0x25 }
    (fun t => t.a == 0x81 && t.p == 0xA4 && t.pc == 0x8001 && t.cyc == 1) := by decide
theorem test_rol_absoluteX : runs { at_ 0x8000 [0x3E, 0x00, 0x02] [(0x0205, 0xFF)] with x := 0x05 }
    (fun t => t.p == 0xA5 && t.pc == 0x8003 && t.cyc == 6 && byteAt t 0x0205 == 0xFE) := by decide
theorem test_ror_accumulator : runs { at_ 0x8000 [0x6A] [] with a := 0x01, p := 0x25 }
    (fun t => t.a == 0x80 && t.p == 0xA5 && t.pc == 0x8001 && t.cyc == 1) := by decide
theorem test_ror_zeroPageX_wraps :
    runs { at_ 0x8000 [0x76, 0xF0] [(0x0010, 0x02)] with x := 0x20, p := 0x25 }
    (fun t => t.p == 0xA4 && t.pc == 0x8002 && t.cyc == 5 && byteAt t 0x0010 == 0x81) := by decide
theorem test_ldx_zeroPageY_wraps :
    runs { at_ 0x8000 [0xB6, 0xF0] [(0x0010, 0x46), (0x0110, 0x99)] with y := 0x20 }
    (fun t => t.x == 0x46 && t.p == 0x24 && t.pc == 0x8002 && t.cyc == 3) := by decide
theorem test_ldx_absoluteY : runs { at_ 0x8000 [0xBE, 0x10, 0x20] [(0x2020, 0x81)] with y := 0x10 }
    (fun t => t.x == 0x81 && t.p == 0xA4 && t.pc == 0x8003 && t.cyc == 3) := by decide
theorem test_ldy_absoluteX : runs { at_ 0x8000 [0xBC, 0x00, 0x02] [(0x0201, 0x80)] with x := 0x01 }
    (fun t => t.y == 0x80 && t.p == 0xA4 && t.pc == 0x8003 && t.cyc == 3) := by decide
theorem test_sta_indirectY_page_cross :
    runs { at_ 0x8000 [0x91, 0x86] [(0x0086, 0xF8), (0x0087, 0x40)] with a := 0xCD, y := 0x10 }
    (fun t => t.p == 0x24 && t.pc == 0x8002 && t.cyc == 6 && byteAt t 0x4108 == 0xCD) := by decide
theorem test_sta_indirectX :
    runs { at_ 0x8000 [0x81, 0x20] [(0x0024, 0x00), (0x0025, 0x03)] with a := 0x5C, x := 0x04 }
    (fun t => t.p == 0x24 && t.pc == 0x8002 && t.cyc == 5 && byteAt t 0x0300 == 0x5C) := by decide
theorem test_stx_zeroPageY_wraps : runs { at_ 0x8000 [0x96, 0xFF] [] with x := 0x07, y := 0x01 }
    (fun t => t.p == 0x24 && t.pc == 0x8002 && t.cyc == 3 && byteAt t 0x0000 == 0x07) := by decide
theorem test_sty_zeroPage : runs { at_ 0x8000 [0x84, 0x10] [] with y := 0x33 }
    (fun t => t.p == 0x24 && t.pc == 0x8002 && t.cyc == 2 && byteAt t 0x0010 == 0x33) := by decide
theorem test_tax : runs { at_ 0x8000 [0xAA] [] with a := 0x80 }
    (fun t => t.x == 0x80 && t.p == 0xA4 && t.pc == 0x8001 && t.cyc == 1) := by decide
theorem test_tay : runs { at_ 0x8000 [0xA8] [] with y := 0x01 }
    (fun t => t.y == 0x00 && t.p == 0x26 && t.pc == 0x8001 && t.cyc == 1) := by decide
theorem test_txa : runs { at_ 0x8000 [0x8A] [] with a := 0x01 }
    (fun t => t.a == 0x00 && t.p == 0x26 && t.pc == 0x8001 && t.cyc == 1) := by decide
theorem test_tya : runs { at_ 0x8000 [0x98] [] with y := 0xFF }
    (fun t => t.a == 0xFF && t.p == 0xA4 && t.pc == 0x8001 && t.cyc == 1) := by decide
theorem test_tsx : runs (at_ 0x8000 [0xBA] [])
    (fun t => t.x == 0xFD && t.p == 0xA4 && t.pc == 0x8001 && t.cyc == 1) := by decide
theorem test_txs_sets_no_flag : runs { at_ 0x8000 [0x9A] [] with p := 0xA4 }
    (fun t => t.sp == 0x00 && t.p == 0xA4 && t.pc == 0x8001 && t.cyc == 1) := by decide
theorem test_cmp_keeps_overflow : runs { at_ 0x8000 [0xC9, 0x01] [] with a := 0x80, p := 0x64 }
    (fun t => t.p == 0x65 && t.pc == 0x8002 && t.cyc == 1) := by decide
theorem test_cmp_absoluteY :
    runs { at_ 0x8000 [0xD9, 0xF0, 0x20] [(0x2100, 0x55)] with a := 0x55, y := 0x10 }
    (fun t => t.p == 0x27 && t.pc == 0x8003 && t.cyc == 4) := by decide
theorem test_cpx_absolute : runs (at_ 0x8000 [0xEC, 0x00, 0x02] [(0x0200, 0x01)])
    (fun t => t.p == 0xA4 && t.pc == 0x8003 && t.cyc == 3) := by decide
theorem test_cpy_zeroPage : runs { at_ 0x8000 [0xC4, 0x10] [(0x0010, 0x00)] with y := 0xFF }
    (fun t => t.p == 0xA5 && t.pc == 0x8002 && t.cyc == 2) := by decide
theorem test_inc_absoluteX_page_cross :
    runs { at_ 0x8000 [0xFE, 0xFF, 0x12] [(0x1300, 0x7F)] with x := 0x01 }
    (fun t => t.p == 0xA4 && t.pc == 0x8003 && t.cyc == 7 && byteAt t 0x1300 == 0x80) := by decide
theorem test_dec_absolute_wraps : runs (at_ 0x8000 [0xCE, 0x00, 0x02] [])
    (fun t => t.p == 0xA4 && t.pc == 0x8003 && t.cyc == 5 && byteAt t 0x0200 == 0xFF) := by decide
theorem test_inx_wraps : runs { at_ 0x8000 [0xE8] [] with x := 0xFF }
    (fun t => t.x == 0x00 && t.p == 0x26 && t.pc == 0x8001 && t.cyc == 1) := by decide
theorem test_iny_wraps : runs { at_ 0x8000 [0xC8] [] with y := 0xFF }
    (fun t => t.y == 0x00 && t.p == 0x26 && t.pc == 0x8001 && t.cyc == 1) := by decide
theorem test_dex_wraps : runs (at_ 0x8000 [0xCA] [])
    (fun t => t.x == 0xFF && t.p == 0xA4 && t.pc == 0x8001 && t.cyc == 1) := by decide
theorem test_dey_wraps : runs (at_ 0x8000 [0x88] [])
    (fun t => t.y == 0xFF && t.p == 0xA4 && t.pc == 0x8001 && t.cyc == 1) := by decide
theorem test_bcc_taken : runs (at_ 0x8000 [0x90, 0x04] [])
    (fun t => t.p == 0x24 && t.pc == 0x8006 && t.cyc == 2) := by decide
theorem test_bcc_wraps_the_address_space : runs (at_ 0xFFF0 [0x90, 0x10] [])
    (fun t => t.p == 0x24 && t.pc == 0x0002 && t.cyc == 3) := by decide
theorem test_bcs_backward : runs { at_ 0x8010 [0xB0, 0xFC] [] with p := 0x25 }
    (fun t => t.p == 0x25 && t.pc == 0x800E && t.cyc == 2) := by decide
theorem test_bcs_not_taken : runs (at_ 0x8010 [0xB0, 0xFC] [])
    (fun t => t.p == 0x24 && t.pc == 0x8012 && t.cyc == 1) := by decide
theorem test_beq_page_cross : runs { at_ 0x80F0 [0xF0, 0x7F] [] with p := 0x26 }
    (fun t => t.p == 0x26 && t.pc == 0x8171 && t.cyc == 3) := by decide
theorem test_beq_not_taken : runs (at_ 0x80F0 [0xF0, 0x7F] [])
    (fun t => t.p == 0x24 && t.pc == 0x80F2 && t.cyc == 1) := by decide
theorem test_bne_cross_is_from_the_next_instruction : runs (at_ 0x80FF [0xD0, 0xFD] [])
    (fun t => t.p == 0x24 && t.pc == 0x80FE && t.cyc == 3) := by decide
theorem test_bne_not_taken : runs { at_ 0x8005 [0xD0, 0xFB] [] with p := 0x26 }
    (fun t => t.p == 0x26 && t.pc == 0x8007 && t.cyc == 1) := by decide
theorem test_bmi_taken : runs { at_ 0x9000 [0x30, 0x02] [] with p := 0xA4 }
    (fun t => t.p == 0xA4 && t.pc == 0x9004 && t.cyc == 2) := by decide
theorem test_bmi_not_taken : runs (at_ 0x9000 [0x30, 0x02] [])
    (fun t => t.p == 0x24 && t.pc == 0x9002 && t.cyc == 1) := by decide
theorem test_bpl_taken : runs (at_ 0x8000 [0x10, 0xFE] [])
    (fun t => t.p == 0x24 && t.pc == 0x8000 && t.cyc == 2) := by decide
theorem test_bpl_not_taken : runs { at_ 0x8000 [0x10, 0xFE] [] with p := 0xA4 }
    (fun t => t.p == 0xA4 && t.pc == 0x8002 && t.cyc == 1) := by decide
theorem test_bvc_page_cross : runs (at_ 0x80F0 [0x50, 0x10] [])
    (fun t => t.p == 0x24 && t.pc == 0x8102 && t.cyc == 3) := by decide
theorem test_bvc_not_taken : runs { at_ 0x80F0 [0x50, 0x10] [] with p := 0x64 }
    (fun t => t.p == 0x64 && t.pc == 0x80F2 && t.cyc == 1) := by decide
theorem test_bvs_taken : runs { at_ 0x8000 [0x70, 0x05] [] with p := 0x64 }
    (fun t => t.p == 0x64 && t.pc == 0x8007 && t.cyc == 2) := by decide
theorem test_bvs_not_taken : runs (at_ 0x8000 [0x70, 0x05] [])
    (fun t => t.p == 0x24 && t.pc == 0x8002 && t.cyc == 1) := by decide
theorem test_jmp_indirect : runs (at_ 0x8000 [0x6C, 0x00, 0x30] [(0x3000, 0x78), (0x3001, 0x56)])
    (fun t => t.p == 0x24 && t.pc == 0x5678 && t.cyc == 4) := by decide
theorem test_jmp_indirect_page_wrap :
    runs (at_ 0x8000 [0x6C, 0xFF, 0x10] [(0x1000, 0x12), (0x10FF, 0x34), (0x1100, 0x99)])
    (fun t => t.p == 0x24 && t.pc == 0x1234 && t.cyc == 4) := by decide
theorem test_jsr_over_a_page : runs (at_ 0x80FE [0x20, 0x00, 0x90] [])
    (fun t => t.sp == 0xFB && t.p == 0x24 && t.pc == 0x9000 && t.cyc == 5 &&
      byteAt t 0x01FD == 0x81 && byteAt t 0x01FC == 0x00) := by decide
theorem test_jsr_stack_wrap : runs { at_ 0x8000 [0x20, 0x00, 0x90] [] with sp := 0x00 }
    (fun t => t.sp == 0xFE && t.p == 0x24 && t.pc == 0x9000 && t.cyc == 5 &&
      byteAt t 0x0100 == 0x80 && byteAt t 0x01FF == 0x02) := by decide
theorem test_rts : runs { at_ 0x8000 [0x60] [(0x01FC, 0x02), (0x01FD, 0x80)] with sp := 0xFB }
    (fun t => t.sp == 0xFD && t.p == 0x24 && t.pc == 0x8003 && t.cyc == 5) := by decide
theorem test_rts_wraps : runs { at_ 0x8000 [0x60] [(0x0100, 0xFF), (0x0101, 0xFF)] with sp := 0xFF }
    (fun t => t.sp == 0x01 && t.p == 0x24 && t.pc == 0x0000 && t.cyc == 5) := by decide
theorem test_pha_stack_wrap : runs { at_ 0x8000 [0x48] [] with a := 0x42, sp := 0x00 }
    (fun t => t.sp == 0xFF && t.p == 0x24 && t.pc == 0x8001 && t.cyc == 2 &&
      byteAt t 0x0100 == 0x42) := by decide
theorem test_php_sets_break : runs { at_ 0x8000 [0x08] [] with p := 0x65 }
    (fun t => t.sp == 0xFC && t.p == 0x65 && t.pc == 0x8001 && t.cyc == 2 &&
      byteAt t 0x01FD == 0x75) := by decide
theorem test_pla_negative : runs { at_ 0x8000 [0x68] [(0x01FD, 0x80)] with sp := 0xFC }
    (fun t => t.a == 0x80 && t.sp == 0xFD && t.p == 0xA4 && t.pc == 0x8001 &&
      t.cyc == 3) := by decide
theorem test_pla_stack_wrap : runs { at_ 0x8000 [0x68] [(0x0100, 0x7F)] with sp := 0xFF }
    (fun t => t.a == 0x7F && t.sp == 0x00 && t.p == 0x24 && t.pc == 0x8001 &&
      t.cyc == 3) := by decide
theorem test_plp_ones : runs { at_ 0x8000 [0x28] [(0x01FD, 0xFF)] with sp := 0xFC }
    (fun t => t.sp == 0xFD && t.p == 0xEF && t.pc == 0x8001 && t.cyc == 3) := by decide
theorem test_plp_clears_break : runs { at_ 0x8000 [0x28] [(0x01FD, 0x10)] with sp := 0xFC }
    (fun t => t.sp == 0xFD && t.p == 0x20 && t.pc == 0x8001 && t.cyc == 3) := by decide
theorem test_brk_pushes_break :
    runs { at_ 0x8000 [0x00] [(0xFFFE, 0x00), (0xFFFF, 0x90)] with p := 0xE9 }
    (fun t => t.sp == 0xFA && t.p == 0xED && t.pc == 0x9000 && t.cyc == 6 &&
      byteAt t 0x01FD == 0x80 && byteAt t 0x01FC == 0x02 && byteAt t 0x01FB == 0xF9) := by decide
theorem test_brk_stack_wrap :
    runs { at_ 0x8000 [0x00] [(0xFFFE, 0x00), (0xFFFF, 0x90)] with sp := 0x01 }
    (fun t => t.sp == 0xFE && t.p == 0x24 && t.pc == 0x9000 && t.cyc == 6 &&
      byteAt t 0x0101 == 0x80 && byteAt t 0x0100 == 0x02 && byteAt t 0x01FF == 0x34) := by decide
theorem test_rti :
    runs { at_ 0x8000 [0x40] [(0x01FB, 0xC3), (0x01FC, 0x00), (0x01FD, 0x90)] with sp := 0xFA }
    (fun t => t.sp == 0xFD && t.p == 0xE3 && t.pc == 0x9000 && t.cyc == 5) := by decide
theorem test_rti_stack_wrap :
    runs { at_ 0x8000 [0x40] [(0x0100, 0x34), (0x0101, 0x12), (0x01FF, 0x00)] with sp := 0xFE }
    (fun t => t.sp == 0x01 && t.p == 0x20 && t.pc == 0x1234 && t.cyc == 5) := by decide
theorem test_nop : runs (at_ 0x8000 [0xEA] [])
    (fun t => t.p == 0x24 && t.pc == 0x8001 && t.cyc == 1) := by decide
theorem test_undoc_FF :
    runs { at_ 0x8000 [0xFF] [] with a := 0x12, x := 0x34, y := 0x56, p := 0xE7 }
    (fun t => t.p == 0xE7 && t.pc == 0x8001 && t.cyc == 1) := by decide
theorem test_undoc_80_is_one_byte : runs (at_ 0x8000 [0x80, 0x05] [])
    (fun t => t.p == 0x24 && t.pc == 0x8001 && t.cyc == 1) := by decide
theorem test_clc : runs { at_ 0x8000 [0x18] [] with p := 0x25 }
    (fun t => t.p == 0x24 && t.pc == 0x8001 && t.cyc == 1) := by decide
theorem test_sec : runs (at_ 0x8000 [0x38] [])
    (fun t => t.p == 0x25 && t.pc == 0x8001 && t.cyc == 1) := by decide
theorem test_cli : runs (at_ 0x8000 [0x58] [])
    (fun t => t.p == 0x20 && t.pc == 0x8001 && t.cyc == 1) := by decide
theorem test_sei : runs { at_ 0x8000 [0x78] [] with p := 0x20 }
    (fun t => t.p == 0x24 && t.pc == 0x8001 && t.cyc == 1) := by decide
theorem test_cld : runs { at_ 0x8000 [0xD8] [] with p := 0x2C }
    (fun t => t.p == 0x24 && t.pc == 0x8001 && t.cyc == 1) := by decide
theorem test_sed : runs (at_ 0x8000 [0xF8] [])
    (fun t => t.p == 0x2C && t.pc == 0x8001 && t.cyc == 1) := by decide
theorem test_clv : runs { at_ 0x8000 [0xB8] [] with p := 0xEF }
    (fun t => t.p == 0xAF && t.pc == 0x8001 && t.cyc == 1) := by decide

/-! ### Interrupts, host calls, reset, devices -/

/-- 95_test_vectors.md V1, tick 1. -/
theorem test_nmi_service :
    runs { at_ 0x8000 [0xA9, 0x05] [(0xFFFB, 0x90)] with agenda := [[.requestInterrupt .nmi]] }
    (fun t => t.pc == 0x9000 && t.p == 0x24 && t.cyc == 6 && !t.nmiPending && t.busLog ==
      [.write 0x01FD 0x80, .write 0x01FC 0x00, .write 0x01FB 0x24,
       .read 0xFFFA 0x00, .read 0xFFFB 0x90]) := by decide
/-- 95_test_vectors.md V3, tick 1: a masked IRQ stays latched. -/
theorem test_irq_masked :
    runs { at_ 0x8000 [0xEA] [] with agenda := [[.requestInterrupt .irq]] }
    (fun t => t.pc == 0x8001 && t.irqPending && t.busLog == [.read 0x8000 0xEA]) := by decide
/-- 95_test_vectors.md V3, tick 5. -/
theorem test_irq_service :
    runs { at_ 0x8002 [0xE8] [(0xFFFF, 0xA0)] with p := 0x20, irqPending := true }
    (fun t => t.pc == 0xA000 && t.p == 0x24 && t.cyc == 6 && !t.irqPending &&
      byteAt t 0x01FB == 0x20 && byteAt t 0x01FC == 0x02) := by decide
/-- 95_test_vectors.md V4, tick 1: the NMI first, the IRQ stays latched. -/
theorem test_nmi_before_irq :
    runs { at_ 0x8000 [0xE8] [(0xFFFB, 0x90)] with
      p := 0x20, nmiPending := true, irqPending := true }
    (fun t => t.pc == 0x9000 && !t.nmiPending && t.irqPending) := by decide
/-- 95_test_vectors.md V2, tick 3: a Busy tick only counts. -/
theorem test_busy_tick :
    runs { at_ 0x8003 [0xE8] [] with cyc := 2, agenda := [[.requestInterrupt .nmi]] }
    (fun t => t.pc == 0x8003 && t.cyc == 1 && t.nmiPending && t.busLog == []) := by decide
/-- 95_test_vectors.md X2. -/
theorem test_reset :
    (let t := hostReset { at_ 0x1234 [] [(0xFFFC, 0xCD), (0xFFFD, 0xAB)] with
        a := 0x12, x := 0x34, y := 0x56, sp := 0x00, p := 0xFF, cyc := 3
        nmiPending := true, irqPending := true, busLog := [] }
     t.pc == 0xABCD && t.a == 0 && t.x == 0 && t.y == 0 && t.sp == 0xFD && t.p == 0x24 &&
       t.cyc == 0 && !t.nmiPending && !t.irqPending &&
       t.busLog == [.read 0xFFFC 0xCD, .read 0xFFFD 0xAB]) = true := by decide
/-- A store to a device is one bus write (20_memory.md R41), and a load one bus read, whatever the
device answers. -/
theorem test_device_write :
    runs { at_ 0x8000 [0x8D, 0x00, 0x20] [] with a := 0x2A, io := [⟨.device, 0x2000, 8⟩] }
    (fun t => t.pc == 0x8003 && t.busLog.getLast? == some (.write 0x2000 0x2A)) := by decide
theorem test_device_read :
    runs { at_ 0x8000 [0xAD, 0x07, 0x20] [] with io := [⟨.device, 0x2000, 8⟩], device := 3 }
    (fun t => t.pc == 0x8003 && t.busLog.length == 4) := by decide
/-- A store to a device does not reach the RAM beneath it (log entry 3). -/
theorem test_device_keeps_ram :
    let s := { State.reset with io := [⟨.device, 0x2000, 8⟩] }
    byteAt (busWrite 0x2000 0x2A s) 0x2000 = 0x00 := by
  intro s
  have h : isDevice s 0x2000 = true := by decide
  simp only [byteAt, busWrite_mem, h, if_true]
  exact deviceStores_other s _ [] (b := 0x2000) (by decide)
/-- Inside a tick a device changes RAM it shares, and no other byte (20_memory.md R58; log entry 3). -/
theorem test_device_changes_shared_ram :
    let m := deviceStores { State.reset with io := [⟨.shared, 0x0300, 1⟩] }
      [(0x02FF, 0x66), (0x0300, 0x55), (0x0301, 0x66)] []
    m.read 0x02FF = 0x00 ∧ m.read 0x0300 = 0x55 ∧ m.read 0x0301 = 0x00 := by decide
/-- What other writers and the devices do between ticks (20_memory.md R58; log entry 22). -/
theorem test_other_writers :
    byteAt (applyHostCall (.otherWriter 0xFFFF 0x12) State.reset) 0xFFFF = 0x12 ∧
    (applyHostCall (.deviceChange 7) State.reset).device = 7 := by decide
/-- The canonical form: writing what an unlisted address reads as removes the entry. -/
theorem test_memory_canonical :
    Memory.write (Memory.write [] 5 0x01) 5 0x00 = [] ∧
    Memory.write (Memory.write [] 7 0x01) 5 0x02 = [(5, 0x02), (7, 0x01)] := by decide

/-! ### Witnesses: a state and operands meeting the hypotheses of each statement -/

/-- DecodeOfEncodeIsIdentity, CycleTotals, the shifts, stores and INC/DEC: well-formed terms, with
the accumulator and with memory, and a canonical memory that is not empty. -/
theorem test_witness_wellFormed : WellFormed (.adc (.imm 0xFF)) ∧ WellFormed (.asl .acc) ∧
    WellFormed (.lsr (.absx 0x12FF)) ∧ WellFormed (.rol (.zp 0xFF)) ∧ WellFormed (.ror .acc) ∧
    WellFormed (.sta (.indy 0xFF)) ∧ WellFormed (.stx (.zpy 0xFF)) ∧
    WellFormed (.sty (.abs 0xFFFF)) ∧ WellFormed (.inc (.zp 0)) ∧ WellFormed (.dec (.absx 0xFFFF)) ∧
    WellFormed (.undoc 0xFF) ∧ Memory.wf [(0, 0x01), (0xFFFF, 0xFF)] = true := by decide
/-- EncodeOfDecodeIsIdentity: bytes that decode, with bytes after them. -/
theorem test_witness_decodes :
    decode [0xAD, 0x34, 0x12, 0x55] = .ok (.lda (.abs 0x1234), [0x55]) := by rfl
/-- FallbackBytesAreThoseListed, FallbackActsAsNop: a byte listed (first and last), a byte not. -/
theorem test_witness_undocumented : (0x02 : Byte) ∈ undocumentedOpcodes ∧
    (0xFF : Byte) ∈ undocumentedOpcodes ∧ (0x00 : Byte) ∉ undocumentedOpcodes := by decide
/-- StepRunsDecodedInstruction: a three-byte instruction across the top of the address space, after
a host call. -/
theorem test_witness_stepRuns :
    let s := { at_ 0xFFFE [0xAD, 0x00, 0x02] [] with
      irqPending := true, agenda := [[.setFlag .carry true]] }
    let t := takeHostCalls s
    t.cyc ≤ 0 ∧ t.nmiPending = false ∧ irqServiceable t = false ∧
      decode [byteAt t t.pc, byteAt t (t.pc + 1), byteAt t (t.pc + 2)] =
        .ok (.lda (.abs 0x0200), []) ∧
      ∀ k : Nat, k < (Instr.lda (.abs 0x0200)).length →
        isDevice t (t.pc + BitVec.ofNat 16 k) = false := by
  exact ⟨by decide, by decide, by decide, rfl, by decide⟩
/-- BusyTickOnlyCountsDown, BusyTicksReachTheBoundary: the shortest and the longest rest. -/
theorem test_witness_busy :
    let s (n : Int) := { State.reset with cyc := n }
    0 < (s 1).cyc ∧ (s 1).cyc = ((0 : Nat) : Int) + 1 ∧ (s 7).cyc = ((6 : Nat) : Int) + 1 ∧
      (s 7).agenda = [] := by decide
/-- NmiServiceAtBoundary, IrqServiceAtBoundary, and each clause of EventPriorityAtBoundary, the
masked IRQ among them. -/
theorem test_witness_events :
    let s := { State.reset with p := 0x20 }
    Memory.wf s.mem = true ∧ s.cyc ≤ 0 ∧ readFlag .interruptDisable s.p = false ∧
      { s with nmiPending := true, irqPending := true }.nmiPending = true ∧
      { s with irqPending := true }.nmiPending = false ∧
      { s with irqPending := true }.irqPending = true ∧
      s.irqPending = false ∧ readFlag .interruptDisable State.reset.p = true := by decide
/-- LaunchStateIsAfterReset: a state with nothing listed, its registers not those of reset. -/
theorem test_witness_launch :
    let s := { State.reset with a := 0x12, pc := 0x1234, cyc := 3, busLog := [] }
    s.mem = [] ∧ s.io = [] ∧ s.device = 0 ∧ s.busLog = [] ∧ s.agenda = [] := by decide
/-- SetFlagThenGetFlag: bit 5 is set at reset; both branches of its condition. -/
theorem test_witness_setFlag : readFlag .unused State.reset.p = true ∧
    hostGetFlag .unused (applyHostCall (.setFlag .unused false) State.reset) = true ∧
    hostGetFlag .carry (applyHostCall (.setFlag .carry true) State.reset) = true ∧
    hostGetFlag .zero (applyHostCall (.setFlag .carry true) State.reset) = false := by decide
/-- PageCrossing: the index sum at 255 and at 256, and at the top of the address space. -/
theorem test_witness_pageCrossing : crossed 0x12FE 0x01 = false ∧ crossed 0x12FF 0x01 = true ∧
    crossed 0xFFFF 0x01 = true ∧ crossed 0x1200 0xFF = false := by decide
/-- DirectEffectiveAddresses: an operand that is no pointer form. -/
theorem test_witness_direct : ∀ z, (Operand.absx 0xFFFF) ≠ .indx z ∧ (Operand.absx 0xFFFF) ≠ .indy z :=
  fun _ => ⟨Operand.noConfusion, Operand.noConfusion⟩
/-- The bus statements: an address in RAM of the core alone, and one on each edge of a window of
each kind. -/
theorem test_witness_bus :
    let s := { State.reset with io := [⟨.device, 0x2000, 8⟩, ⟨.shared, 0x0300, 2⟩] }
    isDevice s 0x1FFF = false ∧ isShared s 0x1FFF = false ∧ isDevice s 0x2000 = true ∧
      isDevice s 0x2007 = true ∧ isDevice s 0x2008 = false ∧ isShared s 0x02FF = false ∧
      isShared s 0x0300 = true ∧ isDevice s 0x0301 = false ∧ isShared s 0x0301 = true ∧
      isShared s 0x0302 = false := by decide
/-- OnlyWritersWrite: calls that no device answers, beside one that a device does; a byte that none
of them writes. -/
theorem test_witness_noDevice :
    let s := { State.reset with io := [⟨.device, 0x2000, 8⟩] }
    NoDevice s [.read 0x1FFF 0x00, .write 0x2008 0x01] ∧ ¬ NoDevice s [.write 0x2000 0x01] ∧
      ∀ v, BusCall.write 0x2007 v ∉ [.read 0x2007 0x00, .write 0x2008 0x01] := by
  refine ⟨by simp only [NoDevice]; decide, by simp only [NoDevice]; decide, fun v => by simp⟩
/-- ResetFromAnyState: vectors in RAM, and behind a device. -/
theorem test_witness_vectors : isDevice State.reset 0xFFFC = false ∧
    isDevice State.reset 0xFFFD = false ∧
    isDevice { State.reset with io := [⟨.device, 0xFFFD, 1⟩] } 0xFFFD = true := by decide
/-- OperandReadIsOneBusRead, StoreResults, ShiftResults: each kind of place. -/
theorem test_witness_places : (resolve .acc State.reset).place = .acc ∧
    (resolve (.imm 0x05) State.reset).place = .imm 0x05 ∧
    (resolve (.zpx 0xFF) { State.reset with x := 0x02 }).place = .ea 0x0001 := by decide
/-- AdcBinaryResult, SbcBinaryResult. -/
theorem test_witness_binary : readFlag .decimal State.reset.p = false := by decide
/-- DecimalArithmeticOnBcd, DecimalFlags: the largest BCD bytes. -/
theorem test_witness_decimal :
    let s := { State.reset with a := 0x99, p := 0x2D }
    readFlag .decimal s.p = true ∧ (s.a.toNat / 16 ≤ 9 ∧ s.a.toNat % 16 ≤ 9) ∧
      (operandByte (.imm 0x99) s).toNat / 16 ≤ 9 ∧ (operandByte (.imm 0x99) s).toNat % 16 ≤ 9 := by
  decide
/-- JsrResult, RtsUndoesJsr, PullUndoesPush, PulledWordIsPushedWord, PushInstructions, PlaResult, BrkResult:
RAM stack slots on both sides of the wrap of `SP`. -/
theorem test_witness_stack :
    let s := { State.reset with sp := 0x00 }
    Memory.wf s.mem = true ∧ isDevice s (stackAddr s.sp) = false ∧
      isDevice s (stackAddr (s.sp - 1)) = false ∧ stackAddr s.sp = 0x0100 ∧
      stackAddr (s.sp - 1) = 0x01FF := by decide
/-- RtiUndoesEntry: the whole stack is RAM, with a device behind the vector, and shared with a device
that does not answer the vector. -/
theorem test_witness_stackIsRam :
    let s := { State.reset with io := [⟨.device, 0xFFFA, 2⟩] }
    let t := { State.reset with io := [⟨.device, 0x2000, 8⟩, ⟨.shared, 0x0100, 256⟩] }
    Memory.wf s.mem = true ∧ (∀ k : Byte, isDevice s (stackAddr k) = false) ∧
      (∀ k : Byte, isShared s (stackAddr k) = false) ∧
      (∀ k : Byte, isDevice t (stackAddr k) = false) ∧
      isDevice t 0xFFFA = false ∧ isDevice t (0xFFFA + 1) = false := by
  refine ⟨rfl, fun k => ?_, fun k => rfl, fun k => ?_, by decide, by decide⟩ <;>
  · have := k.isLt
    simp [isDevice, inWindow, Window.holds, stackAddr_toNat]
    omega
/-- JsrResult, RtsResult, in the executing tick: the instruction in RAM at `PC`, across the top of
the address space. -/
theorem test_witness_call :
    let s := at_ 0xFFFE [0x20, 0x34, 0x12] []
    let r := at_ 0x8000 [0x60] []
    (isDevice s s.pc = false ∧ isDevice s (s.pc + 1) = false ∧ isDevice s (s.pc + 2) = false ∧
      byteAt s s.pc = 0x20 ∧ byteAt s (s.pc + 1) = lo 0x1234 ∧ byteAt s (s.pc + 2) = hi 0x1234) ∧
      isDevice r r.pc = false ∧ byteAt r r.pc = 0x60 := by decide
/-- NopChangesNothing: a NOP in RAM at `PC`. -/
theorem test_witness_nop : isDevice (at_ 0xFFFF [0xEA] []) 0xFFFF = false ∧
    byteAt (at_ 0xFFFF [0xEA] []) 0xFFFF = 0xEA := by decide
/-- StepKeepsInvariant: a state with the invariant, at a boundary, and its step. -/
theorem test_witness_inv : Inv { at_ 0x8000 [0xA9, 0x05] [] with cyc := 0 } ∧
    ∃ t, step { at_ 0x8000 [0xA9, 0x05] [] with cyc := 0 } = .next t :=
  ⟨⟨by decide, by decide, by decide, by decide⟩, _, rfl⟩
/-- StepKeepsInvariant: the invariant at the counter's upper end. -/
theorem test_witness_inv_busy : Inv { State.reset with cyc := 7 } :=
  ⟨by decide, by decide, by decide, by decide⟩
/-- LiveBreakBitIsNeverRead: two different states that differ only in the live Break bit. -/
theorem test_witness_break : SameButBreak State.reset { State.reset with p := 0x34 } ∧
    State.reset ≠ { State.reset with p := 0x34 } :=
  ⟨⟨rfl, fun f h => by cases f <;> first | exact absurd rfl h | decide⟩, by decide⟩
/-- FlagsWrittenAsTabled, OnlyWritersWrite, TxsSetsNoFlag. -/
theorem test_witness_tables : Flag.carry ∉ flagsWritten (.lda (.imm 0)) ∧
    WellFormed (.rol .acc) ∧ makesWrites (.rol .acc) = false ∧ makesWrites (.rol (.zp 0)) = true ∧
    changesSp .tsx = false ∧ changesSp .txs = true := by decide
/-- CycleTotals: both ends of the range. -/
theorem test_witness_totals :
    runs (at_ 0x8000 [0xEA] []) (fun t => t.cyc == 1) = true ∧
    runs { at_ 0x8000 [0xFE, 0xFF, 0x12] [] with x := 0x01 } (fun t => t.cyc == 7) = true := by decide

end Sys2Proof.Machine
end

section
/-! PROOFS. The stack on RAM (20_memory.md R50 to R54): what is in its slots after a push, what a pull
gives, and that a pull undoes a push. -/

namespace Sys2Proof.Machine

/-! ### A push on RAM -/

/-- The byte pushed is in the slot `SP` denoted. -/
theorem byteAt_push {s : State} (v : Byte) (hm : Memory.wf s.mem = true)
    (hd : isDevice s (stackAddr s.sp) = false) : byteAt (push v s) (stackAddr s.sp) = v :=
  byteAt_busWrite_same v hm hd

/-- The high byte stays in its slot while the low byte is pushed, at the wrap of `SP` too: the two slots
differ, and no device answers the second write. -/
theorem byteAt_pushWord_hi {s : State} (w : Word) (hm : Memory.wf s.mem = true)
    (hh : isDevice s (stackAddr s.sp) = false) (hl : isDevice s (stackAddr (s.sp - 1)) = false) :
    byteAt (pushWord w s) (stackAddr s.sp) = hi w :=
  (pushWord_calls w s).run.stored (pre := []) hm
    (by simpa using (stackAddr_sub_ne s.sp).1) hh
    (.inr (by simpa [NoDevice, BusCall.addr] using hl))

/-- The low byte is in the slot below, whether or not a device answers the high byte's. -/
theorem byteAt_pushWord_lo {s : State} (w : Word) (hm : Memory.wf s.mem = true)
    (hl : isDevice s (stackAddr (s.sp - 1)) = false) :
    byteAt (pushWord w s) (stackAddr (s.sp - 1)) = lo w :=
  (pushWord_stored w hm).2 ((isDevice_congr (by simp) _).trans hl)

/-! ### A pull from RAM -/

/-- A pull gives the byte in the slot above `SP`. -/
theorem pull_fst_of_ram {s : State} (hd : isDevice s (stackAddr (s.sp + 1)) = false) :
    (pull s).1 = byteAt s (stackAddr (s.sp + 1)) :=
  busAnswer_ram hd

/-- Pulling a word gives the bytes in the two slots above `SP`, low byte first: the first pull leaves the
byte of the second as it was. -/
theorem pullWord_fst_of_ram {s : State} (hl : isDevice s (stackAddr (s.sp + 1)) = false)
    (hh : isDevice s (stackAddr (s.sp + 2)) = false) :
    (pullWord s).1 = mkWord (byteAt s (stackAddr (s.sp + 2))) (byteAt s (stackAddr (s.sp + 1))) := by
  have hhi : (pull (pull s).2).1 = byteAt s (stackAddr (s.sp + 2)) :=
    (pullWord_calls s).run.answered (pre := [.read (stackAddr (s.sp + 1)) (pull s).1]) (by simp) hh
      (.inr (by simpa [NoDevice, BusCall.addr] using hl))
  rw [pullWord_fst, hhi, pull_fst_of_ram hl]

/-! ### A pull undoes a push -/

/-- On RAM the byte pulled is the byte pushed (20_memory.md R53). -/
theorem pull_push_fst {s : State} (v : Byte) (hm : Memory.wf s.mem = true)
    (hd : isDevice s (stackAddr s.sp) = false) : (pull (push v s)).1 = v := by
  have hsp : (push v s).sp + 1 = s.sp := by rw [push_sp]; bv_omega
  have hio : (push v s).io = s.io := by simp
  rw [pull_fst_of_ram (by rw [hsp, isDevice_congr hio, hd]), hsp, byteAt_push v hm hd]

/-- A pull after a push restores `SP`, whatever answers (20_memory.md R53). -/
theorem pull_push_sp (v : Byte) (s : State) : (pull (push v s)).2.sp = s.sp := by
  rw [pull_sp, push_sp]
  bv_omega

/-- On RAM the word pulled is the word pushed (20_memory.md R54). -/
theorem pullWord_pushWord_fst {s : State} (w : Word) (hm : Memory.wf s.mem = true)
    (hh : isDevice s (stackAddr s.sp) = false) (hl : isDevice s (stackAddr (s.sp - 1)) = false) :
    (pullWord (pushWord w s)).1 = w := by
  have hio : (pushWord w s).io = s.io := by simp
  have hsp1 : (pushWord w s).sp + 1 = s.sp - 1 := by rw [pushWord_sp]; bv_omega
  have hsp2 : (pushWord w s).sp + 2 = s.sp := by rw [pushWord_sp]; bv_omega
  rw [pullWord_fst_of_ram (by rw [hsp1, isDevice_congr hio, hl]) (by rw [hsp2, isDevice_congr hio, hh]),
    hsp1, hsp2, byteAt_pushWord_hi w hm hh hl, byteAt_pushWord_lo w hm hl, mkWord_hi_lo]

/-- Pulling a word after pushing one restores `SP`, whatever answers (20_memory.md R54). -/
theorem pullWord_pushWord_sp (w : Word) (s : State) : (pullWord (pushWord w s)).2.sp = s.sp := by
  rw [pullWord_sp, pushWord_sp]
  bv_omega

/-! ### The obligations -/

/-- Settles O43: the slot's number, the byte stored there, and the pull that reads the same slot. -/
theorem pullUndoesPush : Obligations.PullUndoesPush := by
  intro v s hm hd
  refine ⟨stackAddr_toNat s.sp, byteAt_push v hm hd, ?_, push_calls v s, pull_push_fst v hm hd,
    pull_push_sp v s⟩
  rw [push_sp]
  bv_omega

/-- Settles O44: the bus calls with any devices, then the two slots and the round trip on RAM. -/
theorem pulledWordIsPushedWord : Obligations.PulledWordIsPushedWord := by
  refine ⟨fun w s => ⟨pushWord_calls w s, pushWord_sp w s, ?_⟩, fun w s hm hh hl => ?_⟩
  · exact ⟨(pull s).1, (pull (pull s).2).1, pullWord_fst s, pullWord_sp s, pullWord_calls s⟩
  · exact ⟨byteAt_pushWord_hi w hm hh hl, byteAt_pushWord_lo w hm hl,
      pullWord_pushWord_fst w hm hh hl, pullWord_pushWord_sp w s⟩

end Sys2Proof.Machine
end

section
/-! PROOFS. Dispatch, the Busy tick and page crossing (40_engine_and_addressing.md R92, R95, R98): every
opcode byte selects a form whose instructions are the machine's, every instruction runs, and an index
addition crosses a page exactly when the low bytes' sum carries. -/

namespace Sys2Proof

/-! ### The decoder -/

/-- Every instruction that operand bytes complete the form to is an instruction of the machine. -/
def Form.AlwaysWellFormed : Form → Prop
  | .f1 i => WellFormed i
  | .f2 mk => ∀ d, WellFormed (mk d)
  | .f3 mk => ∀ w, WellFormed (mk w)

/-- Each mnemonic stands in the grid of 30_encoding.md R76 only under the modes that R75 gives it: the
table is spread into its cells, and each cell's mode is looked up in its mnemonic's list. -/
theorem opcodeGrid_wellFormed :
    ∀ row ∈ opcodeGrid, ∀ cell ∈ row, ∀ f ∈ cell, f.AlwaysWellFormed := by
  simp only [opcodeGrid, gridRow0, gridRow1, gridRow2, gridRow3, gridRow4, gridRow5, gridRow6,
    gridRow7, gridRow8, gridRow9, gridRowA, gridRowB, gridRowC, gridRowD, gridRowE, gridRowF,
    cellNone, cellImp, cellImm, cellZp, cellZpX, cellZpY, cellAbs, cellAbsX, cellAbsY, cellIndX,
    cellIndY, cellRel, cellJmp, cellJmpInd, cellJsr, List.forall_mem_cons, Option.mem_def,
    Option.some.injEq, forall_eq']
  simp [Form.AlwaysWellFormed, WellFormed, Instr.wellFormed, Operand.mode, aluModes, shiftModes,
    incModes]

/-- What the lookup finds is a cell of the grid: the high nibble is in range, and outside a row there is
no form. -/
theorem gridCell_wellFormed {op : Byte} {f : Form} (h : gridCell op = some f) :
    f.AlwaysWellFormed := by
  have hrow : op.toNat / 16 < opcodeGrid.length := by
    have := op.isLt
    simp only [opcodeGrid, List.length_cons, List.length_nil]
    omega
  rw [gridCell, List.getD_eq_getElem?_getD, List.getD_eq_getElem?_getD,
    List.getElem?_eq_getElem hrow, Option.getD_some, Option.getD_eq_iff] at h
  obtain hcell | ⟨-, hnone⟩ := h
  · exact opcodeGrid_wellFormed _ (List.getElem_mem hrow) _ (List.mem_of_getElem? hcell) f rfl
  · cases hnone

/-- The cells marked `--` are bytes that 30_encoding.md R77 lists. -/
theorem mem_undocumentedOpcodes_of_gridCell_eq_none :
    ∀ op : Byte, gridCell op = none → op ∈ undocumentedOpcodes := by
  decide

/-- Every opcode byte selects a form of the machine: a documented cell's, or the fallback on a byte that
R77 lists. -/
theorem formOf_wellFormed (op : Byte) : (formOf op).AlwaysWellFormed := by
  cases h : gridCell op with
  | some f => simpa [formOf, h] using gridCell_wellFormed h
  | none =>
    rw [formOf, h]
    exact List.contains_iff_mem.2 (mem_undocumentedOpcodes_of_gridCell_eq_none op h)

/-- Whatever the decoder reads is an instruction of the machine. -/
theorem decode_wellFormed {bs rest : List Byte} {i : Instr} (h : decode bs = .ok (i, rest)) :
    WellFormed i := by
  cases bs with
  | nil => simp [decode] at h
  | cons op bs =>
    have hform := formOf_wellFormed op
    rw [decode] at h
    generalize formOf op = form at h hform
    cases form with
    | f1 i =>
      cases h
      exact hform
    | f2 mk =>
      cases bs with
      | nil => cases h
      | cons d _ =>
        cases h
        exact hform d
    | f3 mk =>
      match bs, h with
      | l :: u :: _, h =>
        cases h
        exact hform (Machine.mkWord u l)

/-- Three bytes are enough for any opcode (30_encoding.md R71). -/
theorem exists_decode_eq_ok (op b1 b2 : Byte) (rest : List Byte) :
    ∃ i r, decode (op :: b1 :: b2 :: rest) = .ok (i, r) := by
  rw [decode]
  split
  · exact ⟨_, _, rfl⟩
  · exact ⟨_, _, rfl⟩
  · exact ⟨_, _, rfl⟩

end Sys2Proof

namespace Sys2Proof.Machine

/-! ### Dispatch -/

/-- Every instruction, well formed or not, has a next state. -/
theorem exec_eq_next (i : Instr) (s : State) : ∃ t, exec i s = .next t := by
  cases i <;> exact ⟨_, rfl⟩

/-! ### Page crossing -/

/-- R98 in numbers: the page is the number of the high byte, and the sum wraps at 65536. -/
theorem crossed_eq_decide_page_ne (b : Word) (i : Byte) :
    crossed b i = decide ((b.toNat + i.toNat) % 65536 / 256 ≠ b.toNat / 256) := by
  rw [Bool.eq_iff_iff]
  simp [crossed, page, ← BitVec.toNat_inj, hi_toNat, zext16_toNat]

/-- Equivalently the low bytes' sum carries, at the top of the address space too. -/
theorem crossed_eq_decide_carry (b : Word) (i : Byte) :
    crossed b i = decide (255 < b.toNat % 256 + i.toNat) := by
  have := b.isLt
  have := i.isLt
  rw [crossed_eq_decide_page_ne, decide_eq_decide]
  omega

/-! ### The obligations -/

/-- Settles O3: three bytes decode, what is decoded is well formed, and `exec` is total. -/
theorem dispatchIsTotal : Obligations.DispatchIsTotal := by
  intro op b1 b2 rest
  obtain ⟨i, r, h⟩ := exists_decode_eq_ok op b1 b2 rest
  exact ⟨i, r, h, decode_wellFormed h, exec_eq_next i⟩

/-- Settles O17: the crossing test in both forms; each resolver's extra is that of its definition. -/
theorem pageCrossing : Obligations.PageCrossing :=
  ⟨fun b i => ⟨crossed_eq_decide_page_ne b i, crossed_eq_decide_carry b i⟩,
    fun _ _ _ => ⟨rfl, rfl, rfl, rfl, rfl, rfl⟩⟩

/-- Settles O8: the equation of a Busy tick. -/
theorem busyTickOnlyCountsDown : Obligations.BusyTickOnlyCountsDown :=
  fun _ => tick_busy

end Sys2Proof.Machine
end

section
/-! PROOFS. The binary add core (41_arithmetic.md R122): the result and the carry make the 9-bit sum, and
overflow is a signed sum that one byte cannot hold. -/

namespace Sys2Proof.Machine

/-! ### The binary add core -/

/-- R122's `r`: the sum mod 256. -/
theorem addBin_result_toNat (a m : Byte) (c : Bool) :
    (addBin a m c).result.toNat = (a.toNat + m.toNat + c.toNat) % 256 := by
  simp [addBin]

/-- R122's carry: the sum does not fit a byte. -/
theorem addBin_carry (a m : Byte) (c : Bool) :
    (addBin a m c).carry = decide (255 < a.toNat + m.toNat + c.toNat) :=
  rfl

/-- R122 read bit by bit: both operands' bit 7 differs from the result's. -/
theorem addBin_overflow (a m : Byte) (c : Bool) :
    (addBin a m c).overflow =
      ((a.msb ^^ (addBin a m c).result.msb) && (m.msb ^^ (addBin a m c).result.msb)) := by
  simp [addBin]

/-- The 9-bit sum is the result and 256 times the carry. -/
theorem addBin_nineBitSum (a m : Byte) (c : Bool) :
    (addBin a m c).result.toNat + 256 * (addBin a m c).carry.toNat =
      a.toNat + m.toNat + c.toNat := by
  have := a.isLt
  have := m.isLt
  have := c.toNat_le
  rw [addBin_result_toNat, addBin_carry]
  by_cases h : 255 < a.toNat + m.toNat + c.toNat
  · simp only [h, decide_true, Bool.toNat_true]
    omega
  · simp only [h, decide_false, Bool.toNat_false]
    omega

/-- Overflow is a signed sum outside a byte's range: operands of different signs cannot leave it, and
two of one sign leave it at their own end exactly when the result has the other sign. -/
theorem addBin_overflow_iff (a m : Byte) (c : Bool) :
    (addBin a m c).overflow = true ↔
      a.toInt + m.toInt + (c.toNat : Int) < -128 ∨
        127 < a.toInt + m.toInt + (c.toNat : Int) := by
  have := a.isLt
  have := m.isLt
  have := c.toNat_le
  simp only [addBin_overflow, BitVec.msb_eq_decide, BitVec.toInt_eq_toNat_cond,
    addBin_result_toNat, Bool.and_eq_true, bne_iff_ne, ne_eq, decide_eq_decide]
  -- One case for each sign of `a` and of `m`.
  split <;> split <;> omega

/-! ### The obligation -/

/-- Settles O21: the 9-bit sum, the signed range, and the formula that defines overflow. -/
theorem addBinIsNineBitSum : Obligations.AddBinIsNineBitSum :=
  fun a m c => ⟨addBin_nineBitSum a m c, addBin_overflow_iff a m c, rfl⟩

end Sys2Proof.Machine
end

section
/-! PROOFS. The read class (40_engine_and_addressing.md R96) around an operation on registers and flags,
and the logical operations on it (42_logical.md R130 to R133). -/

namespace Sys2Proof.Machine

/-! ### The read class -/

/-- A read-class instruction changes no more than its operation does on the operand byte, in the state
after the operand's read. -/
theorem readOp_frame {o : Operand} {k : Byte → State → State} {rs : List Reg} {fs : List Flag}
    {s : State} (h : Frame rs fs [] (afterOperand o s) (k (operandByte o s) (afterOperand o s))) :
    Frame rs fs [] s (readOp o k s) := by
  have hread : Frame rs fs [] s (afterOperand o s) :=
    (afterOperand_frame o s).mono (by simp) (by simp) (by simp)
  have hcharge : Frame rs fs [] (k (operandByte o s) (afterOperand o s)) (readOp o k s) :=
    (charge_frame _ _ _ _).mono (by simp) (by simp) (by simp)
  exact (hread.trans h).trans hcharge

/-- An operation that makes no bus call and keeps `PC` leaves a read-class instruction with no call but
the operand's. -/
theorem readOp_readDone {o : Operand} {k : Byte → State → State} {s : State}
    (h : ImpliedDone (afterOperand o s) (k (operandByte o s) (afterOperand o s))) :
    ReadDone o s (readOp o k s) := by
  obtain ⟨hpc, hlog, hmem, hdevice, hio⟩ := h
  rw [readOp_eq]
  exact ⟨by simp [hpc], by simp [hlog], by simp [hmem], by simp [hdevice], by simp [hio]⟩

/-! ### Operations on registers and flags -/

/-- Loading the accumulator changes `A`, Z and N. -/
theorem putA_frame (v : Byte) (s : State) : Frame [.a] [.zero, .negative] [] s (putA v s) := by
  rw [putA_eq]
  refine .of_same ⟨rfl, rfl, rfl⟩ (by simp) (by simp) (by simp) (by simp) (fun f hf => ?_) (by simp)
  simp only [List.mem_cons, List.not_mem_nil, or_false, not_or] at hf
  obtain ⟨hz, hn⟩ := hf
  rw [State.setP_p, readFlag_setZN, if_neg hn, if_neg hz]

/-- Loading the accumulator makes no bus call. -/
theorem putA_impliedDone (v : Byte) (s : State) : ImpliedDone s (putA v s) :=
  ⟨rfl, .of_same rfl ⟨rfl, rfl, rfl⟩⟩

/-- A write of the status byte changes the flags in which the two bytes differ, and no register. -/
theorem setP_frame {fs : List Flag} {p : Byte} {s : State}
    (h : ∀ f, f ∉ fs → readFlag f p = readFlag f s.p) : Frame [] fs [] s (s.setP p) :=
  .of_same ⟨rfl, rfl, rfl⟩ (by simp) (by simp) (by simp) (by simp) h (by simp)

/-- A write of the status byte makes no bus call. -/
theorem setP_impliedDone (p : Byte) (s : State) : ImpliedDone s (s.setP p) :=
  ⟨rfl, .of_same rfl ⟨rfl, rfl, rfl⟩⟩

/-- BIT writes V, N and Z and no other flag (42_logical.md R133). -/
theorem readFlag_bitFlags (f : Flag) (a m p : Byte) :
    readFlag f (bitFlags a m p) =
      if f = .overflow then m.getLsbD 6
      else if f = .negative then m.getLsbD 7
      else if f = .zero then (a &&& m) == 0 else readFlag f p := by
  simp only [bitFlags, readFlag_writeFlag]

/-! ### AND, ORA, EOR and BIT -/

/-- The shape that AND, ORA and EOR share (42_logical.md R130 to R132): an operation `f` of `A`, which
the operand's read keeps, and the operand goes into `A`. -/
theorem logicEffect_of_exec {i : Instr} {o : Operand} {f : Byte → Byte → Byte} {s : State}
    (h : exec i s = .next (readOp o (fun m t => putA (f t.a m) t) s)) :
    LogicEffect i o (f s.a (operandByte o s)) s := by
  have ha : (afterOperand o s).a = s.a := by simp
  refine ⟨_, h, readOp_frame (putA_frame _ _), ?_, ?_, readOp_readDone (putA_impliedDone _ _)⟩
  · simp [readOp_eq, putA_eq]
  · rw [← ha]
    exact hasZN_of_setZN rfl

/-- Settles O27: the rows of 30_encoding.md R75, then the common shape at each of the three operations. -/
theorem logicalResults : Obligations.LogicalResults := by
  refine ⟨fun _ _ => ?_, fun _ _ => ?_, fun _ _ => ?_, fun o s => ⟨?_, ?_, ?_⟩⟩
  · exact ⟨rfl, rfl, rfl, rfl, rfl, rfl, rfl, rfl⟩
  · exact ⟨rfl, rfl, rfl, rfl, rfl, rfl, rfl, rfl⟩
  · exact ⟨rfl, rfl, rfl, rfl, rfl, rfl, rfl, rfl⟩
  · exact logicEffect_of_exec (f := (· &&& ·)) rfl
  · exact logicEffect_of_exec (f := (· ||| ·)) rfl
  · exact logicEffect_of_exec (f := (· ^^^ ·)) rfl

/-- The status byte BIT leaves: its flags of `A`, which the operand's read keeps, and the operand. -/
theorem readOp_bitFlags_p (o : Operand) (s : State) :
    (readOp o (fun m t => t.setP (bitFlags t.a m t.p)) s).p = bitFlags s.a (operandByte o s) s.p := by
  simp [readOp_eq]

/-- Settles O28: the two words, the three flags read from the status byte BIT leaves, and the frame of
a write of the status byte. -/
theorem bitResult : Obligations.BitResult := by
  refine ⟨fun d w => ⟨rfl, rfl, Bool.false_ne_true⟩, fun o s =>
    ⟨_, rfl, readOp_frame (setP_frame fun f hf => ?_), ?_, ?_, ?_,
      readOp_readDone (setP_impliedDone _ _)⟩⟩
  · simp only [List.mem_cons, List.not_mem_nil, or_false, not_or] at hf
    obtain ⟨hz, hn, hv⟩ := hf
    rw [readFlag_bitFlags, if_neg hv, if_neg hn, if_neg hz]
  · rw [readOp_bitFlags_p, readFlag_bitFlags, if_neg (by decide), if_neg (by decide), if_pos rfl]
    exact Bool.eq_iff_iff.2 (by simp)
  · rw [readOp_bitFlags_p, readFlag_bitFlags, if_neg (by decide), if_pos rfl]
  · rw [readOp_bitFlags_p, readFlag_bitFlags, if_pos rfl]

end Sys2Proof.Machine
end

section
/-! PROOFS. The shifts and rotates (43_shifts.md R140 to R144): each is the read-modify-write class around
a result byte and the bit shifted out, which becomes Carry. -/

namespace Sys2Proof.Machine

/-! ### The shape that the four share -/

/-- R144 gives the shifts and rotates no Immediate form. -/
theorem ne_immediate_of_mem_shiftModes {m : Mode} (h : shiftModes.contains m = true) :
    m ≠ .immediate := by
  rintro rfl
  exact Bool.false_ne_true h

/-- A shift writes N, Z and C and no other flag. -/
theorem readFlag_shifted (f : Flag) (r : Byte) (out : Bool) (p : Byte) :
    readFlag f (shifted r out p).2 =
      if f = .negative then r.msb
      else if f = .zero then r == 0
      else if f = .carry then out else readFlag f p := by
  simp only [shifted, readFlag_setZN, readFlag_writeFlag]

/-- A read-modify-write instruction whose operation is a shift: the bit shifted out makes C, Z and N come
from the result, and the class does the rest (43_shifts.md R144). -/
theorem modifyOp_of_shifted {o : Operand} {f : Byte → Byte → Byte × Byte} {r : Byte} {out : Bool}
    {s : State} (hm : Memory.wf s.mem = true) (hw : shiftModes.contains o.mode = true)
    (hf : f (operandByte o s) s.p = shifted r out s.p) :
    readFlag .carry (modifyOp o f s).p = out ∧ HasZN r (modifyOp o f s) ∧
      ModifyDone o [.carry, .zero, .negative] r s (modifyOp o f s) := by
  have hkept : ∀ g, g ∉ [Flag.carry, .zero, .negative] →
      readFlag g (f (operandByte o s) s.p).2 = readFlag g s.p := fun g hg => by
    simp only [List.mem_cons, List.not_mem_nil, or_false, not_or] at hg
    obtain ⟨hc, hz, hn⟩ := hg
    rw [hf, readFlag_shifted, if_neg hn, if_neg hz, if_neg hc]
  obtain ⟨hdone, hp⟩ := modifyOp_does f _ hm (ne_immediate_of_mem_shiftModes hw) hkept
  rw [hf] at hdone hp
  refine ⟨?_, hasZN_of_setZN hp, hdone⟩
  rw [hp, readFlag_shifted, if_neg (by decide), if_neg (by decide), if_pos rfl]

/-! ### The results in numbers -/

/-- R140: twice the operand, mod 256. -/
theorem shiftLeft_one_toNat (v : Byte) : (v <<< 1).toNat = v.toNat * 2 % 256 := by
  simp [Nat.shiftLeft_eq]

/-- R141: half the operand. -/
theorem ushiftRight_one_toNat (v : Byte) : (v >>> 1).toNat = v.toNat / 2 := by
  simp [Nat.shiftRight_eq_div_pow]

/-- R141: bit 7 of LSR's result is 0. -/
theorem ushiftRight_one_getLsbD_seven (v : Byte) : (v >>> 1).getLsbD 7 = false := by
  simp

/-- R142: the vacated bit 0 is 0, so that putting the old C there adds it. -/
theorem rotateLeft_toNat (v : Byte) (c : Bool) :
    ((v <<< 1) ||| (if c then 0x01 else 0x00)).toNat = (v.toNat * 2 + c.toNat) % 256 := by
  cases c with
  | false => simpa using shiftLeft_one_toNat v
  | true =>
    have hvacated : (v <<< 1) &&& 0x01 = 0 := (BitVec.and_twoPow _ 0).trans (by simp)
    rw [if_pos rfl, ← BitVec.add_eq_or_of_and_eq_zero _ _ hvacated, BitVec.toNat_add,
      shiftLeft_one_toNat]
    exact Nat.mod_add_mod _ _ _

/-- R143: the vacated bit 7 is 0, so that putting the old C there adds 128 times it. -/
theorem rotateRight_toNat (v : Byte) (c : Bool) :
    ((v >>> 1) ||| (if c then 0x80 else 0x00)).toNat = v.toNat / 2 + 128 * c.toNat := by
  cases c with
  | false => simpa using ushiftRight_one_toNat v
  | true =>
    have hvacated : (v >>> 1) &&& 0x80 = 0 := (BitVec.and_twoPow _ 7).trans (by simp)
    have hfits : v.toNat / 2 + 128 < 256 := by have := v.isLt; omega
    rw [if_pos rfl, ← BitVec.add_eq_or_of_and_eq_zero _ _ hvacated, BitVec.toNat_add,
      ushiftRight_one_toNat]
    exact Nat.mod_eq_of_lt hfits

/-! ### ASL, LSR, ROL and ROR -/

/-- Settles O29: the rows of 30_encoding.md R75, then the common shape at the two shifts. -/
theorem shiftResults : Obligations.ShiftResults := by
  refine ⟨fun _ _ => ⟨rfl, rfl, rfl, rfl⟩, rfl, fun _ _ => ⟨rfl, rfl, rfl, rfl⟩, rfl,
    fun o s hm => ⟨fun hw => ?_, fun hw => ?_⟩⟩
  · exact ⟨_, _, rfl, shiftLeft_one_toNat _, modifyOp_of_shifted hm hw rfl⟩
  · obtain ⟨hcarry, ⟨hz, hn⟩, hdone⟩ := modifyOp_of_shifted (f := lsrOp) hm hw rfl
    exact ⟨_, _, rfl, ushiftRight_one_toNat _, hcarry, ⟨hz, hn⟩,
      hn.trans (ushiftRight_one_getLsbD_seven _), hdone⟩

/-- Settles O30: the rows of 30_encoding.md R75, then the common shape at the two rotates. -/
theorem rotateResults : Obligations.RotateResults := by
  refine ⟨fun _ _ => ⟨rfl, rfl, rfl, rfl⟩, rfl, fun _ _ => ⟨rfl, rfl, rfl, rfl⟩, rfl,
    fun o s hm => ⟨fun hw => ?_, fun hw => ?_⟩⟩
  · exact ⟨_, _, rfl, rotateLeft_toNat _ _, modifyOp_of_shifted hm hw rfl⟩
  · exact ⟨_, _, rfl, rotateRight_toNat _ _, modifyOp_of_shifted hm hw rfl⟩

end Sys2Proof.Machine
end

section
/-! PROOFS. Loads and transfers (44_load_store_transfer.md R150 to R152, R156 to R161): each puts a byte in
one register and its Z and N in the status byte; and which instructions keep `SP`. -/

namespace Sys2Proof.Machine

/-! ### Charging cycles after an operation -/

/-- The cycle charge changes nothing that a frame speaks of. -/
theorem Frame.charged {rs : List Reg} {fs : List Flag} {ms : List Word} {s t : State}
    (h : Frame rs fs ms s t) (base ax ox : Nat) : Frame rs fs ms s (charge base ax ox t) :=
  h.trans ((charge_frame base ax ox t).mono (List.nil_subset _) (List.nil_subset _)
    (List.nil_subset _))

/-- The cycle charge makes no bus call and keeps `PC`. -/
theorem ImpliedDone.charged {s t : State} (h : ImpliedDone s t) (base ax ox : Nat) :
    ImpliedDone s (charge base ax ox t) :=
  ⟨h.pc, h.bus.congr (.refl s) rfl ⟨rfl, rfl, rfl⟩ rfl⟩

/-- The cycle charge changes no register. -/
@[simp] theorem Reg.get_charge (r : Reg) (base ax ox : Nat) (s : State) :
    r.get (charge base ax ox s) = r.get s :=
  (charge_frame base ax ox s).keptRegs r List.not_mem_nil

/-! ### Putting a byte in a register with its flags -/

/-- `put` is `r <- v; SetZN(r)`, the pseudocode that every load and every transfer but TXS ends in. -/
structure LoadsReg (r : Reg) (put : Byte → State → State) : Prop where
  frame : ∀ v s, Frame [r] [.zero, .negative] [] s (put v s)
  get : ∀ v s, r.get (put v s) = v
  status : ∀ v s, (put v s).p = setZN v s.p
  done : ∀ v s, ImpliedDone s (put v s)

/-- `SetZN` writes no flag but Z and N. -/
theorem readFlag_setZN_of_notMem {f : Flag} (v p : Byte) (hf : f ∉ [Flag.zero, .negative]) :
    readFlag f (setZN v p) = readFlag f p := by
  simp only [List.mem_cons, List.not_mem_nil, or_false, not_or] at hf
  obtain ⟨hz, hn⟩ := hf
  rw [readFlag_setZN, if_neg hn, if_neg hz]

/-- `A <- v; SetZN(A)`, of LDA, TXA and TYA. -/
theorem putA_loadsReg : LoadsReg .a putA where
  frame := putA_frame
  get _ _ := rfl
  status _ _ := rfl
  done := putA_impliedDone

/-- `X <- v; SetZN(X)`, of LDX, TAX and TSX. -/
theorem putX_loadsReg : LoadsReg .x putX where
  frame _ _ := .of_same ⟨rfl, rfl, rfl⟩ (fun _ => rfl) (by simp) (fun _ => rfl) (fun _ => rfl)
    (fun _ => readFlag_setZN_of_notMem _ _) ⟨rfl, rfl, rfl⟩
  get _ _ := rfl
  status _ _ := rfl
  done _ _ := ⟨rfl, .of_same rfl ⟨rfl, rfl, rfl⟩⟩

/-- `Y <- v; SetZN(Y)`, of LDY and TAY. -/
theorem putY_loadsReg : LoadsReg .y putY where
  frame _ _ := .of_same ⟨rfl, rfl, rfl⟩ (fun _ => rfl) (fun _ => rfl) (by simp) (fun _ => rfl)
    (fun _ => readFlag_setZN_of_notMem _ _) ⟨rfl, rfl, rfl⟩
  get _ _ := rfl
  status _ _ := rfl
  done _ _ := ⟨rfl, .of_same rfl ⟨rfl, rfl, rfl⟩⟩

/-- The read class around a register load is a load (44_load_store_transfer.md section 1). -/
theorem LoadsReg.loadEffect {r : Reg} {put : Byte → State → State} (h : LoadsReg r put) {i : Instr}
    {o : Operand} {s : State} (hexec : exec i s = .next (readOp o put s)) : LoadEffect i o r s := by
  have hget : r.get (readOp o put s) = operandByte o s := by rw [readOp_eq, Reg.get_charge, h.get]
  have hp : (readOp o put s).p = setZN (operandByte o s) s.p := by simp [readOp_eq, h.status]
  exact ⟨_, hexec, readOp_frame (h.frame _ _), hget, hasZN_of_setZN hp, readOp_readDone (h.done _ _)⟩

/-- A register load with no operand is a transfer (44_load_store_transfer.md section 3). -/
theorem LoadsReg.transferEffect {r : Reg} {put : Byte → State → State} (h : LoadsReg r put)
    {i : Instr} {op v : Byte} {n : Nat} {s : State} (hcode : encode i = [op])
    (hexec : exec i s = .next (charge n 0 0 (put v s))) : TransferEffect i op r v s :=
  ⟨hcode, _, hexec, (h.frame v s).charged n 0 0, (Reg.get_charge ..).trans (h.get v s),
    hasZN_of_setZN (h.status v s), (h.done v s).charged n 0 0⟩

/-- Settles O31: the rows of 30_encoding.md R75, the forms it does not give LDX and LDY, then the common
shape at each of the three registers. -/
theorem loadResults : Obligations.LoadResults := by
  refine ⟨fun _ _ => ?_, fun _ _ => ?_, fun _ _ => ?_, fun o s => ⟨?_, ?_, ?_⟩⟩
  · exact ⟨rfl, rfl, rfl, rfl, rfl, rfl, rfl, rfl⟩
  · exact ⟨rfl, rfl, rfl, rfl, rfl, rfl, rfl, rfl, rfl, rfl⟩
  · exact ⟨Bool.false_ne_true, Bool.false_ne_true, Bool.false_ne_true, Bool.false_ne_true⟩
  · exact putA_loadsReg.loadEffect rfl
  · exact putX_loadsReg.loadEffect rfl
  · exact putY_loadsReg.loadEffect rfl

/-- Settles O33: the common shape at each of the five transfers, named by its destination. -/
theorem transferResults : Obligations.TransferResults :=
  fun _ => ⟨putX_loadsReg.transferEffect rfl rfl, putY_loadsReg.transferEffect rfl rfl,
    putA_loadsReg.transferEffect rfl rfl, putA_loadsReg.transferEffect rfl rfl,
    putX_loadsReg.transferEffect rfl rfl⟩

/-! ### The stack pointer -/

/-- A write of `SP` changes no other register and no flag. -/
theorem setSp_frame (v : Byte) (s : State) : Frame [.sp] [] [] s (s.setSp v) :=
  .of_same ⟨rfl, rfl, rfl⟩ (fun _ => rfl) (fun _ => rfl) (fun _ => rfl) (by simp) (fun _ _ => rfl)
    ⟨rfl, rfl, rfl⟩

/-- A write of `SP` makes no bus call. -/
theorem setSp_impliedDone (v : Byte) (s : State) : ImpliedDone s (s.setSp v) :=
  ⟨rfl, .of_same rfl ⟨rfl, rfl, rfl⟩⟩

/-- The read class keeps `SP` where its operation does. -/
theorem readOp_sp {k : Byte → State → State} (hk : ∀ m t, (k m t).sp = t.sp) (o : Operand)
    (s : State) : (readOp o k s).sp = s.sp := by
  simp [readOp_eq, hk]

/-- A write of a place keeps `SP`, of an Immediate too. -/
@[simp] theorem writePlace_sp (p : Place) (v : Byte) (s : State) : (writePlace p v s).sp = s.sp := by
  cases p <;> simp [writePlace]

/-- The write class keeps `SP`. -/
theorem storeOp_sp (o : Operand) (v : Byte) (s : State) : (storeOp o v s).sp = s.sp := by
  simp [storeOp_eq]

/-- The read-modify-write class keeps `SP`. -/
theorem modifyOp_sp (o : Operand) (f : Byte → Byte → Byte × Byte) (s : State) :
    (modifyOp o f s).sp = s.sp := by
  simp [modifyOp_eq]

/-- A branch keeps `SP`, taken or not. -/
theorem branchOp_sp (cond : Bool) (d : Byte) (s : State) : (branchOp cond d s).sp = s.sp := by
  cases cond <;> simp [branchOp]

/-- Finding JMP's target keeps `SP`. -/
theorem resolveTarget_sp (t : Target) (s : State) : (resolveTarget t s).2.sp = s.sp := by
  cases t <;> simp [resolveTarget, readJumpPointer]

/-- An instruction that is not TXS and neither pushes nor pulls keeps `SP`: each class does, and so does
each operation in it (10_state.md R13). -/
theorem exec_keeps_sp {i : Instr} (h : changesSp i = false) (s : State) :
    ∃ t, exec i s = .next t ∧ t.sp = s.sp := by
  cases i with
  | pha | php | pla | plp | jsr | rts | brk | rti | txs => cases h
  | adc o | sbc o | and o | ora o | eor o | bit o | lda o | ldx o | ldy o | cmp o | cpx o | cpy o =>
    exact ⟨_, rfl, readOp_sp (fun _ _ => rfl) o s⟩
  | sta o | stx o | sty o => exact ⟨_, rfl, storeOp_sp o _ s⟩
  | asl o | lsr o | rol o | ror o | inc o | dec o => exact ⟨_, rfl, modifyOp_sp o _ s⟩
  | bcc d | bcs d | beq d | bne d | bmi d | bpl d | bvc d | bvs d =>
    exact ⟨_, rfl, branchOp_sp _ d s⟩
  | jmp t => exact ⟨_, rfl, resolveTarget_sp t s⟩
  | tax | tay | txa | tya | tsx | inx | iny | dex | dey | nop | clc | sec | cli | sei | cld | sed
  | clv | undoc => exact ⟨_, rfl, rfl⟩

/-- Settles O34: TXS is a write of `SP` alone, and the other instructions keep it class by class. -/
theorem txsSetsNoFlag : Obligations.TxsSetsNoFlag :=
  ⟨rfl, fun s => ⟨_, rfl, (setSp_frame s.x s).charged 2 0 0, rfl, rfl,
    (setSp_impliedDone s.x s).charged 2 0 0⟩, fun _ s h => exec_keeps_sp h s⟩

end Sys2Proof.Machine
end

section
/-! PROOFS. Compares and the register increments and decrements (45_compare_incdec.md R170 to R173, R176
to R179): a compare is the read class around a write of C, Z and N, which the binary core gives too; an
increment or decrement puts a byte in its own register. -/

namespace Sys2Proof.Machine

/-! ### The difference of two bytes -/

/-- Bit 7 of the difference, in numbers. -/
theorem sub_msb (r m : Byte) :
    (r - m).msb = decide (128 ≤ (r.toNat + 256 - m.toNat) % 256) := by
  have := m.isLt
  rw [BitVec.msb_eq_decide, BitVec.toNat_sub, decide_eq_decide]
  omega

/-- The complement that the subtraction adds (41_arithmetic.md R121). -/
theorem complement_toNat (m : Byte) : (m ^^^ 0xFF).toNat = 255 - m.toNat :=
  (congrArg BitVec.toNat (BitVec.xor_allOnes (x := m))).trans BitVec.toNat_not

/-- Adding the complement with a carry in subtracts. -/
theorem addBin_complement_result (r m : Byte) : (addBin r (m ^^^ 0xFF) true).result = r - m := by
  have := m.isLt
  apply BitVec.eq_of_toNat_eq
  rw [addBin_result_toNat, complement_toNat, BitVec.toNat_sub, Bool.toNat_true]
  omega

/-- That sum carries exactly when the subtraction does not borrow. -/
theorem addBin_complement_carry (r m : Byte) :
    (addBin r (m ^^^ 0xFF) true).carry = decide (m.toNat ≤ r.toNat) := by
  have := m.isLt
  rw [addBin_carry, complement_toNat, Bool.toNat_true, decide_eq_decide]
  omega

/-- R122's zero: that of the result. -/
theorem addBin_zero (a m : Byte) (c : Bool) :
    (addBin a m c).zero = ((addBin a m c).result == 0) :=
  rfl

/-- R122's negative: that of the result. -/
theorem addBin_negative (a m : Byte) (c : Bool) :
    (addBin a m c).negative = (addBin a m c).result.msb :=
  rfl

/-- The core's zero is equality of the bytes compared. -/
theorem addBin_complement_zero (r m : Byte) :
    (addBin r (m ^^^ 0xFF) true).zero = decide (r = m) := by
  rw [addBin_zero, addBin_complement_result, Bool.eq_iff_iff, beq_iff_eq, decide_eq_true_iff,
    BitVec.sub_eq_iff_eq_add, BitVec.ofNat_eq_ofNat, BitVec.zero_add]

/-! ### CMP, CPX and CPY -/

/-- `Compare(r, m)` writes N, Z and C and no other flag (45_compare_incdec.md R173). -/
theorem readFlag_compareFlags (f : Flag) (r m p : Byte) :
    readFlag f (compareFlags r m p) =
      if f = .negative then (r - m).msb
      else if f = .zero then r == m
      else if f = .carry then decide (m.toNat ≤ r.toNat) else readFlag f p := by
  simp only [compareFlags, readFlag_writeFlag]

/-- The status byte a compare leaves: its flags of the register, which the operand's read keeps, and the
operand. -/
theorem readOp_compareFlags_p (r : Reg) (o : Operand) (s : State) :
    (readOp o (fun m t => t.setP (compareFlags (r.get t) m t.p)) s).p =
      compareFlags (r.get s) (operandByte o s) s.p := by
  have hr : r.get (afterOperand o s) = r.get s :=
    (afterOperand_frame o s).keptRegs r List.not_mem_nil
  simp [readOp_eq, hr]

/-- The shape that the compares share (45_compare_incdec.md R173), at the register compared. -/
theorem compareEffect_of_exec {i : Instr} {o : Operand} {r : Reg} {s : State}
    (h : exec i s = .next (readOp o (fun m t => t.setP (compareFlags (r.get t) m t.p)) s)) :
    CompareEffect i o (r.get s) s := by
  refine ⟨_, h, readOp_frame (setP_frame fun f hf => ?_), ?_, ?_, ?_,
    readOp_readDone (setP_impliedDone _ _)⟩
  · simp only [List.mem_cons, List.not_mem_nil, or_false, not_or] at hf
    obtain ⟨hc, hz, hn⟩ := hf
    rw [readFlag_compareFlags, if_neg hn, if_neg hz, if_neg hc]
  · rw [readOp_compareFlags_p, readFlag_compareFlags, if_neg (by decide), if_neg (by decide),
      if_pos rfl]
  · rw [readOp_compareFlags_p, readFlag_compareFlags, if_neg (by decide), if_pos rfl]
    exact Bool.eq_iff_iff.2 (beq_iff_eq.trans decide_eq_true_iff.symm)
  · rw [readOp_compareFlags_p, readFlag_compareFlags, if_pos rfl, sub_msb]

/-- Settles O35: the rows of 30_encoding.md R75, the binary core's three flags, then the common shape at
each of the three registers. -/
theorem compareResults : Obligations.CompareResults := by
  refine ⟨fun _ _ => ?_, fun _ _ => ?_, fun r m => ⟨?_, ?_, ?_⟩, fun o s => ⟨?_, ?_, ?_⟩⟩
  · exact ⟨rfl, rfl, rfl, rfl, rfl, rfl, rfl, rfl⟩
  · exact ⟨rfl, rfl, rfl, rfl, rfl, rfl⟩
  · exact addBin_complement_carry r m
  · exact addBin_complement_zero r m
  · rw [addBin_negative, addBin_complement_result, sub_msb]
  · exact compareEffect_of_exec (r := .a) rfl
  · exact compareEffect_of_exec (r := .x) rfl
  · exact compareEffect_of_exec (r := .y) rfl

/-! ### INX, INY, DEX and DEY -/

/-- One down, mod 256: adding 255. -/
theorem sub_one_toNat (v : Byte) : (v - 1).toNat = (v.toNat + 255) % 256 := by
  rw [BitVec.toNat_sub, Nat.add_comm]
  rfl

/-- Settles O37: each is the transfer of its register's neighbour to the register itself. -/
theorem registerIncDecResults : Obligations.RegisterIncDecResults :=
  fun s => ⟨⟨_, BitVec.toNat_add s.x 1, putX_loadsReg.transferEffect rfl rfl⟩,
    ⟨_, BitVec.toNat_add s.y 1, putY_loadsReg.transferEffect rfl rfl⟩,
    ⟨_, sub_one_toNat s.x, putX_loadsReg.transferEffect rfl rfl⟩,
    ⟨_, sub_one_toNat s.y, putY_loadsReg.transferEffect rfl rfl⟩⟩

end Sys2Proof.Machine
end

section
/-! PROOFS. Call and return (47_jumps.md R201, R202): a word pushed or pulled around a write of `PC`, and in
the executing tick the fetch's reads before them (40_engine_and_addressing.md R91). -/

namespace Sys2Proof.Machine

/-! ### A fetch from RAM -/

/-- A list of reads of RAM, each with the byte that is there, is a run that leaves the bus as it was
(20_memory.md R62). -/
theorem BusRun.of_ramReads {calls : List BusCall} {s t : State} (hb : SameBus s t)
    (hd : NoDevice s calls) (hv : ∀ c ∈ calls, c = .read c.addr (Machine.byteAt s c.addr)) :
    BusRun calls s t := by
  induction calls with
  | nil => exact hb
  | cons c rest ih =>
    have hrest : BusRun rest s t := ih (fun d h => hd d (List.mem_cons_of_mem _ h))
      (fun d h => hv d (List.mem_cons_of_mem _ h))
    have hc : isDevice s c.addr = false := hd c List.mem_cons_self
    rw [hv c List.mem_cons_self]
    exact ⟨(busAnswer_ram hc).symm, hrest.congr (busRead_ram hc) (.refl t)⟩

/-- Fetching a byte from RAM, whole: one entry of the bus log, and `PC` one up. -/
theorem fetchByte_of_ram {s : State} {v : Byte} (hd : isDevice s s.pc = false)
    (hv : byteAt s s.pc = v) :
    fetchByte s = (v, (s.setBusLog (s.busLog ++ [.read s.pc v])).setPc (s.pc + 1)) := by
  simp only [fetchByte, busRead_eq_of_ram hd, hv, State.setBusLog_pc]

/-- Fetching a word from RAM: the two reads are of its low byte, then of its high byte. -/
theorem fetchWord_of_ram {s : State} {w : Word} (hd : isDevice s s.pc = false)
    (hd' : isDevice s (s.pc + 1) = false) (hl : byteAt s s.pc = lo w)
    (hh : byteAt s (s.pc + 1) = hi w) :
    ∃ u, fetchWord s = (w, u) ∧ SameBus s u ∧ u.sp = s.sp ∧ u.pc = s.pc + 1 + 1 ∧
      u.busLog = s.busLog ++ [.read s.pc (lo w), .read (s.pc + 1) (hi w)] := by
  rw [fetchWord, fetchByte_of_ram hd hl, fetchByte_of_ram (v := hi w) hd' hh, mkWord_hi_lo]
  exact ⟨_, rfl, ⟨rfl, rfl, rfl⟩, rfl, rfl, by simp⟩

/-- The fetch of a one-byte instruction from RAM (30_encoding.md R71). -/
theorem fetchInstr_of_f1 {s : State} {op : Byte} {i : Instr} (hf : formOf op = .f1 i)
    (hd : isDevice s s.pc = false) (hop : byteAt s s.pc = op) :
    ∃ u, fetchInstr s = (i, u) ∧ u.sp = s.sp ∧ u.pc = s.pc + 1 ∧ MadeCalls [.read s.pc op] s u := by
  simp only [fetchInstr, fetchByte_of_ram hd hop, hf]
  exact ⟨_, rfl, rfl, rfl, rfl, .of_ramReads ⟨rfl, rfl, rfl⟩
    (by simpa [NoDevice, BusCall.addr] using hd) (by simpa [BusCall.addr] using hop.symm)⟩

/-- The fetch of a three-byte instruction from RAM (30_encoding.md R71): the opcode, then the operand
word. -/
theorem fetchInstr_of_f3 {s : State} {op : Byte} {mk : Word → Instr} {w : Word}
    (hf : formOf op = .f3 mk) (hd : isDevice s s.pc = false)
    (hd1 : isDevice s (s.pc + 1) = false) (hd2 : isDevice s (s.pc + 2) = false)
    (hop : byteAt s s.pc = op) (hl : byteAt s (s.pc + 1) = lo w) (hh : byteAt s (s.pc + 2) = hi w) :
    ∃ u, fetchInstr s = (mk w, u) ∧ u.sp = s.sp ∧ u.pc = s.pc + 3 ∧
      MadeCalls [.read s.pc op, .read (s.pc + 1) (lo w), .read (s.pc + 2) (hi w)] s u := by
  have hpc2 : s.pc + 1 + 1 = s.pc + 2 := by bv_omega
  have hpc3 : s.pc + 2 + 1 = s.pc + 3 := by bv_omega
  obtain ⟨u, hw, hb, hsp, hpc, hlog⟩ := fetchWord_of_ram
    (s := applyFlag .unused true ((s.setBusLog (s.busLog ++ [.read s.pc op])).setPc (s.pc + 1)))
    hd1 (hpc2 ▸ hd2) hl (hpc2 ▸ hh)
  simp only [applyFlag_kept, State.setPc_pc, State.setPc_busLog, State.setBusLog_busLog, hpc2, hpc3,
    List.append_assoc, List.cons_append, List.nil_append] at hpc hlog
  refine ⟨u, by simp only [fetchInstr, fetchByte_of_ram hd hop, hf, hw], hsp, hpc, hlog,
    .of_ramReads ?_ ?_ ?_⟩
  · exact ⟨hb.mem, hb.device, hb.io⟩
  · simpa [NoDevice, BusCall.addr] using ⟨hd, hd1, hd2⟩
  · simpa [BusCall.addr] using ⟨hop.symm, hl.symm, hh.symm⟩

/-- The bus calls of an executing tick are those of the fetch, then those of the instruction
(40_engine_and_addressing.md R91). -/
theorem executeOne_calls {s u t : State} {i : Instr} {c c' : List BusCall}
    (hf : fetchInstr s = (i, u)) (hc : MadeCalls c s u) (he : exec i u = .next t)
    (hc' : MadeCalls c' u t) :
    ∃ v, executeOne s = .next v ∧ v.pc = t.pc ∧ MadeCalls (c ++ c') s v := by
  refine ⟨countDown t, by simp only [executeOne, hf, he, finish], rfl, ?_⟩
  exact (hc.trans hc').congr (.refl s) rfl ⟨rfl, rfl, rfl⟩ rfl

/-! ### A write of `PC` with the cycle charge -/

/-- A jump with its cycle charge changes nothing that a frame speaks of. -/
theorem Frame.jumped {rs : List Reg} {fs : List Flag} {ms : List Word} {s t : State}
    (h : Frame rs fs ms s t) (w : Word) (n : Nat) :
    Frame rs fs ms s (charge n 0 0 (t.setPc w)) :=
  ⟨h.keptRegs, h.keptFlags, h.keptMem, h.keptNmi, h.keptIrq, h.keptIo, h.keptAgenda⟩

/-- A jump with its cycle charge makes no bus call. -/
theorem MadeCalls.jumped {c : List BusCall} {s t : State} (h : MadeCalls c s t) (w : Word)
    (n : Nat) : MadeCalls c s (charge n 0 0 (t.setPc w)) :=
  h.congr (.refl s) rfl ⟨rfl, rfl, rfl⟩ rfl

/-! ### The obligations -/

/-- Settles O40: a word push around the write of `PC`; in the executing tick `PC` stands past the third
byte, so one below it is that byte's address. -/
theorem jsrResult : Obligations.JsrResult := by
  refine ⟨fun w => rfl, fun w s hm => ?_, fun w s hd hd1 hd2 hop hl hh => ?_⟩
  · obtain ⟨hhi, hlo⟩ := pushWord_stored (s.pc - 1) hm
    exact ⟨_, rfl, (pushWord_frame _ s).jumped w 6, by simp, by simp, rfl, rfl, hhi, hlo,
      (pushWord_calls _ s).jumped w 6⟩
  · obtain ⟨u, hf, hsp, hpc, hfetch⟩ := fetchInstr_of_f3 rfl hd hd1 hd2 hop hl hh
    have hthird : u.pc - 1 = s.pc + 2 := by rw [hpc]; bv_omega
    have hpush := (pushWord_calls (u.pc - 1) u).jumped w 6
    obtain ⟨t, ht, htpc, hcalls⟩ := executeOne_calls hf hfetch rfl hpush
    rw [hsp, hthird] at hcalls
    exact ⟨t, ht, htpc, hcalls⟩

/-- Settles O41: a word pull around the write of `PC`; no call writes, so the second byte pulled is
answered from memory as it was. -/
theorem rtsResult : Obligations.RtsResult := by
  refine ⟨rfl, fun s => ?_, fun s hd hop => ?_⟩
  · have hpull := pullWord_calls s
    exact ⟨_, (pull s).1, (pull (pull s).2).1, rfl, (pullWord_frame s).jumped _ 6, by simp, by simp,
      rfl, rfl, hpull.answeredBy, hpull.answeredLater (pre := [_]) (by simp), hpull.jumped _ 6⟩
  · obtain ⟨u, hf, hsp, -, hfetch⟩ := fetchInstr_of_f1 rfl hd hop
    have hpull := (pullWord_calls u).jumped ((pullWord u).1 + 1) 6
    obtain ⟨t, ht, htpc, hcalls⟩ := executeOne_calls hf hfetch rfl hpull
    rw [hsp] at hcalls
    exact ⟨t, _, _, ht, htpc, hcalls⟩

end Sys2Proof.Machine
end

section
/-! PROOFS. The stack instructions (48_stack.md R210 to R212): PHA and PHP are one push with its cycle
charge, PLA is a pull and then a load of `A` with its flags. -/

namespace Sys2Proof.Machine

/-! ### A push with its cycle charge -/

/-- The cycle charge makes no bus call. -/
theorem MadeCalls.charged {c : List BusCall} {s t : State} (h : MadeCalls c s t)
    (base ax ox : Nat) : MadeCalls c s (charge base ax ox t) :=
  h.congr (.refl s) rfl ⟨rfl, rfl, rfl⟩ rfl

/-- The shape that PHA and PHP share (48_stack.md R210, R211): the push of a byte, at a total of 3. -/
theorem push_charged_does (v : Byte) {s : State} (hm : Memory.wf s.mem = true) :
    Frame [.sp] [] [stackAddr s.sp] s (charge 3 0 0 (push v s)) ∧
    (charge 3 0 0 (push v s)).p = s.p ∧ (charge 3 0 0 (push v s)).sp = s.sp - 1 ∧
    (charge 3 0 0 (push v s)).pc = s.pc ∧ (charge 3 0 0 (push v s)).cyc = 3 ∧
    StoredAt (charge 3 0 0 (push v s)) (stackAddr s.sp) v ∧
    MadeCalls [.write (stackAddr s.sp) v] s (charge 3 0 0 (push v s)) := by
  have hcalls := (push_calls v s).charged 3 0 0
  exact ⟨(push_frame v s).charged 3 0 0, by simp only [charge_kept, push_kept], rfl,
    by simp only [charge_kept, push_kept], rfl,
    hcalls.storedAt (pre := []) hm, hcalls⟩

/-- The byte PHP pushes has Break and Unused set and the other flags of `P`. -/
theorem readFlag_or_breakUnused (f : Flag) (p : Byte) :
    readFlag f (p ||| 0x30) = if f = .break ∨ f = .unused then true else readFlag f p := by
  cases f <;> revert p <;> decide

/-- Settles O45: the shared push, of `A` and of the status byte with bits 4 and 5 set. -/
theorem pushInstructions : Obligations.PushInstructions := by
  refine ⟨rfl, rfl, fun s hm => ⟨⟨_, rfl, push_charged_does s.a hm⟩, ?_⟩⟩
  obtain ⟨hframe, hp, hsp, hpc, hcyc, hstored, hcalls⟩ := push_charged_does (s.p ||| 0x30) hm
  exact ⟨_, _, rfl, hframe, hp, hsp, hpc, hcyc, hstored, hcalls,
    fun f => readFlag_or_breakUnused f s.p⟩

/-! ### PLA -/

/-- A pull and then a load of `A` change `A`, `SP`, Z and N. -/
theorem putA_pull_frame (s : State) :
    Frame [.a, .sp] [.zero, .negative] [] s (putA (pull s).1 (pull s).2) :=
  ((pull_frame s).mono (List.subset_cons_self _ _) (List.nil_subset _) (List.Subset.refl _)).trans
    ((putA_frame (pull s).1 (pull s).2).mono (by decide) (List.Subset.refl _) (List.Subset.refl _))

/-- A load of `A` makes no bus call beside the pull's. -/
theorem putA_pull_calls (s : State) :
    MadeCalls [.read (stackAddr (s.sp + 1)) (pull s).1] s (putA (pull s).1 (pull s).2) :=
  (pull_calls s).trans (putA_impliedDone (pull s).1 (pull s).2).bus

/-- A pull moves `SP` alike before and after a cycle charge. -/
theorem pull_charge_sp (base ax ox : Nat) (s : State) :
    (pull (charge base ax ox s)).2.sp = (pull s).2.sp :=
  (pull_sp (charge base ax ox s)).trans (pull_sp s).symm

/-- Settles O46: the frame and the one call of the pull, then the pull that undoes PHA's push. -/
theorem plaResult : Obligations.PlaResult := by
  refine ⟨rfl, fun s => ?_, fun s hm hd => ?_⟩
  · exact ⟨_, rfl, (putA_pull_frame s).charged 4 0 0, (pull_calls s).answeredBy, hasZN_of_setZN rfl,
      pull_sp s, by simp only [charge_kept, putA_eq, State.setP_pc, State.setA_pc, pull_kept], rfl,
      (putA_pull_calls s).charged 4 0 0⟩
  · have hpull : (pull (charge 3 0 0 (push s.a s))).1 = s.a := pull_push_fst s.a hm hd
    have hsp : (pull (charge 3 0 0 (push s.a s))).2.sp = s.sp :=
      (pull_charge_sp 3 0 0 (push s.a s)).trans (pull_push_sp s.a s)
    exact ⟨_, _, rfl, rfl, hpull, hsp, hasZN_of_setZN (congrArg (setZN · _) hpull)⟩

end Sys2Proof.Machine
end

section
/-! PROOFS. The flag instructions (49_system.md R223 to R229): each is one write of its flag, with its cycle
charge. -/

namespace Sys2Proof.Machine

/-! ### A write of one flag -/

/-- A write of a flag changes no other flag and no register. -/
theorem applyFlag_frame (f : Flag) (b : Bool) (s : State) : Frame [] [f] [] s (applyFlag f b s) :=
  setP_frame fun _ hg => readFlag_writeFlag_other b s.p (List.ne_of_not_mem_cons hg)

/-- A write of a flag makes no bus call. -/
theorem applyFlag_impliedDone (f : Flag) (b : Bool) (s : State) : ImpliedDone s (applyFlag f b s) :=
  setP_impliedDone (writeFlag f b s.p) s

/-- The shape that the seven share (49_system.md R223 to R229): a write of the flag, with its cycle
charge. -/
theorem flagEffect_of_exec {i : Instr} {op : Byte} {f : Flag} {b : Bool} {n : Nat} {s : State}
    (hcode : encode i = [op]) (hexec : exec i s = .next (charge n 0 0 (applyFlag f b s))) :
    FlagEffect i op f b s :=
  ⟨hcode, _, hexec, (applyFlag_frame f b s).charged n 0 0, readFlag_writeFlag_same f b s.p,
    (applyFlag_impliedDone f b s).charged n 0 0⟩

/-- Settles O53: the common shape at each of the seven. -/
theorem flagInstructionResults : Obligations.FlagInstructionResults :=
  fun _ => ⟨flagEffect_of_exec rfl rfl, flagEffect_of_exec rfl rfl, flagEffect_of_exec rfl rfl,
    flagEffect_of_exec rfl rfl, flagEffect_of_exec rfl rfl, flagEffect_of_exec rfl rfl,
    flagEffect_of_exec rfl rfl⟩

end Sys2Proof.Machine
end

section
/-! PROOFS. Decoding and encoding (30_encoding.md sections 1 to 4): each cell of the grid and the
line of R75 that names its byte agree, so each of the two functions undoes the other. -/

namespace Sys2Proof

open Machine (hi lo mkWord mkWord_hi_lo)

/-! ### The form of an opcode byte and the words of its instructions -/

/-- Every instruction that operand bytes complete the form to is encoded in `op` and those bytes, and is
as long as they are (30_encoding.md R71). -/
def Form.EncodesFrom (op : Byte) : Form → Prop
  | .f1 i => encode i = [op] ∧ i.length = 1
  | .f2 mk => ∀ d, encode (mk d) = [op, d] ∧ (mk d).length = 2
  | .f3 mk => ∀ w, encode (mk w) = [op, lo w, hi w] ∧ (mk w).length = 3

/-- Operand bytes complete the form to `i`. -/
def Form.Makes (i : Instr) : Form → Prop
  | .f1 j => i = j
  | .f2 mk => ∃ d, i = mk d
  | .f3 mk => ∃ w, i = mk w

/-- Each cell of the grid of 30_encoding.md R76 agrees with the line of R75 that gives its mnemonic and
mode a byte: the table is spread into its cells, each with its row and column. -/
theorem opcodeGrid_encodesFrom :
    ∀ row ∈ opcodeGrid.zipIdx, ∀ cell ∈ row.1.zipIdx, ∀ f ∈ cell.1,
      f.EncodesFrom (BitVec.ofNat 8 (row.2 * 16 + cell.2)) := by
  simp only [opcodeGrid, gridRow0, gridRow1, gridRow2, gridRow3, gridRow4, gridRow5, gridRow6,
    gridRow7, gridRow8, gridRow9, gridRowA, gridRowB, gridRowC, gridRowD, gridRowE, gridRowF,
    cellNone, cellImp, cellImm, cellZp, cellZpX, cellZpY, cellAbs, cellAbsX, cellAbsY, cellIndX,
    cellIndY, cellRel, cellJmp, cellJmpInd, cellJsr, List.zipIdx_cons, List.zipIdx_nil,
    List.forall_mem_cons, Option.mem_def, Option.some.injEq, forall_eq', reduceCtorEq,
    false_implies, implies_true, true_and, and_true, List.not_mem_nil, Form.EncodesFrom, forall_and]
  repeat' apply And.intro
  all_goals (intros; rfl)

/-- The lookup finds the cell whose row and column are the nibbles of the opcode byte. -/
theorem gridCell_encodesFrom {op : Byte} {f : Form} (h : gridCell op = some f) :
    f.EncodesFrom op := by
  have hrow : op.toNat / 16 < opcodeGrid.length := by
    have := op.isLt
    simp only [opcodeGrid, List.length_cons, List.length_nil]
    omega
  rw [gridCell, List.getD_eq_getElem?_getD, List.getD_eq_getElem?_getD,
    List.getElem?_eq_getElem hrow, Option.getD_some, Option.getD_eq_iff] at h
  obtain hcell | ⟨-, hnone⟩ := h
  · have hop : BitVec.ofNat 8 (op.toNat / 16 * 16 + op.toNat % 16) = op := by
      rw [Nat.div_add_mod', BitVec.ofNat_toNat, BitVec.setWidth_eq]
    exact hop ▸ opcodeGrid_encodesFrom (_, op.toNat / 16)
      (List.mk_mem_zipIdx_iff_getElem?.2 (List.getElem?_eq_getElem hrow)) (some f, op.toNat % 16)
      (List.mk_mem_zipIdx_iff_getElem?.2 hcell) f rfl
  · cases hnone

/-- A byte that R77 lists stands in no cell of the grid. -/
theorem gridCell_eq_none_of_mem_undocumentedOpcodes :
    ∀ op ∈ undocumentedOpcodes, gridCell op = none := by
  decide

/-- The fallback is encoded in its own byte (30_encoding.md R77). -/
theorem encode_undoc {op : Byte} (h : op ∈ undocumentedOpcodes) : encode (.undoc op) = [op] := by
  simp only [encode, Instr.opcode, List.contains_iff_mem.2 h, if_true, Instr.operandBytes]

/-- Whatever an opcode byte selects is encoded from that byte, a documented cell and the fallback
alike. -/
theorem formOf_encodesFrom (op : Byte) : (formOf op).EncodesFrom op := by
  cases h : gridCell op with
  | some f => simpa [formOf, h] using gridCell_encodesFrom h
  | none =>
    rw [formOf, h]
    exact ⟨encode_undoc (mem_undocumentedOpcodes_of_gridCell_eq_none op h), rfl⟩

/-- Every instruction of the machine has an opcode byte, and the byte's form makes it: mnemonic by
mnemonic, and mode by mode where R75 gives it a choice. -/
theorem exists_opcode_makes {i : Instr} (h : WellFormed i) :
    ∃ op, i.opcode = some op ∧ (formOf op).Makes i := by
  cases i with
  | adc o | sbc o | and o | ora o | eor o | bit o | lda o | ldx o | ldy o | sta o | stx o | sty o
  | cmp o | cpx o | cpy o | inc o | dec o =>
    cases o <;> cases h <;> exact ⟨_, rfl, _, rfl⟩
  | asl o | lsr o | rol o | ror o =>
    cases o with
    | acc => exact ⟨_, rfl, rfl⟩
    | _ => cases h <;> exact ⟨_, rfl, _, rfl⟩
  | bcc d | bcs d | beq d | bne d | bmi d | bpl d | bvc d | bvs d => exact ⟨_, rfl, d, rfl⟩
  | jmp t => cases t with
    | abs w | ind w => exact ⟨_, rfl, w, rfl⟩
  | jsr w => exact ⟨_, rfl, w, rfl⟩
  | undoc op =>
    refine ⟨op, if_pos h, ?_⟩
    rw [formOf, gridCell_eq_none_of_mem_undocumentedOpcodes op (List.contains_iff_mem.1 h)]
    rfl
  | tax | tay | txa | tya | tsx | txs | inx | iny | dex | dey | rts | pha | php | pla | plp | brk
  | rti | nop | clc | sec | cli | sei | cld | sed | clv => exact ⟨_, rfl, rfl⟩

/-! ### Each function undoes the other -/

/-- The decoder reads back what the encoder writes: the bytes of a form's instruction are the form's. -/
theorem decode_encode {i : Instr} (h : WellFormed i) (rest : List Byte) :
    decode (encode i ++ rest) = .ok (i, rest) := by
  obtain ⟨op, -, hmakes⟩ := exists_opcode_makes h
  have hbytes := formOf_encodesFrom op
  cases hform : formOf op with
  | f1 j =>
    rw [hform] at hmakes hbytes
    obtain rfl : i = j := hmakes
    rw [hbytes.1, List.singleton_append, decode, hform]
  | f2 mk =>
    rw [hform] at hmakes hbytes
    obtain ⟨d, rfl⟩ := hmakes
    rw [(hbytes d).1, List.cons_append, decode, hform]
    rfl
  | f3 mk =>
    rw [hform] at hmakes hbytes
    obtain ⟨w, rfl⟩ := hmakes
    rw [(hbytes w).1, List.cons_append, decode, hform]
    exact congrArg (fun v => Except.ok (mk v, rest)) (mkWord_hi_lo w)

/-- The encoder writes back what the decoder reads, in as many bytes as the instruction is long. -/
theorem encode_decode {bs rest : List Byte} {i : Instr} (h : decode bs = .ok (i, rest)) :
    encode i ++ rest = bs ∧ (encode i).length = i.length := by
  cases bs with
  | nil => simp [decode] at h
  | cons op bs =>
    have hbytes := formOf_encodesFrom op
    rw [decode] at h
    generalize formOf op = form at h hbytes
    cases form with
    | f1 j =>
      cases h
      simp [hbytes.1, hbytes.2]
    | f2 mk =>
      cases bs with
      | nil => cases h
      | cons d _ =>
        cases h
        simp [(hbytes d).1, (hbytes d).2]
    | f3 mk =>
      match bs, h with
      | l :: u :: _, h =>
        cases h
        simp [(hbytes (mkWord u l)).1, (hbytes (mkWord u l)).2]

/-! ### The obligations -/

/-- Settles O1: the form of an instruction's opcode byte makes it. -/
theorem decodeOfEncodeIsIdentity : Obligations.DecodeOfEncodeIsIdentity :=
  fun _ rest h => decode_encode h rest

/-- Settles O2: the form of the first byte encodes from that byte. -/
theorem encodeOfDecodeIsIdentity : Obligations.EncodeOfDecodeIsIdentity :=
  fun _ _ _ h => ⟨decode_wellFormed h, encode_decode h⟩

/-- Settles O4: each word runs through the decoder. -/
theorem sampleWordsDecode : Obligations.SampleWordsDecode :=
  ⟨rfl, rfl, rfl, rfl, rfl, rfl, rfl, rfl, rfl, rfl⟩

/-- Settles O5: what decodes is well formed, and the fallback is so on the listed bytes alone; those are
decoded back from their encoding. -/
theorem fallbackBytesAreThoseListed : Obligations.FallbackBytesAreThoseListed := by
  refine ⟨rfl, fun op rest => ⟨fun h => List.contains_iff_mem.1 (decode_wellFormed h), fun h => ?_⟩⟩
  simpa [encode_undoc h] using decode_encode (i := .undoc op) (List.contains_iff_mem.2 h) rest

end Sys2Proof
end

section
/-! PROOFS. The bus, the stack and the operand resolvers neither read nor write the status byte:
each of them does after a write of `P` what it does before it. -/

namespace Sys2Proof.Machine

/-- What devices do is the same after a write of `P`. -/
theorem deviceCall_setP (a : Word) (w : Option Byte) (q : Byte) (s : State) :
    deviceCall a w (s.setP q) = (deviceCall a w s).setP q := by
  unfold deviceCall
  rw [isDevice_congr (State.setP_io s q), deviceStores_congr (State.setP_io s q)]
  split <;> rfl

@[simp] theorem busRead_setP (a : Word) (q : Byte) (s : State) :
    busRead a (s.setP q) = ((busRead a s).1, (busRead a s).2.setP q) :=
  congrArg (Prod.mk (busAnswer a s))
    (deviceCall_setP a none q (s.setBusLog (s.busLog ++ [BusCall.read a (busAnswer a s)])))

@[simp] theorem busWrite_setP (a : Word) (v q : Byte) (s : State) :
    busWrite a v (s.setP q) = (busWrite a v s).setP q :=
  deviceCall_setP a (some v) q ((s.setBusLog (s.busLog ++ [BusCall.write a v])).setMem
    (if isDevice s a then s.mem else Memory.write s.mem a.toNat v))

@[simp] theorem readWord_setP (al ah : Word) (q : Byte) (s : State) :
    readWord al ah (s.setP q) = ((readWord al ah s).1, (readWord al ah s).2.setP q) := by
  simp only [readWord, busRead_setP]

@[simp] theorem push_setP (v q : Byte) (s : State) : push v (s.setP q) = (push v s).setP q := by
  simp only [push, State.setP_sp, busWrite_setP]
  rfl

@[simp] theorem pull_setP (q : Byte) (s : State) :
    pull (s.setP q) = ((pull s).1, (pull s).2.setP q) :=
  busRead_setP _ q (s.setSp (s.sp + 1))

@[simp] theorem pushWord_setP (w : Word) (q : Byte) (s : State) :
    pushWord w (s.setP q) = (pushWord w s).setP q := by
  simp only [pushWord, push_setP]

@[simp] theorem pullWord_setP (q : Byte) (s : State) :
    pullWord (s.setP q) = ((pullWord s).1, (pullWord s).2.setP q) := by
  simp only [pullWord, pull_setP]

/-- A resolver finds the same place, at the same extra cost. -/
@[simp] theorem resolve_setP (o : Operand) (q : Byte) (s : State) :
    resolve o (s.setP q) = { resolve o s with st := (resolve o s).st.setP q } := by
  cases o with
  | acc | imm d | zp d | zpx d | zpy d | abs w | absx w | absy w => rfl
  | indx d | indy d =>
    simp only [resolve, readZeroPagePointer, State.setP_x, State.setP_y, readWord_setP]
    rfl

@[simp] theorem resolveTarget_setP (g : Target) (q : Byte) (s : State) :
    resolveTarget g (s.setP q) = ((resolveTarget g s).1, (resolveTarget g s).2.setP q) := by
  cases g with
  | abs w => rfl
  | ind ptr => simp only [resolveTarget, readJumpPointer, readWord_setP]

@[simp] theorem readPlace_setP (p : Place) (q : Byte) (s : State) :
    readPlace p (s.setP q) = ((readPlace p s).1, (readPlace p s).2.setP q) := by
  cases p with
  | acc | imm d => rfl
  | ea a => exact busRead_setP a q s

@[simp] theorem writePlace_setP (p : Place) (v q : Byte) (s : State) :
    writePlace p v (s.setP q) = (writePlace p v s).setP q := by
  cases p with
  | acc => rfl
  | imm d => exact busWrite_setP _ v q s
  | ea a => exact busWrite_setP a v q s

@[simp] theorem operandByte_setP (o : Operand) (q : Byte) (s : State) :
    operandByte o (s.setP q) = operandByte o s := by
  simp only [operandByte, resolve_setP, readPlace_setP]

@[simp] theorem afterOperand_setP (o : Operand) (q : Byte) (s : State) :
    afterOperand o (s.setP q) = (afterOperand o s).setP q := by
  simp only [afterOperand, resolve_setP, readPlace_setP]

end Sys2Proof.Machine
end

section
/-! PROOFS. ADC and SBC (41_arithmetic.md R120 to R124): the read class around a write of `A`, C, V,
Z and N from the core's output, and that output in numbers, in binary and in decimal. -/

namespace Sys2Proof.Machine

/-! ### The write of the result and of the four flags -/

/-- ADC and SBC write N, Z, V and C and no other flag (41_arithmetic.md R120, R121). -/
theorem readFlag_setArithmetic (f : Flag) (r : AluOut) (p : Byte) :
    readFlag f (setArithmetic r p) =
      if f = .negative then r.negative
      else if f = .zero then r.zero
      else if f = .overflow then r.overflow
      else if f = .carry then r.carry else readFlag f p := by
  simp only [setArithmetic, readFlag_writeFlag]

/-- The write of a core's output changes `A`, C, V, Z and N. -/
theorem putArithmetic_frame (r : AluOut) (s : State) :
    Frame [.a] [.carry, .overflow, .zero, .negative] [] s (putArithmetic r s) := by
  refine .of_same ⟨rfl, rfl, rfl⟩ (by simp) (fun _ => rfl) (fun _ => rfl) (fun _ => rfl)
    (fun f hf => ?_) ⟨rfl, rfl, rfl⟩
  simp only [List.mem_cons, List.not_mem_nil, or_false, not_or] at hf
  obtain ⟨hc, hv, hz, hn⟩ := hf
  exact (readFlag_setArithmetic f r s.p).trans
    (by rw [if_neg hn, if_neg hz, if_neg hv, if_neg hc])

/-- The write of a core's output makes no bus call. -/
theorem putArithmetic_impliedDone (r : AluOut) (s : State) : ImpliedDone s (putArithmetic r s) :=
  ⟨rfl, .of_same rfl ⟨rfl, rfl, rfl⟩⟩

/-- `t` holds a core's output `r` in `A`, C, V, Z and N. -/
structure AluOut.LeftIn (r : AluOut) (t : State) : Prop where
  result : t.a = r.result
  carry : readFlag .carry t.p = r.carry
  overflow : readFlag .overflow t.p = r.overflow
  zero : readFlag .zero t.p = r.zero
  negative : readFlag .negative t.p = r.negative

/-- The write of a core's output leaves it. -/
theorem putArithmetic_leftIn (r : AluOut) (s : State) : r.LeftIn (putArithmetic r s) where
  result := rfl
  carry := readFlag_setArithmetic .carry r s.p
  overflow := readFlag_setArithmetic .overflow r s.p
  zero := readFlag_setArithmetic .zero r s.p
  negative := readFlag_setArithmetic .negative r s.p

/-- The shape that ADC and SBC share: the core works on `A` and `P`, which the operand's read keeps, and
the operand. -/
theorem readOp_putArithmetic (core : Byte → Byte → Byte → AluOut) (o : Operand) (s : State) :
    (core s.a (operandByte o s) s.p).LeftIn
      (readOp o (fun m t => putArithmetic (core t.a m t.p) t) s) := by
  have h := putArithmetic_leftIn (core s.a (operandByte o s) s.p) (afterOperand o s)
  simp only [readOp_eq, afterOperand_kept]
  exact ⟨h.result, h.carry, h.overflow, h.zero, h.negative⟩

/-- The status byte that shape leaves. -/
theorem readOp_putArithmetic_p (core : Byte → Byte → Byte → AluOut) (o : Operand) (s : State) :
    (readOp o (fun m t => putArithmetic (core t.a m t.p) t) s).p =
      setArithmetic (core s.a (operandByte o s) s.p) s.p := by
  simp only [readOp_eq, afterOperand_kept, charge_kept, putArithmetic, State.setA_p, State.setP_p]

/-- Settles O22: the rows of 30_encoding.md R75, then the read class around the write of each core's
output. -/
theorem arithmeticFrame : Obligations.ArithmeticFrame := by
  refine ⟨fun _ _ => ?_, fun _ _ => ?_, fun o s => ⟨?_, ?_⟩⟩
  · exact ⟨rfl, rfl, rfl, rfl, rfl, rfl, rfl, rfl⟩
  · exact ⟨rfl, rfl, rfl, rfl, rfl, rfl, rfl, rfl⟩
  · exact ⟨_, rfl, readOp_frame (putArithmetic_frame _ _),
      readOp_readDone (putArithmetic_impliedDone _ _)⟩
  · exact ⟨_, rfl, readOp_frame (putArithmetic_frame _ _),
      readOp_readDone (putArithmetic_impliedDone _ _)⟩

/-! ### Which core `P.D` selects (41_arithmetic.md R120, R121) -/

theorem addCore_binary {a m p : Byte} (h : readFlag .decimal p = false) :
    addCore a m p = addBin a m (readFlag .carry p) :=
  if_neg (by simp [h])

theorem subCore_binary {a m p : Byte} (h : readFlag .decimal p = false) :
    subCore a m p = addBin a (m ^^^ 0xFF) (readFlag .carry p) :=
  if_neg (by simp [h])

theorem addCore_decimal {a m p : Byte} (h : readFlag .decimal p = true) :
    addCore a m p = addDec a m (readFlag .carry p) :=
  if_pos h

theorem subCore_decimal {a m p : Byte} (h : readFlag .decimal p = true) :
    subCore a m p = subDec a m (readFlag .carry p) :=
  if_pos h

/-! ### Binary arithmetic -/

/-- The binary core's Z and N are those of its result. -/
theorem AluOut.LeftIn.hasZN {a m : Byte} {c : Bool} {t : State} (h : (addBin a m c).LeftIn t) :
    HasZN t.a t := by
  rw [HasZN, h.zero, h.negative, addBin_zero, addBin_negative, h.result,
    BitVec.msb_eq_getLsbD_last]
  exact ⟨Bool.eq_iff_iff.2 (beq_iff_eq.trans decide_eq_true_iff.symm), rfl⟩

/-- Adding the complement subtracts the operand and the borrow, mod 256 (41_arithmetic.md R121). -/
theorem subBin_result_toNat (a m : Byte) (c : Bool) :
    ((addBin a (m ^^^ 0xFF) c).result.toNat : Int) =
      ((a.toNat : Int) - m.toNat - (1 - c.toNat)) % 256 := by
  have := m.isLt
  rw [addBin_result_toNat, complement_toNat]
  omega

/-- That sum carries exactly when the subtraction does not borrow. -/
theorem subBin_carry (a m : Byte) (c : Bool) :
    (addBin a (m ^^^ 0xFF) c).carry = decide (m.toNat + (1 - c.toNat) ≤ a.toNat) := by
  have := m.isLt
  have := c.toNat_le
  rw [addBin_carry, complement_toNat, decide_eq_decide]
  omega

/-- Read as two's complement, the complement is the negative less one. -/
theorem complement_toInt (m : Byte) : (m ^^^ 0xFF).toInt = -m.toInt - 1 := by
  have := m.isLt
  rw [BitVec.toInt_eq_toNat_cond, BitVec.toInt_eq_toNat_cond, complement_toNat]
  split <;> split <;> omega

/-- The subtraction overflows exactly when the signed difference does not fit a byte. -/
theorem subBin_overflow_iff (a m : Byte) (c : Bool) :
    (addBin a (m ^^^ 0xFF) c).overflow = true ↔
      a.toInt - m.toInt - (1 - (c.toNat : Int)) < -128 ∨
        127 < a.toInt - m.toInt - (1 - (c.toNat : Int)) := by
  rw [addBin_overflow_iff, complement_toInt]
  omega

/-- Settles O23: with Decimal clear the core is the binary one. -/
theorem adcBinaryResult : Obligations.AdcBinaryResult := by
  intro o s hd
  have h := readOp_putArithmetic addCore o s
  rw [addCore_binary hd] at h
  exact ⟨_, rfl, (congrArg BitVec.toNat h.result).trans (addBin_result_toNat ..),
    h.carry.trans (addBin_carry ..), h.overflow ▸ addBin_overflow_iff .., h.hasZN⟩

/-- Settles O24: with Decimal clear the core adds the operand's complement. -/
theorem sbcBinaryResult : Obligations.SbcBinaryResult := by
  intro o s hd
  have h := readOp_putArithmetic subCore o s
  rw [subCore_binary hd] at h
  exact ⟨_, rfl, (congrArg (fun v : Byte => (v.toNat : Int)) h.result).trans (subBin_result_toNat ..),
    h.carry.trans (subBin_carry ..), h.overflow ▸ subBin_overflow_iff .., h.hasZN⟩

/-! ### Decimal arithmetic -/

/-- The low digit. -/
theorem and_0F_toNat (v : Byte) : (v &&& 0x0F).toNat = v.toNat % 16 :=
  (BitVec.toNat_and v 0x0F).trans (Nat.and_two_pow_sub_one_eq_mod v.toNat 4)

/-- The high digit, in its place. -/
theorem and_F0_toNat : ∀ v : Byte, (v &&& 0xF0).toNat = v.toNat / 16 * 16 := by
  decide

/-- R123's core on the sum of the digits, in which the low one is adjusted. -/
theorem addDec_eq (a m : Byte) (c : Bool) :
    addDec a m c =
      let t := decimalSum a.toNat m.toNat c.toNat
      let adjusted := if 0xA0 ≤ t then t + 0x60 else t
      { result := BitVec.ofNat 8 adjusted
        carry := decide (0x100 ≤ adjusted)
        overflow := ((a ^^^ BitVec.ofNat 8 t) &&& (m ^^^ BitVec.ofNat 8 t)).msb
        zero := BitVec.ofNat 8 (a.toNat + m.toNat + c.toNat) == 0
        negative := (BitVec.ofNat 8 t).msb } := by
  have hlow : ∀ n, (if 0x0A ≤ n then (n + 0x06) % 16 + 0x10 else n) =
      if n < 10 then n else (n + 6) % 16 + 16 := fun n => by split <;> split <;> omega
  simp only [addDec, decimalSum, and_0F_toNat, and_F0_toNat, hlow]
  rfl

/-- R124's core: the digits of the difference, and the flags of the binary subtraction. -/
theorem subDec_eq (a m : Byte) (c : Bool) :
    subDec a m c = { addBin a (m ^^^ 0xFF) c with result := (subDec a m c).result } := rfl

/-- R123's result: one more digit's adjustment where the sum reaches 0xA0. -/
theorem addDec_result_toNat (a m : Byte) (c : Bool) :
    (addDec a m c).result.toNat =
      (if decimalSum a.toNat m.toNat c.toNat < 160 then decimalSum a.toNat m.toNat c.toNat
        else decimalSum a.toNat m.toNat c.toNat + 96) % 256 := by
  rw [addDec_eq, BitVec.toNat_ofNat]
  split <;> split <;> omega

/-- R123's carry: the adjusted sum passes a byte exactly where the high digit is adjusted. -/
theorem addDec_carry (a m : Byte) (c : Bool) :
    (addDec a m c).carry = decide (160 ≤ decimalSum a.toNat m.toNat c.toNat) := by
  rw [addDec_eq, decide_eq_decide]
  split <;> omega

/-- R123's negative: bit 7 of the sum before the high digit's adjustment. -/
theorem addDec_negative (a m : Byte) (c : Bool) :
    (addDec a m c).negative = decide (128 ≤ decimalSum a.toNat m.toNat c.toNat % 256) := by
  rw [addDec_eq]
  show (BitVec.ofNat 8 (decimalSum a.toNat m.toNat c.toNat)).msb = _
  rw [BitVec.msb_eq_decide, BitVec.toNat_ofNat]

/-- Two conditions both differ from a third exactly when they are alike and the first differs. -/
theorem both_differ_iff {p q r : Prop} : ¬ (p ↔ r) ∧ ¬ (q ↔ r) ↔ (p ↔ q) ∧ ¬ (p ↔ r) := by
  by_cases hp : p <;> by_cases hq : q <;> simp [hp, hq]

/-- R123's overflow: operands of one sign, and the sum before the high digit's adjustment of the
other. -/
theorem addDec_overflow_iff (a m : Byte) (c : Bool) :
    (addDec a m c).overflow = true ↔
      (128 ≤ a.toNat ↔ 128 ≤ m.toNat) ∧
        ¬ (128 ≤ a.toNat ↔ 128 ≤ decimalSum a.toNat m.toNat c.toNat % 256) := by
  rw [addDec_eq]
  simp only [BitVec.msb_and, BitVec.msb_xor]
  simp only [BitVec.msb_eq_decide, BitVec.toNat_ofNat, Bool.and_eq_true, bne_iff_ne, ne_eq,
    decide_eq_decide]
  exact both_differ_iff

/-- R123's zero: that of the binary sum. -/
theorem addDec_zero (a m : Byte) (c : Bool) :
    (addDec a m c).zero = decide ((a.toNat + m.toNat + c.toNat) % 256 = 0) := by
  rw [addDec_eq, Bool.eq_iff_iff, beq_iff_eq, decide_eq_true_iff, ← BitVec.toNat_inj]
  exact Iff.rfl

/-- An integer kept in a byte, as a number. -/
theorem ofInt_toNat (x : Int) : ((BitVec.ofInt 8 x).toNat : Int) = x % 256 := by
  rw [BitVec.toNat_ofInt]
  exact Int.toNat_of_nonneg (Int.emod_nonneg x (by decide))

/-- R124's result, in numbers. -/
theorem subDec_result_toNat (a m : Byte) (c : Bool) :
    ((subDec a m c).result.toNat : Int) = decimalDifference a.toNat m.toNat c.toNat := by
  simp only [subDec, decimalDifference, and_0F_toNat, and_F0_toNat, ofInt_toNat, Int.natCast_ediv,
    Int.natCast_emod, Int.natCast_mul, Int.cast_ofNat_Int]

/-- Settles O26: ADC's output in numbers; of SBC's output the result alone is decimal, and with Decimal
clear the binary core works on the same operand and Carry. -/
theorem decimalFlags : Obligations.DecimalFlags := by
  intro o s hd
  have hadd := readOp_putArithmetic addCore o s
  have hsub := readOp_putArithmetic subCore o s
  rw [addCore_decimal hd] at hadd
  rw [subCore_decimal hd] at hsub
  refine ⟨⟨_, rfl, (congrArg BitVec.toNat hadd.result).trans (addDec_result_toNat ..),
    hadd.carry.trans (addDec_carry ..), hadd.negative.trans (addDec_negative ..),
    hadd.overflow ▸ addDec_overflow_iff .., hadd.zero.trans (addDec_zero ..)⟩,
    _, _, rfl, rfl, (congrArg (fun v : Byte => (v.toNat : Int)) hsub.result).trans
      (subDec_result_toNat ..), fun f hf => ?_⟩
  rw [readOp_putArithmetic_p subCore, readOp_putArithmetic_p subCore, operandByte_setP, State.setP_p,
    State.setP_a, subCore_decimal hd, subCore_binary (readFlag_writeFlag_same _ _ _), subDec_eq,
    readFlag_writeFlag_other _ _ (by decide), readFlag_setArithmetic, readFlag_setArithmetic,
    readFlag_writeFlag_other _ _ hf]

/-! ### Valid BCD -/

/-- The BCD byte of a high and a low digit. -/
theorem bcdOf_digits {h l : Nat} (hl : l ≤ 9) : bcdOf (10 * h + l) = 16 * h + l := by
  simp only [bcdOf]
  omega

/-- On valid BCD the low digits' adjustment carries into the high digit: the sum has the digits of the
decimal sum, of which only the high one may pass 9. -/
theorem decimalSum_of_isBcd {a m : Byte} (ha : isBcd a) (hm : isBcd m) (c : Bool) :
    ∃ h l, h ≤ 19 ∧ l ≤ 9 ∧ decimalSum a.toNat m.toNat c.toNat = 16 * h + l ∧
      decOf a + decOf m + c.toNat = 10 * h + l := by
  obtain ⟨hah, hal⟩ := ha
  obtain ⟨hmh, hml⟩ := hm
  have := c.toNat_le
  simp only [decimalSum, decOf]
  by_cases hlow : a.toNat % 16 + m.toNat % 16 + c.toNat < 10
  · refine ⟨a.toNat / 16 + m.toNat / 16, a.toNat % 16 + m.toNat % 16 + c.toNat, ?_⟩
    rw [if_pos hlow]
    omega
  · refine ⟨a.toNat / 16 + m.toNat / 16 + 1, a.toNat % 16 + m.toNat % 16 + c.toNat - 10, ?_⟩
    rw [if_neg hlow]
    omega

/-- On valid BCD the low digits' adjustment borrows from the high digit: the difference has the digits of
the decimal difference, of which only the high one may be negative, and is then adjusted. -/
theorem decimalDifference_of_isBcd {a m : Byte} (ha : isBcd a) (hm : isBcd m) (c : Bool) :
    ∃ h l : Int, -10 ≤ h ∧ h ≤ 9 ∧ 0 ≤ l ∧ l ≤ 9 ∧
      decimalDifference a.toNat m.toNat c.toNat = 16 * (if h < 0 then h + 10 else h) + l ∧
      (decOf a : Int) - decOf m - (1 - c.toNat) = 10 * h + l := by
  obtain ⟨hah, hal⟩ := ha
  obtain ⟨hmh, hml⟩ := hm
  have := c.toNat_le
  simp only [decimalDifference, decOf]
  by_cases hlow : (a.toNat : Int) % 16 - m.toNat % 16 + c.toNat - 1 < 0
  · refine ⟨a.toNat / 16 - m.toNat / 16 - 1, a.toNat % 16 - m.toNat % 16 + c.toNat + 9, ?_⟩
    rw [if_pos hlow]
    refine ⟨by omega, by omega, by omega, by omega, ?_, by omega⟩
    split <;> split <;> omega
  · refine ⟨a.toNat / 16 - m.toNat / 16, a.toNat % 16 - m.toNat % 16 + c.toNat - 1, ?_⟩
    rw [if_neg hlow]
    refine ⟨by omega, by omega, by omega, by omega, ?_, by omega⟩
    split <;> split <;> omega

/-- On valid BCD the binary subtraction borrows exactly where the decimal one does. -/
theorem borrow_of_isBcd {a m : Byte} (ha : isBcd a) (hm : isBcd m) (c : Bool) :
    m.toNat + (1 - c.toNat) ≤ a.toNat ↔ decOf m + (1 - c.toNat) ≤ decOf a := by
  obtain ⟨ha, ha'⟩ := ha
  obtain ⟨hm, hm'⟩ := hm
  have := c.toNat_le
  simp only [decOf]
  omega

/-- On valid BCD, R123's core gives the BCD byte of the decimal sum mod 100, and carries where the sum
reaches 100. -/
theorem addDec_of_isBcd {a m : Byte} (ha : isBcd a) (hm : isBcd m) (c : Bool) :
    (addDec a m c).result.toNat = bcdOf ((decOf a + decOf m + c.toNat) % 100) ∧
      (addDec a m c).carry = decide (100 ≤ decOf a + decOf m + c.toNat) := by
  obtain ⟨h, l, hh, hl, hsum, hdec⟩ := decimalSum_of_isBcd ha hm c
  rw [addDec_result_toNat, addDec_carry, hsum, hdec, decide_eq_decide]
  refine ⟨?_, by omega⟩
  by_cases h10 : h < 10
  · rw [show (10 * h + l) % 100 = 10 * h + l by omega, bcdOf_digits hl]
    split <;> omega
  · rw [show (10 * h + l) % 100 = 10 * (h - 10) + l by omega, bcdOf_digits hl]
    split <;> omega

/-- On valid BCD, R124's core gives the BCD byte of the decimal difference mod 100. -/
theorem subDec_of_isBcd {a m : Byte} (ha : isBcd a) (hm : isBcd m) (c : Bool) :
    (subDec a m c).result.toNat = bcdOf ((decOf a + 100 - decOf m - (1 - c.toNat)) % 100) := by
  obtain ⟨h, l, hlow, hhigh, hl, hl', hdiff, hdec⟩ := decimalDifference_of_isBcd ha hm c
  have := c.toNat_le
  have hresult := (subDec_result_toNat a m c).trans hdiff
  have hdigits : (decOf a + 100 - decOf m - (1 - c.toNat)) % 100 =
      10 * (if h < 0 then h + 10 else h).toNat + l.toNat := by
    split <;> omega
  rw [hdigits, bcdOf_digits (by omega)]
  revert hresult
  split <;> omega

/-- Settles O25: on valid BCD each core's output is decimal, and the borrow is the decimal one. -/
theorem decimalArithmeticOnBcd : Obligations.DecimalArithmeticOnBcd := by
  intro o s hd ha hm
  have hadd := readOp_putArithmetic addCore o s
  have hsub := readOp_putArithmetic subCore o s
  rw [addCore_decimal hd] at hadd
  rw [subCore_decimal hd] at hsub
  obtain ⟨hsum, hcarry⟩ := addDec_of_isBcd ha hm (readFlag .carry s.p)
  refine ⟨⟨_, rfl, (congrArg BitVec.toNat hadd.result).trans hsum, hadd.carry.trans hcarry⟩,
    _, rfl, (congrArg BitVec.toNat hsub.result).trans (subDec_of_isBcd ha hm _), ?_⟩
  rw [hsub.carry, subDec_eq, subBin_carry, decide_eq_decide, borrow_of_isBcd ha hm]

end Sys2Proof.Machine
end

section
/-! PROOFS. Effective addresses and the read of an operand (40_engine_and_addressing.md sections 1
to 3): the resolvers that read no pointer in numbers, the pointer as a word read, and the operand as
one bus read. -/

namespace Sys2Proof.Machine

/-! ### Adding an index -/

/-- An index added inside page zero wraps in 8 bits (40_engine_and_addressing.md R103, R104). -/
theorem zext16_add_toNat (d i : Byte) : (zext16 (d + i)).toNat = (d.toNat + i.toNat) % 256 :=
  (zext16_toNat _).trans (BitVec.toNat_add d i)

/-- An index added to a base address wraps in 16 bits (40_engine_and_addressing.md R106, R107). -/
theorem add_zext16_toNat (b : Word) (i : Byte) :
    (b + zext16 i).toNat = (b.toNat + i.toNat) % 65536 := by
  rw [BitVec.toNat_add, zext16_toNat]

/-- The address after `ptr` inside its own page (40_engine_and_addressing.md R108). -/
theorem nextInPage_toNat (ptr : Word) :
    (mkWord (hi ptr) (lo ptr + 1)).toNat = ptr.toNat / 256 * 256 + (ptr.toNat + 1) % 256 := by
  rw [mkWord_toNat, hi_toNat, BitVec.toNat_add, lo_toNat]
  exact congrArg _ (Nat.mod_add_mod ptr.toNat 256 1)

/-- A resolver that reads no pointer changes nothing. -/
theorem resolve_st_of_direct {o : Operand} (h : ∀ z, o ≠ .indx z ∧ o ≠ .indy z) (s : State) :
    (resolve o s).st = s := by
  cases o with
  | indx z => exact absurd rfl (h z).1
  | indy z => exact absurd rfl (h z).2
  | acc | imm d | zp d | zpx d | zpy d | abs w | absx w | absy w => rfl

/-- Settles O18: each place is that of its resolver, and its address is taken to numbers. -/
theorem directEffectiveAddresses : Obligations.DirectEffectiveAddresses := fun d w s =>
  ⟨rfl, rfl, ⟨_, rfl, zext16_toNat d⟩, ⟨_, rfl, zext16_add_toNat d s.x⟩,
    ⟨_, rfl, zext16_add_toNat d s.y⟩, rfl, ⟨_, rfl, add_zext16_toNat w s.x⟩,
    ⟨_, rfl, add_zext16_toNat w s.y⟩, rfl, rfl, rfl, rfl, fun _ h => resolve_st_of_direct h s⟩

/-! ### Reading a pointer -/

/-- A word read is two bus reads, its low byte's first, and the word they answer. -/
theorem readWord_does (al ah : Word) (s : State) :
    ∃ l h, (readWord al ah s).1 = mkWord h l ∧ AnsweredBy s al l ∧ AnsweredLater s ah h ∧
      MadeCalls [.read al l, .read ah h] s (readWord al ah s).2 :=
  have hc := readWord_calls al ah s
  ⟨_, _, rfl, hc.answeredBy, hc.answeredLater (pre := [_]) (by simp), hc⟩

/-- Finding JMP's target changes nothing that a frame speaks of. -/
theorem resolveTarget_frame (g : Target) (s : State) : Frame [] [] [] s (resolveTarget g s).2 := by
  cases g with
  | abs w => exact .refl _ _ _ s
  | ind ptr => exact readWord_frame _ _ s

/-- Settles O19: each pointer is a word read at its two addresses. -/
theorem pointerEffectiveAddresses : Obligations.PointerEffectiveAddresses := by
  intro d ptr s
  refine ⟨?_, ?_, ?_, resolve_frame _ s, resolve_frame _ s, resolveTarget_frame _ s⟩
  · obtain ⟨l, h, hw, hl, hh, hc⟩ := readWord_does (zext16 (d + s.x)) (zext16 (d + s.x + 1)) s
    refine ⟨l, h, _, _, zext16_add_toNat d s.x, ?_, hl, hh, congrArg Place.ea hw, hc⟩
    rw [zext16_add_toNat, BitVec.toNat_add]
    exact Nat.mod_add_mod _ 256 1
  · obtain ⟨l, h, hw, hl, hh, hc⟩ := readWord_does (zext16 d) (zext16 (d + 1)) s
    refine ⟨l, h, _, _, mkWord h l + zext16 s.y, zext16_toNat d, zext16_add_toNat d 1, hl, hh,
      congrArg (fun w => Place.ea (w + zext16 s.y)) hw, ?_, hc⟩
    rw [add_zext16_toNat, mkWord_toNat]
  · obtain ⟨l, h, hw, hl, hh, hc⟩ := readWord_does ptr (mkWord (hi ptr) (lo ptr + 1)) s
    exact ⟨l, h, _, nextInPage_toNat ptr, hl, hh, hw, hc⟩

/-! ### Reading the operand -/

/-- Settles O20: the accumulator and an Immediate are at hand; any other place is an address, read by
one bus call after the resolver's. -/
theorem operandReadIsOneBusRead : Obligations.OperandReadIsOneBusRead := by
  refine fun o s => ⟨afterOperand_frame o s, by simp, ?_⟩
  cases o with
  | acc | imm d => exact ⟨rfl, .of_same rfl (.refl s)⟩
  | zp d | zpx d | zpy d | abs w | absx w | absy w | indx d | indy d =>
    exact ⟨busAnswer_answered _ _, busRead_calls _ _⟩

end Sys2Proof.Machine
end

section
/-! PROOFS. Stores, and the increments and decrements of memory (44_load_store_transfer.md section 2,
45_compare_incdec.md section 2): the write and read-modify-write classes at their operations. -/

namespace Sys2Proof.Machine

/-- A mode list without Immediate and Implied has memory forms only. -/
theorem memoryForm_of_contains {modes : List Mode} {o : Operand} (h : modes.contains o.mode = true)
    (himm : modes.contains .immediate = false) (himp : modes.contains .implied = false) :
    o.mode ≠ .immediate ∧ o ≠ .acc := by
  refine ⟨fun he => ?_, ?_⟩
  · rw [he, himm] at h
    cases h
  · rintro rfl
    rw [Operand.mode, himp] at h
    cases h

/-- The shape that the three stores share (44_load_store_transfer.md R153 to R155). -/
theorem storeEffect_of_exec {i : Instr} {o : Operand} {v : Byte} {s : State}
    (hm : Memory.wf s.mem = true) (ho : o.mode ≠ .immediate ∧ o ≠ .acc)
    (h : exec i s = .next (storeOp o v s)) : StoreEffect i o v s :=
  ⟨_, h, storeOp_does v hm ho.1 ho.2⟩

/-- Settles O32: the rows of 30_encoding.md R75, then the common shape at each of the three registers. -/
theorem storeResults : Obligations.StoreResults := by
  refine ⟨fun d w => ?_, fun o s hm => ⟨fun hw => ?_, fun hw => ?_, fun hw => ?_⟩⟩
  · exact ⟨rfl, rfl, rfl, rfl, rfl, rfl, rfl, rfl, rfl, rfl, rfl, rfl, rfl⟩
  · exact storeEffect_of_exec hm (memoryForm_of_contains hw rfl rfl) rfl
  · exact storeEffect_of_exec hm (memoryForm_of_contains hw rfl rfl) rfl
  · exact storeEffect_of_exec hm (memoryForm_of_contains hw rfl rfl) rfl

/-- The shape that INC and DEC share (45_compare_incdec.md R174, R175): the result, with its Z and N. -/
theorem modifyOp_of_setZN {o : Operand} {f : Byte → Byte → Byte × Byte} {r : Byte} {s : State}
    (hm : Memory.wf s.mem = true) (hw : incModes.contains o.mode = true)
    (hf : f (operandByte o s) s.p = (r, setZN r s.p)) :
    HasZN r (modifyOp o f s) ∧ ModifyDone o [.zero, .negative] r s (modifyOp o f s) := by
  obtain ⟨hdone, hp⟩ := modifyOp_does f [.zero, .negative] hm
    (memoryForm_of_contains hw rfl rfl).1 fun g hg => by
      rw [hf]
      exact readFlag_setZN_of_notMem r s.p hg
  rw [hf] at hdone hp
  exact ⟨hasZN_of_setZN hp, hdone⟩

/-- Settles O36: the rows of 30_encoding.md R75, then the common shape at the two steps. -/
theorem memoryIncDecResults : Obligations.MemoryIncDecResults := by
  refine ⟨fun _ _ => ⟨rfl, rfl, rfl, rfl⟩, fun _ _ => ⟨rfl, rfl, rfl, rfl⟩,
    fun o s hm => ⟨fun hw => ?_, fun hw => ?_⟩⟩
  · exact ⟨_, _, rfl, BitVec.toNat_add _ 1, modifyOp_of_setZN hm hw rfl⟩
  · exact ⟨_, _, rfl, sub_one_toNat _, modifyOp_of_setZN hm hw rfl⟩

end Sys2Proof.Machine
end

section
/-! PROOFS. Branches and JMP (46_branches.md, 47_jumps.md R200), and RTS after JSR: writes of `PC` alone,
and the stack bytes that take `PC` back. -/

namespace Sys2Proof.Machine

/-! ### Branches -/

/-- Two addresses are in one page when their high bytes are one number. -/
theorem page_eq_iff (v w : Word) : page v = page w ↔ v.toNat / 256 = w.toNat / 256 := by
  rw [page, page, ← BitVec.toNat_inj, hi_toNat, hi_toNat]

/-- A write of `PC` changes nothing that a frame speaks of. -/
theorem setPc_frame (w : Word) (s : State) : Frame [] [] [] s (s.setPc w) :=
  .of_same ⟨rfl, rfl, rfl⟩ (fun _ => rfl) (fun _ => rfl) (fun _ => rfl) (fun _ => rfl)
    (fun _ _ => rfl) ⟨rfl, rfl, rfl⟩

/-- A frame may be told from before a write of `PC`. -/
theorem Frame.of_setPc {rs : List Reg} {fs : List Flag} {ms : List Word} {w : Word} {s t : State}
    (h : Frame rs fs ms (s.setPc w) t) : Frame rs fs ms s t :=
  ⟨h.keptRegs, h.keptFlags, h.keptMem, h.keptNmi, h.keptIrq, h.keptIo, h.keptAgenda⟩

/-- The shape that the eight branches share (46_branches.md R185), whatever the condition is written
as. -/
theorem branchEffect_of_exec {i : Instr} {f : Flag} {b cond : Bool} {d : Byte} {s : State}
    (h : exec i s = .next (branchOp cond d s)) (hc : cond = true ↔ readFlag f s.p = b) :
    BranchEffect i f b d s := by
  cases cond with
  | true =>
    refine ⟨_, h, (setPc_frame (branchTarget d s) s).charged _ _ _, rfl,
      .of_same rfl ⟨rfl, rfl, rfl⟩, ?_⟩
    rw [if_pos (hc.1 rfl)]
    refine ⟨branchTarget_toNat d s, ?_⟩
    show ((2 + 0 + if page (branchTarget d s) = page s.pc then 1 else 2 : Nat) : Int) =
      if (branchTarget d s).toNat / 256 = s.pc.toNat / 256 then 3 else 4
    simp only [page_eq_iff]
    split <;> rfl
  | false =>
    refine ⟨_, h, (Frame.refl _ _ _ s).charged _ _ _, rfl, .of_same rfl ⟨rfl, rfl, rfl⟩, ?_⟩
    rw [if_neg fun he => Bool.false_ne_true (hc.2 he)]
    exact ⟨rfl, rfl⟩

/-- A branch on a clear flag is written with the flag's negation. -/
theorem not_eq_true_iff (b : Bool) : (!b) = true ↔ b = false := by
  cases b <;> decide

/-- Settles O38: the common shape at each of the eight, its condition read off the flag. -/
theorem branchResults : Obligations.BranchResults := by
  refine ⟨fun d => ⟨rfl, rfl, rfl, rfl, rfl, rfl, rfl, rfl⟩, fun d s => ?_⟩
  exact ⟨branchEffect_of_exec rfl (not_eq_true_iff _), branchEffect_of_exec rfl Iff.rfl,
    branchEffect_of_exec rfl Iff.rfl, branchEffect_of_exec rfl (not_eq_true_iff _),
    branchEffect_of_exec rfl Iff.rfl, branchEffect_of_exec rfl (not_eq_true_iff _),
    branchEffect_of_exec rfl (not_eq_true_iff _), branchEffect_of_exec rfl Iff.rfl⟩

/-! ### JMP -/

/-- Settles O39: the target's frame and calls around the write of `PC`; a pointer is a word read. -/
theorem jmpResult : Obligations.JmpResult := by
  refine ⟨fun w => ⟨rfl, rfl⟩, fun g s => ⟨_, rfl, (resolveTarget_frame g s).jumped _ _, ?_, ?_⟩⟩
  · cases g with
    | abs w => rfl
    | ind ptr => simp [resolveTarget, readJumpPointer]
  · cases g with
    | abs w => exact ⟨rfl, rfl, .of_same rfl ⟨rfl, rfl, rfl⟩⟩
    | ind ptr =>
      obtain ⟨l, h, hw, hl, hh, hc⟩ := readWord_does ptr (mkWord (hi ptr) (lo ptr + 1)) s
      exact ⟨rfl, l, h, hl, hh, hw, hc.jumped _ 5⟩

/-! ### RTS after JSR -/

/-- A pull is about the bus and the stack pointer alone. -/
theorem SameBus.pull {s t : State} (h : SameBus s t) (hsp : t.sp = s.sp) :
    SameBus (pull s).2 (pull t).2 := by
  have h' : SameBus (s.setSp (s.sp + 1)) (t.setSp (s.sp + 1)) := ⟨h.mem, h.device, h.io⟩
  simpa only [Machine.pull, hsp] using h'.read (stackAddr (s.sp + 1))

/-- The word pulled is the same in states with the same bus and stack pointer. -/
theorem SameBus.pullWord_fst {s t : State} (h : SameBus s t) (hsp : t.sp = s.sp) :
    (pullWord t).1 = (pullWord s).1 := by
  rw [Machine.pullWord_fst, Machine.pullWord_fst, pull_fst, pull_fst, pull_fst, pull_fst, pull_sp,
    pull_sp, hsp, (h.pull hsp).answer, h.answer]

/-- Settles O42: RTS pulls the word that JSR pushed, the address before the next instruction's; the jump
between them leaves the bus and `SP` as they are. -/
theorem rtsUndoesJsr : Obligations.RtsUndoesJsr := by
  intro w s hm hh hl
  have hword := (SameBus.pullWord_fst (s := pushWord (s.pc - 1) s)
    (t := charge 6 0 0 ((pushWord (s.pc - 1) s).setPc w)) ⟨rfl, rfl, rfl⟩ rfl).trans
    (pullWord_pushWord_fst (s.pc - 1) hm hh hl)
  exact ⟨_, _, rfl, rfl, (congrArg (· + 1) hword).trans (BitVec.sub_add_cancel s.pc 1),
    by simp only [BitVec.ofNat_eq_ofNat, charge_kept, State.setPc_sp, pullWord_sp, pushWord_sp,
      BitVec.sub_add_cancel], by simp, by simp, by simp, by simp⟩

end Sys2Proof.Machine
end

section
/-! PROOFS. PLP, BRK and RTI (48_stack.md R213, 49_system.md R220, R221; 60_exceptions.md R245): the
status byte pulled, the entry sequence at its vector, and the return that undoes an entry. -/

namespace Sys2Proof.Machine

/-! ### Pulling the status byte -/

/-- Pulling the status is one bus read. -/
theorem pullStatus_calls (s : State) :
    MadeCalls [.read (stackAddr (s.sp + 1)) (pull s).1] s (pullStatus s) :=
  (pull_calls s).congr (.refl s) rfl ⟨rfl, rfl, rfl⟩ rfl

/-- Pulling the status changes `SP` and the status byte. -/
theorem pullStatus_frame (s : State) :
    Frame [.sp] [.negative, .overflow, .unused, .break, .decimal, .interruptDisable, .zero, .carry]
      [] s (pullStatus s) :=
  .of_reads ⟨_, by simp [BusCall.isRead], pullStatus_calls s⟩
    (fun r hr => by cases r <;> simp_all [Reg.get]) (fun f hf => by cases f <;> simp at hf)
    (by simp) (by simp) (by simp)

/-- Settles O47: the status pulled, flag by flag, with its cycle charge. -/
theorem plpResult : Obligations.PlpResult :=
  ⟨rfl, fun s => ⟨_, (pull s).1, rfl, (pull_calls s).answeredBy,
    fun f => readFlag_loadedStatus f (pull s).1, (pullStatus_frame s).charged 4 0 0,
    pullStatus_sp s, by simp, rfl, (pullStatus_calls s).charged 4 0 0⟩⟩

/-! ### BRK -/

/-- Settles O48: the entry sequence from the state whose `PC` is the return address. -/
theorem brkResult : Obligations.BrkResult := by
  refine ⟨rfl, fun s hm => ?_⟩
  have h : Entered 0xFFFE true (s.pc + 1) (s.setPc (s.pc + 1))
      (enterInterrupt irqVector true (s.setPc (s.pc + 1))) :=
    enterInterrupt_entered (s := s.setPc (s.pc + 1)) true hm (by decide) (by decide)
  refine ⟨charge 7 0 0 (enterInterrupt irqVector true (s.setPc (s.pc + 1))), rfl, ?_, rfl⟩
  generalize enterInterrupt irqVector true (s.setPc (s.pc + 1)) = e at h
  exact h.congr ⟨⟨rfl, rfl, rfl⟩, rfl, rfl, rfl⟩ ⟨⟨rfl, rfl, rfl⟩, rfl, rfl, rfl, rfl⟩
    (h.frame.of_setPc.charged 7 0 0)

/-! ### RTI -/

/-- RTI changes `SP`, the status byte and `PC`, by three reads. -/
theorem returnFromInterrupt_frame (s : State) :
    Frame [.sp] [.negative, .overflow, .unused, .break, .decimal, .interruptDisable, .zero, .carry]
      [] s (returnFromInterrupt s) := by
  obtain ⟨l, h, -, hc⟩ := returnFromInterrupt_calls s
  exact .of_reads ⟨_, by simp [BusCall.isRead], hc⟩
    (fun r hr => by cases r <;> simp_all [Reg.get]) (fun f hf => by cases f <;> simp at hf)
    (by simp) (by simp) (by simp)

/-- Settles O49: the three reads in order, and the status pulled flag by flag. -/
theorem rtiResult : Obligations.RtiResult := by
  refine ⟨rfl, fun s => ?_⟩
  obtain ⟨l, h, hpc, hc⟩ := returnFromInterrupt_calls s
  refine ⟨_, (pull s).1, l, h, rfl, hc.answeredBy, hc.answeredLater (pre := [_]) (by simp),
    hc.answeredLater (pre := [_, _]) (by simp), fun f => ?_,
    (returnFromInterrupt_frame s).charged 6 0 0, returnFromInterrupt_sp s, hpc, rfl,
    hc.charged 6 0 0⟩
  rw [← readFlag_loadedStatus]
  simp

/-! ### RTI after an entry sequence -/

/-- A stack slot is a stack slot. -/
theorem exists_stackAddr_eq (k : Byte) : ∃ j, stackAddr k = stackAddr j := ⟨k, rfl⟩

/-- On a RAM stack the three bytes of an entry stay in their slots while the vector is read: no device
that answers the vector shares them. -/
theorem enterInterrupt_slots {vec : Word} (brk : Bool) {s : State} (hm : Memory.wf s.mem = true)
    (hram : ∀ k : Byte, isDevice s (stackAddr k) = false)
    (hvec : (∀ k : Byte, isShared s (stackAddr k) = false) ∨
      isDevice s vec = false ∧ isDevice s (vec + 1) = false) :
    byteAt (enterInterrupt vec brk s) (stackAddr s.sp) = hi s.pc ∧
    byteAt (enterInterrupt vec brk s) (stackAddr (s.sp - 1)) = lo s.pc ∧
    byteAt (enterInterrupt vec brk s) (stackAddr (s.sp - 2)) = pushedStatus s.p brk := by
  obtain ⟨h01, h02, h12⟩ := stackAddr_sub_ne s.sp
  obtain ⟨l, h, -, hc⟩ := enterInterrupt_calls vec brk s
  have hpost : ∀ post k,
      (∀ c ∈ post, (∃ j, c.addr = stackAddr j) ∨ c.addr = vec ∨ c.addr = vec + 1) →
      isShared s (stackAddr k) = false ∨ NoDevice s post := fun post k hp =>
    hvec.imp (· k) fun ⟨hv, hv'⟩ c hcm => by
      obtain ⟨j, hj⟩ | hj | hj := hp c hcm
      · rw [hj, hram]
      · rw [hj, hv]
      · rw [hj, hv']
  simp only [BitVec.ofNat_eq_ofNat] at h01 h02 h12
  refine ⟨hc.run.stored (pre := []) hm (by simp [h01, h02]) (hram _) (hpost _ _ ?_),
    hc.run.stored (pre := [_]) hm (by simp [h12]) (hram _) (hpost _ _ ?_),
    hc.run.stored (pre := [_, _]) hm (by simp) (hram _) (hpost _ _ ?_)⟩
  all_goals simp only [List.mem_cons, List.not_mem_nil, or_false, BusCall.addr, forall_eq_or_imp,
    forall_eq, exists_stackAddr_eq, true_or, or_true, and_self]

/-- On a RAM stack RTI loads the three bytes above `SP`: none of its reads changes RAM. -/
theorem returnFromInterrupt_of_ram {s : State} (hram : ∀ k : Byte, isDevice s (stackAddr k) = false) :
    (returnFromInterrupt s).p = loadedStatus (byteAt s (stackAddr (s.sp + 1))) ∧
    (returnFromInterrupt s).pc =
      mkWord (byteAt s (stackAddr (s.sp + 3))) (byteAt s (stackAddr (s.sp + 2))) := by
  obtain ⟨l, h, hpc, hc⟩ := returnFromInterrupt_calls s
  have hl := hc.run.answered (pre := [_]) (by simp) (hram _)
    (.inr (by simp [NoDevice, BusCall.addr, hram]))
  have hh := hc.run.answered (pre := [_, _]) (by simp) (hram _)
    (.inr (by simp [NoDevice, BusCall.addr, hram]))
  rw [returnFromInterrupt_p, pull_fst_of_ram (hram _), hpc, hl, hh]
  exact ⟨rfl, rfl⟩

/-- Settles O50: the entry's three bytes are in their slots, and RTI loads those slots. -/
theorem rtiUndoesEntry : Obligations.RtiUndoesEntry := by
  intro vec brk s hm hram hvec
  obtain ⟨hhi, hlo, hp⟩ := enterInterrupt_slots brk hm hram hvec
  obtain ⟨hrp, hrpc⟩ := returnFromInterrupt_of_ram (s := enterInterrupt vec brk s)
    fun k => (isDevice_congr (by simp) _).trans (hram k)
  rw [enterInterrupt_sp, show s.sp - 3 + 1 = s.sp - 2 by bv_omega, hp] at hrp
  rw [enterInterrupt_sp, show s.sp - 3 + 3 = s.sp by bv_omega,
    show s.sp - 3 + 2 = s.sp - 1 by bv_omega, hhi, hlo, mkWord_hi_lo] at hrpc
  refine ⟨_, rfl, ?_, ?_, ?_, ?_, ?_, fun f hb hu => ?_⟩
  · simp only [charge_kept, hrpc]
  · simp only [charge_kept, returnFromInterrupt_sp, enterInterrupt_sp]
    bv_omega
  · simp only [charge_kept, returnFromInterrupt_kept, enterInterrupt_kept]
  · simp only [charge_kept, returnFromInterrupt_kept, enterInterrupt_kept]
  · simp only [charge_kept, returnFromInterrupt_kept, enterInterrupt_kept]
  · simp only [charge_kept]
    rw [hrp, readFlag_loadedStatus, if_neg hu, if_neg hb, readFlag_pushedStatus, if_neg hu,
      if_neg hb]

end Sys2Proof.Machine
end

section
/-! PROOFS. Every instruction, class by class: the flags it may change and the bus calls it makes
(10_state.md R21, 95_test_vectors.md section 4), and its cycle total (70_reset_and_hazards.md R290).
-/

namespace Sys2Proof.Machine

/-! ### The flags an instruction may change and the bus calls it makes -/

/-- What `i` does from `s` to `t`, as far as every instruction can be told alike: it changes no flag
outside its row of the table, and it makes bus calls, reads alone where it is not a writer. -/
structure Did (i : Instr) (s t : State) : Prop where
  frame : ∃ rs ms, Frame rs (flagsWritten i) ms s t
  calls : ∃ calls, MadeCalls calls s t ∧ (makesWrites i = false → ∀ c ∈ calls, c.isRead = true)

/-- An instruction that makes reads alone. -/
theorem Did.of_reads {i : Instr} {s t : State} {rs : List Reg} {fs : List Flag} {ms : List Word}
    (hf : Frame rs fs ms s t) (hfs : fs ⊆ flagsWritten i)
    (hc : ∃ calls, (∀ c ∈ calls, c.isRead = true) ∧ MadeCalls calls s t) : Did i s t :=
  have ⟨calls, hr, hm⟩ := hc
  ⟨⟨rs, ms, hf.mono (List.Subset.refl _) hfs (List.Subset.refl _)⟩, calls, hm, fun _ => hr⟩

/-- An instruction of the table's writers. -/
theorem Did.of_calls {i : Instr} {s t : State} {rs : List Reg} {fs : List Flag} {ms : List Word}
    (hf : Frame rs fs ms s t) (hfs : fs ⊆ flagsWritten i) (hc : ∃ calls, MadeCalls calls s t)
    (hw : makesWrites i = true) : Did i s t :=
  have ⟨calls, hm⟩ := hc
  ⟨⟨rs, ms, hf.mono (List.Subset.refl _) hfs (List.Subset.refl _)⟩, calls, hm, fun h =>
    absurd (hw.symm.trans h) Bool.noConfusion⟩

/-- What a read-class instruction leaves decides its calls: those of its operand's read. -/
theorem ReadDone.calls {o : Operand} {s t : State} (h : ReadDone o s t) :
    ∃ calls, (∀ c ∈ calls, c.isRead = true) ∧ MadeCalls calls s t := by
  obtain ⟨calls, hr, hc⟩ := afterOperand_calls o s
  exact ⟨calls, hr, hc.congr (.refl s) rfl h.bus h.log⟩

/-- A one-byte register or flag instruction makes no call. -/
theorem ImpliedDone.calls {s t : State} (h : ImpliedDone s t) :
    ∃ calls, (∀ c ∈ calls, c.isRead = true) ∧ MadeCalls calls s t :=
  ⟨[], by simp, h.bus⟩

/-- The read class around an operation that makes no call. -/
theorem readOp_did {i : Instr} {o : Operand} {k : Byte → State → State} {rs : List Reg}
    {fs : List Flag} {s : State}
    (hf : Frame rs fs [] (afterOperand o s) (k (operandByte o s) (afterOperand o s)))
    (hd : ImpliedDone (afterOperand o s) (k (operandByte o s) (afterOperand o s)))
    (hfs : fs ⊆ flagsWritten i) : Did i s (readOp o k s) :=
  .of_reads (readOp_frame hf) hfs (readOp_readDone hd).calls

/-- A one-byte register or flag instruction. -/
theorem implied_did {i : Instr} {rs : List Reg} {fs : List Flag} {s t : State} {n : Nat}
    (hf : Frame rs fs [] s t) (hd : ImpliedDone s t) (hfs : fs ⊆ flagsWritten i) :
    Did i s (charge n 0 0 t) :=
  .of_reads (hf.charged n 0 0) hfs (hd.charged n 0 0).calls

/-- A write of any place changes no flag. -/
theorem writePlace_keepsFlags (p : Place) (v : Byte) (s : State) :
    ∃ ms, Frame [.a] [] ms s (writePlace p v s) := by
  cases p with
  | acc => exact ⟨[], writePlace_frame (p := .acc) v s (by simp)⟩
  | imm d => exact ⟨_, (busWrite_frame (s.pc - 1) v s).mono (by simp) (by simp) (List.Subset.refl _)⟩
  | ea a => exact ⟨_, (busWrite_frame a v s).mono (by simp) (by simp) (List.Subset.refl _)⟩

/-- A write of any place makes one call or none. -/
theorem writePlace_calls (p : Place) (v : Byte) (s : State) :
    ∃ calls, MadeCalls calls s (writePlace p v s) := by
  cases p with
  | acc => exact ⟨[], .of_same rfl ⟨rfl, rfl, rfl⟩⟩
  | imm d => exact ⟨_, busWrite_calls (s.pc - 1) v s⟩
  | ea a => exact ⟨_, busWrite_calls a v s⟩

/-- The write class, ill-formed terms too. -/
theorem storeOp_did {i : Instr} (o : Operand) (v : Byte) (s : State) (hw : makesWrites i = true) :
    Did i s (storeOp o v s) := by
  obtain ⟨ms, hf⟩ := writePlace_keepsFlags (resolve o s).place v (resolve o s).st
  obtain ⟨c, -, hc⟩ := resolve_calls o s
  obtain ⟨c', hc'⟩ := writePlace_calls (resolve o s).place v (resolve o s).st
  rw [storeOp_eq]
  exact .of_calls ((((resolve_frame o s).mono (by simp) (by simp) (by simp)).trans hf).charged _ _ _)
    (by simp) ⟨_, (hc.trans hc').charged _ _ _⟩ hw

/-- The read-modify-write class, ill-formed terms too: on the accumulator it makes no call. -/
theorem modifyOp_did {i : Instr} {f : Byte → Byte → Byte × Byte} {fs : List Flag} (o : Operand)
    (s : State) (hf : ∀ v g, g ∉ fs → readFlag g (f v s.p).2 = readFlag g s.p)
    (hfs : fs ⊆ flagsWritten i) (hw : makesWrites i = false → o = .acc) :
    Did i s (modifyOp o f s) := by
  obtain ⟨c, -, hc⟩ := afterOperand_calls o s
  have hp : Frame [.a] fs [] s ((afterOperand o s).setP (f (operandByte o s) s.p).2) :=
    ((afterOperand_frame o s).mono (by simp) (by simp) (by simp)).trans
      ((setP_frame (by simpa using hf _)).mono (by simp) (List.Subset.refl _) (by simp))
  obtain ⟨ms, hr⟩ := writePlace_keepsFlags (resolve o s).place (f (operandByte o s) s.p).1
    ((afterOperand o s).setP (f (operandByte o s) s.p).2)
  obtain ⟨c', hc'⟩ := writePlace_calls (resolve o s).place (f (operandByte o s) s.p).1
    ((afterOperand o s).setP (f (operandByte o s) s.p).2)
  refine ⟨⟨[.a], ms, ?_⟩, ?_⟩
  · rw [modifyOp_eq]
    exact (((hp.mono (List.Subset.refl _) hfs (by simp)).trans
      (hr.mono (List.Subset.refl _) (by simp) (List.Subset.refl _))).charged _ _ _)
  · by_cases ho : o = .acc
    · subst ho
      exact ⟨[], .of_same rfl ⟨rfl, rfl, rfl⟩, by simp⟩
    · rw [modifyOp_eq]
      exact ⟨_, ((hc.congr (.refl s) rfl
          (t' := (afterOperand o s).setP (f (operandByte o s) s.p).2) ⟨rfl, rfl, rfl⟩ rfl).trans
        hc').charged _ _ _,
        fun h => absurd (hw h) ho⟩

/-- A shift writes no flag but C, Z and N. -/
theorem readFlag_shifted_of_notMem {g : Flag} (r : Byte) (out : Bool) (p : Byte)
    (hg : g ∉ [Flag.carry, .zero, .negative]) : readFlag g (shifted r out p).2 = readFlag g p := by
  simp only [List.mem_cons, List.not_mem_nil, or_false, not_or] at hg
  obtain ⟨hc, hz, hn⟩ := hg
  rw [readFlag_shifted, if_neg hn, if_neg hz, if_neg hc]

/-- A branch makes no call and writes `PC` alone, taken or not. -/
theorem branchOp_did {i : Instr} (cond : Bool) (d : Byte) (s : State) :
    Did i s (branchOp cond d s) := by
  cases cond with
  | true =>
    exact .of_reads ((setPc_frame (branchTarget d s) s).charged _ _ _) (by simp)
      ⟨[], by simp, .of_same rfl ⟨rfl, rfl, rfl⟩⟩
  | false =>
    exact .of_reads ((Frame.refl [] [] [] s).charged _ _ _) (by simp)
      ⟨[], by simp, .of_same rfl ⟨rfl, rfl, rfl⟩⟩

/-- A compare of any register. -/
theorem CompareEffect.did {i : Instr} {o : Operand} {v : Byte} {s : State}
    (h : CompareEffect i o v s) (hfs : [.carry, .zero, .negative] ⊆ flagsWritten i) :
    ∃ t, exec i s = .next t ∧ Did i s t := by
  obtain ⟨t, ht, hf, -, -, -, hd⟩ := h
  exact ⟨t, ht, .of_reads hf hfs hd.calls⟩

/-- JMP makes the reads of its target's pointer. -/
theorem resolveTarget_calls (g : Target) (s : State) :
    ∃ calls, (∀ c ∈ calls, c.isRead = true) ∧ MadeCalls calls s (resolveTarget g s).2 := by
  cases g with
  | abs w => exact ⟨[], by simp, .of_same rfl (.refl s)⟩
  | ind ptr => exact ⟨_, by simp [BusCall.isRead], readWord_calls _ _ s⟩

/-- Every instruction, well formed or not, class by class. -/
theorem exec_did (i : Instr) (s : State) : ∃ t, exec i s = .next t ∧ Did i s t := by
  cases i with
  | adc o | sbc o =>
    exact ⟨_, rfl, readOp_did (putArithmetic_frame _ _) (putArithmetic_impliedDone _ _)
      (by simp [flagsWritten])⟩
  | and o | ora o | eor o | lda o =>
    exact ⟨_, rfl, readOp_did (putA_frame _ _) (putA_impliedDone _ _)
      (by simp [flagsWritten])⟩
  | ldx o =>
    exact ⟨_, rfl, readOp_did (putX_loadsReg.frame _ _) (putX_loadsReg.done _ _)
      (by simp [flagsWritten])⟩
  | ldy o =>
    exact ⟨_, rfl, readOp_did (putY_loadsReg.frame _ _) (putY_loadsReg.done _ _)
      (by simp [flagsWritten])⟩
  | bit o =>
    obtain ⟨t, h, hf, -, -, -, hd⟩ := bitResult.2 o s
    exact ⟨t, h, .of_reads hf (by simp [flagsWritten]) hd.calls⟩
  | cmp o =>
    exact (compareEffect_of_exec (r := .a) rfl).did (by simp [flagsWritten])
  | cpx o =>
    exact (compareEffect_of_exec (r := .x) rfl).did (by simp [flagsWritten])
  | cpy o =>
    exact (compareEffect_of_exec (r := .y) rfl).did (by simp [flagsWritten])
  | asl o | lsr o | rol o | ror o =>
    exact ⟨_, rfl, modifyOp_did o s (fun _ _ => readFlag_shifted_of_notMem _ _ _)
      (by simp [flagsWritten]) (by simp [makesWrites])⟩
  | inc o | dec o =>
    exact ⟨_, rfl, modifyOp_did o s (fun _ _ => readFlag_setZN_of_notMem _ _)
      (by simp [flagsWritten]) (by simp [makesWrites])⟩
  | sta o | stx o | sty o => exact ⟨_, rfl, storeOp_did o _ s rfl⟩
  | tax | tsx | inx | dex =>
    exact ⟨_, rfl, implied_did (putX_loadsReg.frame _ s) (putX_loadsReg.done _ s)
      (by simp [flagsWritten])⟩
  | tay | iny | dey =>
    exact ⟨_, rfl, implied_did (putY_loadsReg.frame _ s) (putY_loadsReg.done _ s)
      (by simp [flagsWritten])⟩
  | txa | tya =>
    exact ⟨_, rfl, implied_did (putA_frame _ s) (putA_impliedDone _ s)
      (by simp [flagsWritten])⟩
  | txs =>
    exact ⟨_, rfl, implied_did (setSp_frame s.x s) (setSp_impliedDone s.x s)
      (by simp [flagsWritten])⟩
  | bcc d | bcs d | beq d | bne d | bmi d | bpl d | bvc d | bvs d =>
    exact ⟨_, rfl, branchOp_did _ d s⟩
  | jmp g =>
    obtain ⟨c, hr, hc⟩ := resolveTarget_calls g s
    exact ⟨_, rfl, .of_reads ((resolveTarget_frame g s).jumped _ _) (by simp)
      ⟨c, hr, hc.jumped _ _⟩⟩
  | jsr w =>
    exact ⟨_, rfl, .of_calls ((pushWord_frame _ s).jumped w 6) (by simp)
      ⟨_, (pushWord_calls _ s).jumped w 6⟩ rfl⟩
  | rts =>
    exact ⟨_, rfl, .of_reads ((pullWord_frame s).jumped _ 6) (by simp)
      ⟨_, by simp [BusCall.isRead], (pullWord_calls s).jumped _ 6⟩⟩
  | pha | php =>
    exact ⟨_, rfl, .of_calls ((push_frame _ s).charged _ _ _) (by simp)
      ⟨_, (push_calls _ s).charged _ _ _⟩ rfl⟩
  | pla =>
    exact ⟨_, rfl, .of_reads ((putA_pull_frame s).charged _ _ _) (by simp [flagsWritten])
      ⟨_, by simp [BusCall.isRead], (putA_pull_calls s).charged _ _ _⟩⟩
  | plp =>
    exact ⟨_, rfl, .of_reads ((pullStatus_frame s).charged _ _ _) (by simp [flagsWritten])
      ⟨_, by simp [BusCall.isRead], (pullStatus_calls s).charged _ _ _⟩⟩
  | rti =>
    obtain ⟨l, h, -, hc⟩ := returnFromInterrupt_calls s
    exact ⟨_, rfl, .of_reads ((returnFromInterrupt_frame s).charged _ _ _) (by simp [flagsWritten])
      ⟨_, by simp [BusCall.isRead], hc.charged _ _ _⟩⟩
  | brk =>
    obtain ⟨l, h, -, hc⟩ := enterInterrupt_calls irqVector true (s.setPc (s.pc + 1))
    have hf := enterInterrupt_frame irqVector true (s.setPc (s.pc + 1))
    exact ⟨_, rfl, .of_calls (hf.of_setPc.charged 7 0 0) (List.Subset.refl _)
      ⟨_, (hc.congr (s' := s) ⟨rfl, rfl, rfl⟩ rfl (.refl _) rfl).charged 7 0 0⟩ rfl⟩
  | nop | undoc op =>
    exact ⟨_, rfl, .of_reads ((Frame.refl [] [] [] s).charged _ _ _) (by simp)
      ⟨[], by simp, .of_same rfl ⟨rfl, rfl, rfl⟩⟩⟩
  | clc | sec | cli | sei | cld | sed | clv =>
    exact ⟨_, rfl, implied_did (applyFlag_frame _ _ s) (applyFlag_impliedDone _ _ s)
      (by simp [flagsWritten])⟩

/-- What every instruction does, of the state it answers. -/
theorem did_of_exec {i : Instr} {s t : State} (h : exec i s = .next t) : Did i s t := by
  obtain ⟨u, hu, hd⟩ := exec_did i s
  cases h.symm.trans hu
  exact hd

/-- Settles O58: a frame that allows the flags of the instruction's row. -/
theorem flagsWrittenAsTabled : Obligations.FlagsWrittenAsTabled := by
  intro i s
  obtain ⟨t, ht, ⟨_, _, hf⟩, -⟩ := exec_did i s
  exact ⟨t, ht, hf.keptFlags, hf.keptNmi, hf.keptIrq, hf.keptIo, hf.keptAgenda⟩

/-- Settles O59: the calls made decide memory and the devices. -/
theorem onlyWritersWrite : Obligations.OnlyWritersWrite := by
  intro i s
  obtain ⟨t, ht, -, calls, hc, hr⟩ := exec_did i s
  exact ⟨t, calls, ht, hc, fun a hw hs => hc.run.kept hw hs, fun hd => (hc.run.noDevice hd).1,
    fun _ hw => ⟨hr hw, fun hd => (hc.run.sameBus (hr hw) hd).mem⟩⟩

/-! ### Cycle totals -/

/-- The base count that an instruction's meaning charges, by its class (70_reset_and_hazards.md R290). -/
def chargedBase : Instr → Nat
  | .adc o | .sbc o | .and o | .ora o | .eor o | .bit o | .lda o | .ldx o | .ldy o | .cmp o | .cpx o
  | .cpy o => readCycles o
  | .sta o | .stx o | .sty o => storeCycles o
  | .asl o | .lsr o | .rol o | .ror o | .inc o | .dec o => modifyCycles o
  | .jmp g => jumpCycles g
  | .pha | .php => 3
  | .pla | .plp => 4
  | .jsr _ | .rts | .rti => 6
  | .brk => 7
  | .tax | .tay | .txa | .tya | .tsx | .txs | .inx | .iny | .dex | .dey
  | .bcc _ | .bcs _ | .beq _ | .bne _ | .bmi _ | .bpl _ | .bvc _ | .bvs _ | .nop
  | .clc | .sec | .cli | .sei | .cld | .sed | .clv | .undoc _ => 2

/-- A branch's total is 2, and one or two more where it is taken (46_branches.md R185). -/
theorem branchOp_cyc {f : Flag} {b cond : Bool} (d : Byte) (s : State)
    (hc : cond = true ↔ readFlag f s.p = b) :
    (branchOp cond d s).cyc = ((2 + 0 + if readFlag f s.p = b then
      (if page (branchTarget d s) = page s.pc then 1 else 2) else 0 : Nat) : Int) := by
  cases cond with
  | true =>
    rw [if_pos (hc.1 rfl)]
    rfl
  | false =>
    rw [if_neg fun he => Bool.false_ne_true (hc.2 he)]
    rfl

/-- The total is the base count and what the resolver and the branch report. -/
theorem exec_cyc (i : Instr) (s : State) :
    ∃ t, exec i s = .next t ∧
      t.cyc = ((chargedBase i + addressingExtra i s + branchExtra i s : Nat) : Int) := by
  cases i with
  | adc o | sbc o | and o | ora o | eor o | bit o | lda o | ldx o | ldy o | cmp o | cpx o | cpy o
  | sta o | stx o | sty o | asl o | lsr o | rol o | ror o | inc o | dec o => exact ⟨_, rfl, rfl⟩
  | bcc d | bne d | bpl d | bvc d => exact ⟨_, rfl, branchOp_cyc d s (not_eq_true_iff _)⟩
  | bcs d | beq d | bmi d | bvs d => exact ⟨_, rfl, branchOp_cyc d s Iff.rfl⟩
  | jmp _ | tax | tay | txa | tya | tsx | txs | inx | iny | dex | dey | jsr | rts | pha | php | pla
  | plp | brk | rti | nop | clc | sec | cli | sei | cld | sed | clv | undoc => exact ⟨_, rfl, rfl⟩

/-- The table gives the undocumented bytes 2 cycles (30_encoding.md R77). -/
theorem baseCycles_of_mem_undocumentedOpcodes : ∀ op ∈ undocumentedOpcodes, baseCycles op = 2 := by
  decide

/-- The base count charged is the table's for the instruction's opcode, mode by mode where R75 gives a
choice. -/
theorem baseCycles_opcode {i : Instr} (hw : WellFormed i) :
    ∃ op, i.opcode = some op ∧ baseCycles op = chargedBase i := by
  cases i with
  | adc o | sbc o | and o | ora o | eor o | bit o | lda o | ldx o | ldy o | cmp o | cpx o | cpy o
  | sta o | stx o | sty o | asl o | lsr o | rol o | ror o | inc o | dec o =>
    cases o <;> cases hw <;> exact ⟨_, rfl, rfl⟩
  | jmp g => cases g <;> exact ⟨_, rfl, rfl⟩
  | undoc op =>
    exact ⟨op, if_pos hw, baseCycles_of_mem_undocumentedOpcodes op (List.contains_iff_mem.1 hw)⟩
  | bcc | bcs | beq | bne | bmi | bpl | bvc | bvs | tax | tay | txa | tya | tsx | txs | inx | iny
  | dex | dey | jsr | rts | pha | php | pla | plp | brk | rti | nop | clc | sec | cli | sei | cld
  | sed | clv => exact ⟨_, rfl, rfl⟩

/-- Every total is 2 to 8, of ill-formed terms too: the resolver reports at most 1 beside a base count of
2 to 7, a branch at most 2 beside its 2. -/
theorem exec_cyc_range {i : Instr} {s t : State} (h : exec i s = .next t) :
    2 ≤ t.cyc ∧ t.cyc ≤ 8 := by
  have hrange : 2 ≤ chargedBase i ∧ chargedBase i + addressingExtra i s + branchExtra i s ≤ 8 := by
    cases i with
    | adc o | sbc o | and o | ora o | eor o | bit o | lda o | ldx o | ldy o | cmp o | cpx o | cpy o
    | sta o | stx o | sty o | asl o | lsr o | rol o | ror o | inc o | dec o =>
      have hextra := resolve_extra_le o s
      cases o <;> simp only [chargedBase, readCycles, storeCycles, modifyCycles, addressingExtra,
        operandOf, branchExtra, branchOf] <;> omega
    | bcc d | bcs d | beq d | bne d | bmi d | bpl d | bvc d | bvs d =>
      simp only [chargedBase, addressingExtra, operandOf, branchExtra, branchOf]
      split
      · split <;> omega
      · omega
    | jmp g =>
      cases g <;> simp [chargedBase, jumpCycles, addressingExtra, operandOf, branchExtra, branchOf]
    | tax | tay | txa | tya | tsx | txs | inx | iny | dex | dey | jsr | rts | pha | php | pla | plp
    | brk | rti | nop | clc | sec | cli | sei | cld | sed | clv | undoc =>
      simp [chargedBase, addressingExtra, operandOf, branchExtra, branchOf]
  obtain ⟨u, hu, hcyc⟩ := exec_cyc i s
  cases h.symm.trans hu
  omega

/-- Settles O60: the total of the class, the base count of the table, and the range of all totals. -/
theorem cycleTotals : Obligations.CycleTotals := by
  intro i s hw
  obtain ⟨op, hop, hbase⟩ := baseCycles_opcode hw
  obtain ⟨t, ht, hcyc⟩ := exec_cyc i s
  exact ⟨op, t, hop, ht, by rw [hcyc, hbase], exec_cyc_range ht⟩

/-! ### Every step completes -/

/-- Settles O56: each kind of tick answers a next state, an executing one because every instruction
does. -/
theorem everyStepCompletes : Obligations.EveryStepCompletes := by
  intro s
  obtain ⟨-, h⟩ | ⟨-, -, h⟩ | ⟨-, -, -, h⟩ | ⟨-, -, -, h⟩ := tick_cases (takeHostCalls s)
  · exact ⟨_, h⟩
  · exact ⟨_, h⟩
  · exact ⟨_, h⟩
  · obtain ⟨t, ht⟩ := exec_eq_next (fetchInstr (takeHostCalls s)).1 (fetchInstr (takeHostCalls s)).2
    exact ⟨countDown t, by rw [step, h, executeOne, ht, finish]⟩

end Sys2Proof.Machine
end

section
/-! PROOFS. The fetch of an executing tick (40_engine_and_addressing.md R91): the bytes the bus
answers, from any state, and the whole state it leaves where they are in RAM; NOP and the fallback
(49_system.md section 2). -/

namespace Sys2Proof.Machine

/-! ### Fetching byte by byte -/

/-- From `s` to `u` the bytes `bs` are read at ascending addresses from `PC`, which moves past them, and
nothing else changes but the Unused flag. -/
structure Fetched (bs : List Byte) (s u : State) : Prop where
  calls : MadeCalls (bs.mapIdx fun k b => .read (s.pc + BitVec.ofNat 16 k) b) s u
  pc : u.pc = s.pc + BitVec.ofNat 16 bs.length
  cyc : u.cyc = s.cyc
  frame : Frame [] [.unused] [] s u

/-- Before the first byte. -/
theorem Fetched.start (s : State) : Fetched [] s s where
  calls := .of_same rfl (.refl s)
  pc := (BitVec.add_zero s.pc).symm
  cyc := rfl
  frame := .refl _ _ _ s

/-- One more byte. -/
theorem Fetched.byte {bs : List Byte} {s u : State} (h : Fetched bs s u) :
    Fetched (bs ++ [(fetchByte u).1]) s (fetchByte u).2 where
  calls := by
    have hread : MadeCalls [.read u.pc (fetchByte u).1] u (fetchByte u).2 :=
      (busRead_calls u.pc u).congr (.refl u) rfl ⟨rfl, rfl, rfl⟩ rfl
    rw [h.pc] at hread
    rw [List.mapIdx_concat]
    exact h.calls.trans hread
  pc := by
    simp only [fetchByte, State.setPc_pc, busRead_kept, h.pc, List.length_append,
      List.length_singleton, BitVec.ofNat_add, BitVec.add_assoc]
    rfl
  cyc := by simp [fetchByte, h.cyc]
  frame := h.frame.trans (((busRead_frame u.pc u).trans (setPc_frame _ _)).mono (List.nil_subset _)
    (List.nil_subset _) (List.nil_subset _))

/-- The Unused flag forced. -/
theorem Fetched.forced {bs : List Byte} {s u : State} (h : Fetched bs s u) :
    Fetched bs s (applyFlag .unused true u) where
  calls := h.calls.congr (.refl s) rfl ⟨rfl, rfl, rfl⟩ rfl
  pc := h.pc
  cyc := h.cyc
  frame := h.frame.trans (applyFlag_frame .unused true u)

/-- The fetch reads as many bytes as the opcode's form asks for, and decodes them. -/
theorem fetchInstr_fetched (s : State) :
    ∃ bs, decode bs = .ok ((fetchInstr s).1, []) ∧ Fetched bs s (fetchInstr s).2 := by
  have hop := (Fetched.start s).byte.forced
  simp only [fetchInstr]
  cases hform : formOf (fetchByte s).1 with
  | f1 i => exact ⟨_, by rw [List.nil_append, decode, hform], hop⟩
  | f2 mk => exact ⟨_, by rw [List.nil_append, List.cons_append, decode, hform]; rfl, hop.byte⟩
  | f3 mk =>
    exact ⟨_, by rw [List.nil_append, List.cons_append, List.cons_append, decode, hform]; rfl,
      hop.byte.byte⟩

/-- The fetch forces the Unused flag to 1. -/
theorem fetchInstr_unused (s : State) : readFlag .unused (fetchInstr s).2.p = true := by
  simp only [fetchInstr]
  cases formOf (fetchByte s).1 <;> simp [fetchWord, fetchByte]

/-- Among reads alone, each is answered by the bus of the start. -/
theorem MadeCalls.answeredLater_of_mem {calls : List BusCall} {a : Word} {v : Byte} {s t : State}
    (h : MadeCalls calls s t) (hr : ∀ c ∈ calls, c.isRead = true) (hm : .read a v ∈ calls) :
    AnsweredLater s a v := by
  obtain ⟨pre, post, rfl⟩ := List.append_of_mem hm
  exact h.answeredLater fun u hu =>
    absurd (hr (.write a u) (List.mem_append_left _ hu)) Bool.false_ne_true

/-- Settles O7: the bytes read, each as the bus answered it. -/
theorem fetchDecodesTheBytesRead : Obligations.FetchDecodesTheBytesRead := by
  intro s
  obtain ⟨bs, hdec, hf⟩ := fetchInstr_fetched s
  obtain ⟨hcode, hlen⟩ := encode_decode hdec
  rw [List.append_nil] at hcode
  refine ⟨bs, hdec, by rw [← hcode, hlen], ?_, fun k b hk => ?_, hf.calls, hf.pc,
    fetchInstr_unused s, hf.cyc, hf.frame⟩
  · have hcalls := hf.calls
    cases bs with
    | nil => simp
    | cons op rest =>
      rintro b ⟨⟩
      rw [List.mapIdx_cons, BitVec.add_zero] at hcalls
      exact hcalls.answeredBy
  · refine hf.calls.answeredLater_of_mem (fun c hc => ?_) ?_
    · obtain ⟨j, _, rfl⟩ := List.mem_mapIdx.1 hc
      rfl
    · exact List.mem_of_getElem? (i := k) (by rw [List.getElem?_mapIdx, hk]; rfl)

/-! ### Fetching from RAM -/

/-- The state after the fetch of an instruction of length `n` from RAM: `PC` past it, the Unused flag
forced, and the reads of its bytes on the bus log. -/
def afterFetch (n : Nat) (s : State) : State :=
  { s with
    pc := s.pc + BitVec.ofNat 16 n
    p := s.p ||| 0x20
    busLog := s.busLog ++ (List.range n).map fun k =>
      .read (s.pc + BitVec.ofNat 16 k) (byteAt s (s.pc + BitVec.ofNat 16 k)) }

/-- One more byte fetched from RAM. -/
theorem fetchByte_afterFetch {n : Nat} {s : State}
    (hd : isDevice s (s.pc + BitVec.ofNat 16 n) = false) :
    fetchByte (afterFetch n s) = (byteAt s (s.pc + BitVec.ofNat 16 n), afterFetch (n + 1) s) := by
  rw [fetchByte_of_ram (v := byteAt s (s.pc + BitVec.ofNat 16 n)) hd rfl]
  have hpc : s.pc + BitVec.ofNat 16 n + 1 = s.pc + BitVec.ofNat 16 (n + 1) := by
    rw [BitVec.ofNat_add, BitVec.add_assoc]
    rfl
  simp only [afterFetch, hpc, List.range_succ, List.map_append, List.append_assoc, List.map_cons,
    List.map_nil]
  rfl

/-- The opcode fetched from RAM. -/
theorem fetchOpcode_afterFetch {s : State} (hd : isDevice s s.pc = false) :
    (fetchByte s).1 = byteAt s s.pc ∧ applyFlag .unused true (fetchByte s).2 = afterFetch 1 s := by
  rw [fetchByte_of_ram hd rfl]
  refine ⟨rfl, ?_⟩
  simp only [afterFetch, List.range_one, List.map_cons, List.map_nil, BitVec.add_zero]
  rfl

/-- The fetch from RAM, whole. -/
theorem fetchInstr_of_ram {s : State} {i : Instr} {rest : List Byte}
    (hdec : decode [byteAt s s.pc, byteAt s (s.pc + 1), byteAt s (s.pc + 2)] = .ok (i, rest))
    (hram : ∀ k : Nat, k < i.length → isDevice s (s.pc + BitVec.ofNat 16 k) = false) :
    fetchInstr s = (i, afterFetch i.length s) := by
  have hbytes := formOf_encodesFrom (byteAt s s.pc)
  have hop : 0 < i.length → (fetchByte s).1 = byteAt s s.pc ∧
      applyFlag .unused true (fetchByte s).2 = afterFetch 1 s := fun h =>
    fetchOpcode_afterFetch (by simpa using hram 0 h)
  rw [decode] at hdec
  cases hform : formOf (byteAt s s.pc) with
  | f1 j =>
    rw [hform] at hdec hbytes
    cases hdec
    obtain ⟨hbyte, hstate⟩ := hop (by rw [hbytes.2]; decide)
    simp only [fetchInstr, hbyte, hform, hstate, hbytes.2]
  | f2 mk =>
    rw [hform] at hdec hbytes
    cases hdec
    have hlen := (hbytes (byteAt s (s.pc + 1))).2
    rw [hlen] at hram
    obtain ⟨hbyte, hstate⟩ := hop (by rw [hlen]; decide)
    simp only [fetchInstr, hbyte, hform, hstate, fetchByte_afterFetch (hram 1 (by decide)), hlen]
    rfl
  | f3 mk =>
    rw [hform] at hdec hbytes
    cases hdec
    have hlen := (hbytes (mkWord (byteAt s (s.pc + 2)) (byteAt s (s.pc + 1)))).2
    rw [hlen] at hram
    obtain ⟨hbyte, hstate⟩ := hop (by rw [hlen]; decide)
    simp only [fetchInstr, hbyte, hform, hstate, fetchWord, fetchByte_afterFetch (hram 1 (by decide)),
      fetchByte_afterFetch (hram 2 (by decide)), hlen]
    rfl

/-- Settles O6: the executing tick of the fetch from RAM. -/
theorem stepRunsDecodedInstruction : Obligations.StepRunsDecodedInstruction := by
  intro s t i rest ht hcyc hnmi hirq hdec hram
  rw [step, ← ht, tick_execute hcyc hnmi hirq, executeOne, fetchInstr_of_ram hdec hram]
  rfl

/-! ### NOP and the fallback -/

/-- Settles O51: the fetch of one byte, and the charge of two cycles. -/
theorem nopChangesNothing : Obligations.NopChangesNothing := by
  refine ⟨rfl, fun s => rfl, fun s hd hop => ?_⟩
  have hfetch := fetchInstr_of_ram (s := s) (i := .nop)
    (rest := [byteAt s (s.pc + 1), byteAt s (s.pc + 2)]) (by rw [hop]; rfl) fun k hk => by
      obtain rfl : k = 0 := Nat.lt_one_iff.1 hk
      rwa [BitVec.add_zero]
  rw [executeOne, hfetch]
  simp only [afterFetch, Instr.length, List.range_one, List.map_cons, List.map_nil, BitVec.add_zero, hop]
  rfl

/-- Settles O52: the fallback's own byte, and the charge that NOP makes. -/
theorem fallbackActsAsNop : Obligations.FallbackActsAsNop :=
  fun _ _ h => ⟨encode_undoc h, rfl, rfl⟩

end Sys2Proof.Machine
end

section
/-! PROOFS. The host's calls and Reset (10_state.md R19, R29; 60_exceptions.md R252;
70_reset_and_hazards.md R270), and the boundary of a tick: Busy ticks that reach it, and the event
it services (40_engine_and_addressing.md R90 to R93, 60_exceptions.md R243 to R246). -/

namespace Sys2Proof.Machine

/-! ### Reset -/

/-- Reset is two vector reads from the state with its registers cleared, and after them writes of `PC`,
the counter and the latches. -/
theorem hostReset_eq (s : State) :
    let r := readWord 0xFFFC 0xFFFD (((((s.setA 0).setX 0).setY 0).setSp 0xFD).setP 0x24)
    hostReset s = (((r.2.setPc r.1).setCyc 0).setNmi false).setIrq false := rfl

/-- Settles O13: the registers written before the two reads change nothing that the bus sees, and those
after them nothing that the reads leave. -/
theorem resetFromAnyState : Obligations.ResetFromAnyState := by
  intro s
  have hs := hostReset_eq s
  have hkept := readWord_kept 0xFFFC 0xFFFD (((((s.setA 0).setX 0).setY 0).setSp 0xFD).setP 0x24)
  obtain ⟨l, h, hw, hl, hh, hc⟩ :=
    readWord_does 0xFFFC 0xFFFD (((((s.setA 0).setX 0).setY 0).setSp 0xFD).setP 0x24)
  generalize readWord 0xFFFC 0xFFFD (((((s.setA 0).setX 0).setY 0).setSp 0xFD).setP 0x24) = r
    at hs hkept hw hc
  obtain ⟨ha, hx, hy, hsp, hp, -, -, -, -, hio, hagenda⟩ := hkept
  simp only [hw] at hs
  rw [hs]
  have hcalls : MadeCalls [.read 0xFFFC l, .read 0xFFFD h] s
      ((((r.2.setPc (mkWord h l)).setCyc 0).setNmi false).setIrq false) :=
    hc.congr ⟨rfl, rfl, rfl⟩ rfl ⟨rfl, rfl, rfl⟩ rfl
  refine ⟨l, h, hl, hh, ?_, hcalls, fun hd hd' => ?_, fun a ha => hcalls.run.byteAt (by simp) ha⟩
  · exact State.ext_fields ha hx hy hsp hp rfl rfl rfl rfl rfl hio rfl hcalls.log hagenda
  · refine (hcalls.run.sameBus (by simp [BusCall.isRead]) fun c hm => ?_).mem
    simp only [List.mem_cons, List.not_mem_nil, or_false] at hm
    obtain rfl | rfl := hm
    · exact hd
    · exact hd'

/-- Settles O14: with nothing listed, RAM answers both reads with 0x00. -/
theorem launchStateIsAfterReset : Obligations.LaunchStateIsAfterReset := by
  refine ⟨fun s hm hio hdev hlog hag => ?_, rfl, rfl, rfl, rfl, rfl, rfl⟩
  obtain ⟨l, h, hl, hh, heq, hcalls, hmem, -⟩ := resetFromAnyState s
  have hram : ∀ a, isDevice s a = false := fun a => by simp [isDevice, inWindow, hio]
  have hown : ∀ a, isShared s a = false := fun a => by simp [isShared, inWindow, hio]
  have hzero : ∀ a, byteAt s a = 0 := fun a => by rw [byteAt, hm, Memory.read_nil, unlistedByte]
  rw [heq, hmem (hram _) (hram _), (hcalls.run.noDevice fun c _ => hram c.addr).1,
    hl (hram _), hh (hram _) (hown _), hzero, hzero, hm, hio, hdev, hlog, hag]
  rfl

/-! ### Requests and flags -/

/-- Settles O15: each request writes its own latch, to the value it already has the second time. -/
theorem requestSetsOneLatch : Obligations.RequestSetsOneLatch :=
  fun _ => ⟨rfl, rfl, fun k => by cases k <;> rfl⟩

/-- The status byte as it reads: Unused is 1, every other flag is that of `P` (10_state.md R17). -/
theorem hostGetFlag_eq (g : Flag) (s : State) :
    hostGetFlag g s = if g = .unused then true else readFlag g s.p := by
  simp only [hostGetFlag, statusRead]
  have h : ∀ p : Byte, readFlag g (p ||| 0x20) = if g = .unused then true else readFlag g p := by
    cases g <;> decide
  exact h s.p

/-- Settles O16: the flag read back through the two writes of `SetFlag`. -/
theorem setFlagThenGetFlag : Obligations.SetFlagThenGetFlag := by
  intro s f g b _
  refine ⟨?_, rfl, ?_⟩
  · simp only [hostGetFlag_eq, applyHostCall, hostSetFlag, State.setP_p, readFlag_writeFlag]
    split
    · rfl
    · rfl
  · exact (hostGetFlag_eq .unused s).trans (if_pos rfl)

/-! ### Busy ticks -/

/-- A Busy step with no host call takes one off the counter and clears the bus log. -/
theorem step_busy {s : State} (hb : 0 < s.cyc) (ha : s.agenda = []) :
    step s = .next { s with cyc := s.cyc - 1, busLog := [] } := by
  rw [step, takeHostCalls_nil ha, tick_busy (s := s.setBusLog []) hb]
  rfl

/-- Settles O9: by induction on the ticks left. -/
theorem busyTicksReachTheBoundary : Obligations.BusyTicksReachTheBoundary := by
  intro k
  induction k with
  | zero =>
    intro s hc ha
    have h := step_busy (by omega) ha
    rw [hc] at h
    simp only [Host.Core.run, core, h]
    rfl
  | succ k ih =>
    intro s hc ha
    have h := step_busy (by omega) ha
    have hk : s.cyc - 1 = (k : Int) + 1 := by omega
    rw [hk] at h
    have hrun := ih { s with cyc := (k : Int) + 1, busLog := [] } rfl ha
    simp only [Host.Core.run, core] at hrun ⊢
    rw [h]
    exact hrun

/-! ### The event a boundary services -/

/-- The tick of an NMI service clears the NMI latch, keeps the IRQ's and masks it. -/
theorem countDown_serviceNmi_latches (s : State) :
    (countDown (serviceNmi s)).nmiPending = false ∧
      (countDown (serviceNmi s)).irqPending = s.irqPending ∧
      readFlag .interruptDisable (countDown (serviceNmi s)).p = true := by
  simp [countDown, serviceNmi]

/-- The tick of an IRQ service clears the IRQ latch and keeps the NMI's. -/
theorem countDown_serviceIrq_latches (s : State) :
    (countDown (serviceIrq s)).irqPending = false ∧
      (countDown (serviceIrq s)).nmiPending = s.nmiPending := by
  simp [countDown, serviceIrq]

/-- An executing tick keeps the latches: the fetch and every instruction do. -/
theorem executeOne_latches (s : State) :
    ∃ t, executeOne s = .next t ∧ t.nmiPending = s.nmiPending ∧ t.irqPending = s.irqPending := by
  obtain ⟨_, -, hf⟩ := fetchInstr_fetched s
  obtain ⟨t, ht, ⟨_, _, he⟩, -⟩ := exec_did (fetchInstr s).1 (fetchInstr s).2
  exact ⟨countDown t, by rw [executeOne, ht, finish], he.keptNmi.trans hf.frame.keptNmi,
    he.keptIrq.trans hf.frame.keptIrq⟩

/-- An IRQ is serviceable when it is pending and not masked. -/
theorem irqServiceable_iff (s : State) :
    irqServiceable s = true ↔ s.irqPending = true ∧ readFlag .interruptDisable s.p = false := by
  simp [irqServiceable]

/-- Settles O10: the entry sequence through 0xFFFA, told from the state with the NMI latch cleared. -/
theorem nmiServiceAtBoundary : Obligations.NmiServiceAtBoundary := by
  intro s hm hc hn
  refine ⟨_, tick_nmi hc hn, ?_, rfl⟩
  have h : Entered 0xFFFA false s.pc s (enterInterrupt nmiVector false s) :=
    enterInterrupt_entered (vec := nmiVector) false hm (by decide) (by decide)
  simp only [serviceNmi]
  generalize enterInterrupt nmiVector false s = e at h
  have hf := h.frame
  exact h.congr ⟨⟨rfl, rfl, rfl⟩, rfl, rfl, rfl⟩ ⟨⟨rfl, rfl, rfl⟩, rfl, rfl, rfl, rfl⟩
    ⟨hf.keptRegs, hf.keptFlags, hf.keptMem, rfl, hf.keptIrq, hf.keptIo, hf.keptAgenda⟩

/-- Settles O11: the entry sequence through 0xFFFE, told from the state with the IRQ latch cleared. -/
theorem irqServiceAtBoundary : Obligations.IrqServiceAtBoundary := by
  intro s hm hc hn hi hmask
  refine ⟨_, tick_irq hc hn ((irqServiceable_iff s).2 ⟨hi, hmask⟩), ?_, rfl⟩
  have h : Entered 0xFFFE false s.pc s (enterInterrupt irqVector false s) :=
    enterInterrupt_entered (vec := irqVector) false hm (by decide) (by decide)
  simp only [serviceIrq]
  generalize enterInterrupt irqVector false s = e at h
  have hf := h.frame
  exact h.congr ⟨⟨rfl, rfl, rfl⟩, rfl, rfl, rfl⟩ ⟨⟨rfl, rfl, rfl⟩, rfl, rfl, rfl, rfl⟩
    ⟨hf.keptRegs, hf.keptFlags, hf.keptMem, hf.keptNmi, rfl, hf.keptIo, hf.keptAgenda⟩

/-- Settles O12: the three kinds of tick at a boundary, each with the latches it leaves; the clauses of
the other two have hypotheses that its own denies. -/
theorem eventPriorityAtBoundary : Obligations.EventPriorityAtBoundary := by
  intro s hc
  obtain ⟨hb, -⟩ | ⟨-, hn, h⟩ | ⟨-, hn, hi, h⟩ | ⟨-, hn, hi, h⟩ := tick_cases s
  · omega
  · obtain ⟨hnmi, hirq, hmask⟩ := countDown_serviceNmi_latches s
    exact ⟨_, h, fun _ => ⟨hnmi, hirq, hmask⟩, by simp [hn], by simp [hn]⟩
  · obtain ⟨hirq, hnmi⟩ := countDown_serviceIrq_latches s
    obtain ⟨hpending, hunmasked⟩ := (irqServiceable_iff s).1 hi
    exact ⟨_, h, by simp [hn], fun _ _ _ => ⟨hirq, hnmi.trans hn⟩, by simp [hpending, hunmasked]⟩
  · obtain ⟨t, ht, hnmi, hirq⟩ := executeOne_latches s
    refine ⟨t, h.trans ht, by simp [hn], fun _ hpending hunmasked => ?_,
      fun _ _ => ⟨h, hnmi.trans hn, hirq⟩⟩
    exact absurd (hi.symm.trans ((irqServiceable_iff s).2 ⟨hpending, hunmasked⟩)) Bool.false_ne_true

end Sys2Proof.Machine
end

section
/-! PROOFS. The invariant of a safe run (10_state.md R17, R22; 20_memory.md R43): the launch state
has it, each host call keeps it, and each kind of tick does. -/

namespace Sys2Proof.Machine

/-- Settles O55: the four fields of the reset state. -/
theorem launchStateHasInvariant : Obligations.LaunchStateHasInvariant :=
  ⟨reset_wf, by decide, by decide, by decide⟩

/-! ### Host calls -/

/-- A state with the memory, the counter and the status byte of one with the invariant has it. -/
theorem Inv.congr {s t : State} (h : Inv s) (hm : t.mem = s.mem) (hc : t.cyc = s.cyc)
    (hp : t.p = s.p) : Inv t :=
  ⟨hm ▸ h.memory, hc ▸ h.counterLow, hc ▸ h.counterHigh, hp ▸ h.unused⟩

/-- Each host call keeps the invariant: Reset writes the counter and the status byte, `SetFlag` forces
bit 5, and the others touch neither. -/
theorem applyHostCall_inv {s : State} (c : HostCall) (h : Inv s) : Inv (applyHostCall c s) := by
  have hm := applyHostCall_wf c h.memory
  cases c with
  | reset =>
    obtain ⟨l, u, -, -, heq, -⟩ := resetFromAnyState s
    have hcyc : (hostReset s).cyc = 0 := congrArg State.cyc heq
    have hp : (hostReset s).p = 0x24 := congrArg State.p heq
    exact ⟨hm, by simp [applyHostCall, hcyc], by simp [applyHostCall, hcyc],
      by simp only [applyHostCall, hp]; decide⟩
  | requestInterrupt k => cases k <;> exact h.congr rfl rfl rfl
  | setFlag f b => exact ⟨hm, h.counterLow, h.counterHigh, readFlag_writeFlag_same .unused true _⟩
  | otherWriter a v => exact ⟨hm, h.counterLow, h.counterHigh, h.unused⟩
  | deviceChange d => exact h.congr rfl rfl rfl

/-- So do the calls made before a tick, one after another. -/
theorem applyHostCalls_inv {s : State} (cs : List HostCall) (h : Inv s) :
    Inv (applyHostCalls cs s) := by
  induction cs generalizing s with
  | nil => exact h
  | cons c rest ih => exact ih (applyHostCall_inv c h)

/-- The start of a step keeps the invariant. -/
theorem takeHostCalls_inv {s : State} (h : Inv s) : Inv (takeHostCalls s) :=
  applyHostCalls_inv _ (h.congr rfl rfl rfl)

/-! ### Ticks -/

/-- The entry sequence writes InterruptDisable, not bit 5. -/
theorem enterInterrupt_unused {s : State} (vec : Word) (brk : Bool)
    (hu : readFlag .unused s.p = true) :
    readFlag .unused (enterInterrupt vec brk s).p = true := by
  rw [enterInterrupt_p, readFlag_writeFlag_other _ _ (by decide), hu]

/-- A service leaves 6 ticks. -/
theorem charged_service_inv {e : State} (hm : Memory.wf e.mem = true)
    (hu : readFlag .unused e.p = true) :
    Inv (countDown (charge Params.interruptCycles 0 0 e)) :=
  ⟨hm, by simp [countDown, Params.interruptCycles], by simp [countDown, Params.interruptCycles], hu⟩

/-- The tick of an NMI service keeps the invariant. -/
theorem serviceNmi_inv {s : State} (h : Inv s) : Inv (countDown (serviceNmi s)) := by
  have hm := enterInterrupt_wf nmiVector false h.memory
  have hu := enterInterrupt_unused nmiVector false h.unused
  rw [serviceNmi]
  generalize enterInterrupt nmiVector false s = e at hm hu
  exact charged_service_inv hm hu

/-- The tick of an IRQ service keeps the invariant. -/
theorem serviceIrq_inv {s : State} (h : Inv s) : Inv (countDown (serviceIrq s)) := by
  have hm := enterInterrupt_wf irqVector false h.memory
  have hu := enterInterrupt_unused irqVector false h.unused
  rw [serviceIrq]
  generalize enterInterrupt irqVector false s = e at hm hu
  exact charged_service_inv hm hu

/-- No instruction clears bit 5: where it may write the flag at all, it loads a status byte with bit 5
forced (10_state.md R17). -/
theorem exec_unused {i : Instr} {s t : State} (h : exec i s = .next t)
    (hu : readFlag .unused s.p = true) : readFlag .unused t.p = true := by
  obtain ⟨⟨_, _, hf⟩, -⟩ := did_of_exec h
  cases i with
  | plp =>
    cases h
    exact readFlag_loadedStatus .unused (pull s).1
  | rti =>
    cases h
    simp only [charge_kept, returnFromInterrupt_p]
    exact readFlag_loadedStatus .unused (pull s).1
  | _ => exact (hf.keptFlags .unused (by simp [flagsWritten])).trans hu

/-- An executing tick keeps the invariant: a total of 2 to 8 leaves 1 to 7. -/
theorem executeOne_inv {s t : State} (h : Inv s) (he : executeOne s = .next t) : Inv t := by
  obtain ⟨_, -, hf⟩ := fetchInstr_fetched s
  obtain ⟨u, hu⟩ := exec_eq_next (fetchInstr s).1 (fetchInstr s).2
  obtain ⟨-, calls, hc, -⟩ := did_of_exec hu
  obtain ⟨hlow, hhigh⟩ := exec_cyc_range hu
  rw [executeOne, hu, finish] at he
  cases he
  have hunused := exec_unused hu (fetchInstr_unused s)
  refine ⟨hc.run.wf (hf.calls.run.wf h.memory), ?_, ?_, hunused⟩
  · simp only [countDown, State.setCyc_cyc]
    omega
  · simp only [countDown, State.setCyc_cyc]
    omega

/-- Settles O54: the host's calls, then each of the four kinds of tick. -/
theorem stepKeepsInvariant : Obligations.StepKeepsInvariant := by
  intro s t hs hstep
  have h := takeHostCalls_inv hs
  rw [step] at hstep
  generalize takeHostCalls s = u at h hstep
  obtain ⟨hb, ht⟩ | ⟨-, -, ht⟩ | ⟨-, -, -, ht⟩ | ⟨-, -, -, ht⟩ := tick_cases u
  · cases hstep.symm.trans ht
    have := h.counterHigh
    exact ⟨h.memory, by simp only [countDown, State.setCyc_cyc]; omega,
      by simp only [countDown, State.setCyc_cyc]; omega, h.unused⟩
  · cases hstep.symm.trans ht
    exact serviceNmi_inv h
  · cases hstep.symm.trans ht
    exact serviceIrq_inv h
  · exact executeOne_inv h (ht.symm.trans hstep)

end Sys2Proof.Machine
end

section
/-! PROOFS. The live Break bit is read by no rule (10_state.md R18; the spec's decision D8): every
operation takes states that differ at most in it to states that differ at most in it. -/

namespace Sys2Proof.Machine

/-! ### Status bytes that agree -/

/-- The two status bytes agree at every flag but Break. -/
def AgreeButBreak (p q : Byte) : Prop := ∀ f, f ≠ .break → readFlag f p = readFlag f q

theorem AgreeButBreak.writeFlag {p q : Byte} (h : AgreeButBreak p q) (g : Flag) (b : Bool) :
    AgreeButBreak (writeFlag g b p) (writeFlag g b q) := fun f hf => by
  rw [readFlag_writeFlag, readFlag_writeFlag, h f hf]

theorem AgreeButBreak.setZN {p q : Byte} (h : AgreeButBreak p q) (v : Byte) :
    AgreeButBreak (setZN v p) (setZN v q) :=
  (h.writeFlag .zero _).writeFlag .negative _

theorem AgreeButBreak.setArithmetic {p q : Byte} (h : AgreeButBreak p q) (r : AluOut) :
    AgreeButBreak (setArithmetic r p) (setArithmetic r q) :=
  (((h.writeFlag .carry _).writeFlag .overflow _).writeFlag .zero _).writeFlag .negative _

theorem AgreeButBreak.compareFlags {p q : Byte} (h : AgreeButBreak p q) (r m : Byte) :
    AgreeButBreak (compareFlags r m p) (compareFlags r m q) :=
  ((h.writeFlag .carry _).writeFlag .zero _).writeFlag .negative _

theorem AgreeButBreak.bitFlags {p q : Byte} (h : AgreeButBreak p q) (a m : Byte) :
    AgreeButBreak (bitFlags a m p) (bitFlags a m q) :=
  ((h.writeFlag .zero _).writeFlag .negative _).writeFlag .overflow _

/-- The cores read Decimal and Carry alone. -/
theorem AgreeButBreak.addCore_eq {p q : Byte} (h : AgreeButBreak p q) (a m : Byte) :
    addCore a m p = addCore a m q := by
  simp only [addCore, h .decimal (by decide), h .carry (by decide)]

theorem AgreeButBreak.subCore_eq {p q : Byte} (h : AgreeButBreak p q) (a m : Byte) :
    subCore a m p = subCore a m q := by
  simp only [subCore, h .decimal (by decide), h .carry (by decide)]

/-- The pushed copy carries its own Break bit (10_state.md R18). -/
theorem AgreeButBreak.pushedStatus_eq {p q : Byte} (h : AgreeButBreak p q) (brk : Bool) :
    pushedStatus p brk = pushedStatus q brk := status_ext fun f => by
  rw [readFlag_pushedStatus, readFlag_pushedStatus]
  by_cases hb : f = .break
  · rw [if_pos hb, if_pos hb]
  · rw [h f hb]

/-- So does the byte PHP pushes. -/
theorem AgreeButBreak.or_breakUnused_eq {p q : Byte} (h : AgreeButBreak p q) :
    p ||| 0x30 = q ||| 0x30 := status_ext fun f => by
  rw [readFlag_or_breakUnused, readFlag_or_breakUnused]
  by_cases hb : f = .break
  · rw [if_pos (.inl hb), if_pos (.inl hb)]
  · rw [h f hb]

/-! ### States that differ at most in the Break bit -/

/-- Such states are one state with two status bytes. -/
theorem SameButBreak.exists_setP {s t : State} (h : SameButBreak s t) :
    ∃ q, t = s.setP q ∧ AgreeButBreak s.p q := by
  obtain ⟨hrest, hflags⟩ := h
  have ht : (t.setP 0).setP t.p = (s.setP 0).setP t.p := by rw [hrest]
  exact ⟨t.p, ht, hflags⟩

/-- A state whose status byte is the first, beside itself with the second. -/
theorem AgreeButBreak.same {p q : Byte} (h : AgreeButBreak p q) {t : State} (ht : t.p = p) :
    SameButBreak t (t.setP q) :=
  ⟨rfl, fun f hf => (congrArg (readFlag f) ht).trans (h f hf)⟩

/-- `g` takes states that differ at most in the live Break bit to such states. -/
def IgnoresBreak (g : State → State) : Prop := ∀ s q, AgreeButBreak s.p q →
  SameButBreak (g s) (g (s.setP q))

/-- An operation that neither reads nor writes the status byte. -/
theorem IgnoresBreak.of_setP {g : State → State} (hg : ∀ q s, g (s.setP q) = (g s).setP q)
    (hp : ∀ s, (g s).p = s.p) : IgnoresBreak g := fun s q h => by
  rw [hg]
  exact h.same (hp s)

/-- One operation after another. -/
theorem IgnoresBreak.comp {g g' : State → State} (h' : IgnoresBreak g') (h : IgnoresBreak g) :
    IgnoresBreak fun s => g' (g s) := fun s q hq => by
  obtain ⟨q', he, hq'⟩ := (h s q hq).exists_setP
  show SameButBreak (g' (g s)) (g' (g (s.setP q)))
  rw [he]
  exact h' (g s) q' hq'

/-- The cycle charge. -/
theorem IgnoresBreak.charged {g : State → State} (h : IgnoresBreak g) (base ax ox : Nat) :
    IgnoresBreak fun s => charge base ax ox (g s) :=
  IgnoresBreak.comp (g' := charge base ax ox) (.of_setP (fun _ _ => rfl) fun _ => rfl) h

/-! ### The classes -/

/-- The read class around an operation that ignores the bit. -/
theorem readOp_ignoresBreak {k : Byte → State → State} (o : Operand)
    (hk : ∀ m, IgnoresBreak (k m)) : IgnoresBreak (readOp o k) := fun s q hq => by
  have h := (hk (operandByte o s)).charged (readCycles o) (resolve o s).extra 0 (afterOperand o s) q
    (by simpa using hq)
  simpa only [readOp_eq, operandByte_setP, afterOperand_setP, resolve_setP] using h

/-- The write class. -/
theorem storeOp_setP (o : Operand) (v q : Byte) (s : State) :
    storeOp o v (s.setP q) = (storeOp o v s).setP q := by
  simp only [storeOp_eq, resolve_setP, writePlace_setP]
  rfl

/-- The read-modify-write class around an operation whose result ignores the bit. -/
theorem modifyOp_ignoresBreak {f : Byte → Byte → Byte × Byte} (o : Operand)
    (hf : ∀ v p q, AgreeButBreak p q → (f v p).1 = (f v q).1 ∧ AgreeButBreak (f v p).2 (f v q).2) :
    IgnoresBreak (modifyOp o f) := fun s q hq => by
  obtain ⟨hr, hs⟩ := hf (operandByte o s) s.p q hq
  simp only [modifyOp_eq, operandByte_setP, afterOperand_setP, resolve_setP, writePlace_setP,
    State.setP_p, ← hr]
  exact ⟨rfl, hs⟩

/-- A branch whose condition is a flag other than Break, or its negation. -/
theorem branchOp_ignoresBreak {f : Flag} (hf : f ≠ .break) (n : Bool → Bool) (d : Byte) :
    IgnoresBreak fun s => branchOp (n (readFlag f s.p)) d s := fun s q hq => by
  simp only [State.setP_p, ← hq f hf]
  cases n (readFlag f s.p) <;> exact ⟨rfl, hq⟩

/-! ### Operations on registers and flags -/

theorem applyFlag_ignoresBreak (f : Flag) (b : Bool) : IgnoresBreak (applyFlag f b) :=
  fun _ _ hq => ⟨rfl, hq.writeFlag f b⟩

/-- `r <- v; SetZN(r)` of a value that ignores the status byte, for each register. -/
theorem putA_ignoresBreak {v : State → Byte} (hv : ∀ q s, v (s.setP q) = v s) :
    IgnoresBreak fun s => putA (v s) s := fun s q hq => by
  simp only [hv]
  exact ⟨rfl, hq.setZN (v s)⟩

theorem putX_ignoresBreak {v : State → Byte} (hv : ∀ q s, v (s.setP q) = v s) :
    IgnoresBreak fun s => putX (v s) s := fun s q hq => by
  simp only [hv]
  exact ⟨rfl, hq.setZN (v s)⟩

theorem putY_ignoresBreak {v : State → Byte} (hv : ∀ q s, v (s.setP q) = v s) :
    IgnoresBreak fun s => putY (v s) s := fun s q hq => by
  simp only [hv]
  exact ⟨rfl, hq.setZN (v s)⟩

/-- ADC and SBC. -/
theorem putArithmetic_ignoresBreak {core : Byte → Byte → Byte → AluOut} (m : Byte)
    (hc : ∀ a p q, AgreeButBreak p q → core a m p = core a m q) :
    IgnoresBreak fun s => putArithmetic (core s.a m s.p) s := fun s q hq => by
  simp only [State.setP_a, State.setP_p, ← hc s.a s.p q hq]
  exact ⟨rfl, hq.setArithmetic _⟩

/-- A shift reads no flag but the Carry it rotates in, and writes flags alike. -/
theorem shifted_agree {p q : Byte} (h : AgreeButBreak p q) (r : Byte) (out : Bool) :
    (shifted r out p).1 = (shifted r out q).1 ∧
      AgreeButBreak (shifted r out p).2 (shifted r out q).2 :=
  ⟨rfl, (h.writeFlag .carry out).setZN r⟩

/-! ### The interrupt sequence and the return -/

/-- The three pushes of the entry sequence. -/
theorem pushFrame_ignoresBreak (brk : Bool) :
    IgnoresBreak fun s => push (pushedStatus (pushWord s.pc s).p brk) (pushWord s.pc s) :=
  fun s q hq => by
    have hp : (pushWord s.pc s).p = s.p := by simp
    simp only [State.setP_pc, pushWord_setP, State.setP_p, push_setP, hp, ← hq.pushedStatus_eq brk]
    exact hq.same (by simp)

/-- The read of a vector into `PC`. -/
theorem loadVector_ignoresBreak (vec : Word) :
    IgnoresBreak fun s => (readWord vec (vec + 1) s).2.setPc (readWord vec (vec + 1) s).1 :=
  .of_setP (fun q s => by rw [readWord_setP]; rfl) fun s => by simp

theorem enterInterrupt_ignoresBreak (vec : Word) (brk : Bool) :
    IgnoresBreak (enterInterrupt vec brk) :=
  (loadVector_ignoresBreak vec).comp
    ((applyFlag_ignoresBreak .interruptDisable true).comp (pushFrame_ignoresBreak brk))

theorem pullStatus_setP (q : Byte) (s : State) : pullStatus (s.setP q) = pullStatus s := by
  simp only [pullStatus, pull_setP]
  rfl

theorem returnFromInterrupt_setP (q : Byte) (s : State) :
    returnFromInterrupt (s.setP q) = returnFromInterrupt s := by
  simp only [returnFromInterrupt, pullStatus_setP]

/-! ### Every instruction -/

/-- An instruction whose arm is `g`. -/
theorem IgnoresBreak.next {g : State → State} (hg : IgnoresBreak g) {s : State} {q : Byte}
    (hq : AgreeButBreak s.p q) {o o' : Host.Outcome State Fault Refusal} (ho : o = .next (g s))
    (ho' : o' = .next (g (s.setP q))) :
    ∃ t t', o = .next t ∧ o' = .next t' ∧ SameButBreak t t' :=
  ⟨g s, g (s.setP q), ho, ho', hg s q hq⟩

theorem writePlace_p (p : Place) (v : Byte) (s : State) : (writePlace p v s).p = s.p := by
  cases p <;> simp [writePlace]

/-- A store of a value that ignores the status byte. -/
theorem storeOp_ignoresBreak {v : State → Byte} (hv : ∀ q s, v (s.setP q) = v s) (o : Operand) :
    IgnoresBreak fun s => storeOp o (v s) s :=
  .of_setP (fun q s => by rw [hv, storeOp_setP]) fun s => by
    simp [storeOp_eq, writePlace_p]

/-- A push of a value that is the same for status bytes that agree. -/
theorem push_ignoresBreak {v : State → Byte}
    (hv : ∀ s q, AgreeButBreak s.p q → v (s.setP q) = v s) :
    IgnoresBreak fun s => push (v s) s := fun s q hq => by
  simp only [hv s q hq, push_setP]
  exact hq.same (by simp)

/-- PLA's pull. -/
theorem pullA_ignoresBreak : IgnoresBreak fun s => putA (pull s).1 (pull s).2 := fun s q hq => by
  simp only [pull_setP]
  exact (putA_ignoresBreak (v := fun _ => (pull s).1) fun _ _ => rfl) (pull s).2 q (by simpa using hq)

theorem resolveTarget_p (g : Target) (s : State) : (resolveTarget g s).2.p = s.p := by
  cases g <;> simp [resolveTarget, readJumpPointer]

/-- `exec` takes states that differ at most in the live Break bit to such states. -/
theorem exec_ignoresBreak (i : Instr) {s : State} {q : Byte} (hq : AgreeButBreak s.p q) :
    ∃ t t', exec i s = .next t ∧ exec i (s.setP q) = .next t' ∧ SameButBreak t t' := by
  cases i with
  | adc o =>
    exact (readOp_ignoresBreak o fun m => putArithmetic_ignoresBreak (core := addCore) m
      fun a _ _ h => h.addCore_eq a m).next hq rfl rfl
  | sbc o =>
    exact (readOp_ignoresBreak o fun m => putArithmetic_ignoresBreak (core := subCore) m
      fun a _ _ h => h.subCore_eq a m).next hq rfl rfl
  | and o =>
    exact (readOp_ignoresBreak o fun m => putA_ignoresBreak (v := fun t => t.a &&& m)
      fun _ _ => rfl).next hq rfl rfl
  | ora o =>
    exact (readOp_ignoresBreak o fun m => putA_ignoresBreak (v := fun t => t.a ||| m)
      fun _ _ => rfl).next hq rfl rfl
  | eor o =>
    exact (readOp_ignoresBreak o fun m => putA_ignoresBreak (v := fun t => t.a ^^^ m)
      fun _ _ => rfl).next hq rfl rfl
  | lda o =>
    exact (readOp_ignoresBreak o fun m => putA_ignoresBreak (v := fun _ => m)
      fun _ _ => rfl).next hq rfl rfl
  | ldx o =>
    exact (readOp_ignoresBreak o fun m => putX_ignoresBreak (v := fun _ => m)
      fun _ _ => rfl).next hq rfl rfl
  | ldy o =>
    exact (readOp_ignoresBreak o fun m => putY_ignoresBreak (v := fun _ => m)
      fun _ _ => rfl).next hq rfl rfl
  | bit o =>
    exact (readOp_ignoresBreak (k := fun m t => t.setP (bitFlags t.a m t.p)) o
      fun m _ _ h => ⟨rfl, h.bitFlags _ m⟩).next hq rfl rfl
  | cmp o =>
    exact (readOp_ignoresBreak (k := fun m t => t.setP (compareFlags t.a m t.p)) o
      fun m _ _ h => ⟨rfl, h.compareFlags _ m⟩).next hq rfl rfl
  | cpx o =>
    exact (readOp_ignoresBreak (k := fun m t => t.setP (compareFlags t.x m t.p)) o
      fun m _ _ h => ⟨rfl, h.compareFlags _ m⟩).next hq rfl rfl
  | cpy o =>
    exact (readOp_ignoresBreak (k := fun m t => t.setP (compareFlags t.y m t.p)) o
      fun m _ _ h => ⟨rfl, h.compareFlags _ m⟩).next hq rfl rfl
  | asl o =>
    exact (modifyOp_ignoresBreak (f := aslOp) o fun _ _ _ h => shifted_agree h _ _).next hq rfl rfl
  | lsr o =>
    exact (modifyOp_ignoresBreak (f := lsrOp) o fun _ _ _ h => shifted_agree h _ _).next hq rfl rfl
  | rol o =>
    refine (modifyOp_ignoresBreak (f := rolOp) o fun v p q h => ?_).next hq rfl rfl
    rw [rolOp, rolOp, h .carry (by decide)]
    exact shifted_agree h _ _
  | ror o =>
    refine (modifyOp_ignoresBreak (f := rorOp) o fun v p q h => ?_).next hq rfl rfl
    rw [rorOp, rorOp, h .carry (by decide)]
    exact shifted_agree h _ _
  | inc o =>
    exact (modifyOp_ignoresBreak (f := incOp) o fun _ _ _ h => ⟨rfl, h.setZN _⟩).next hq rfl rfl
  | dec o =>
    exact (modifyOp_ignoresBreak (f := decOp) o fun _ _ _ h => ⟨rfl, h.setZN _⟩).next hq rfl rfl
  | sta o => exact (storeOp_ignoresBreak (v := State.a) (fun _ _ => rfl) o).next hq rfl rfl
  | stx o => exact (storeOp_ignoresBreak (v := State.x) (fun _ _ => rfl) o).next hq rfl rfl
  | sty o => exact (storeOp_ignoresBreak (v := State.y) (fun _ _ => rfl) o).next hq rfl rfl
  | tax | tay | txa | tya | tsx | inx | iny | dex | dey =>
    exact ⟨_, _, rfl, rfl, rfl, hq.setZN _⟩
  | bcc d => exact (branchOp_ignoresBreak (f := .carry) (by decide) (! ·) d).next hq rfl rfl
  | bcs d => exact (branchOp_ignoresBreak (f := .carry) (by decide) (·) d).next hq rfl rfl
  | bne d => exact (branchOp_ignoresBreak (f := .zero) (by decide) (! ·) d).next hq rfl rfl
  | beq d => exact (branchOp_ignoresBreak (f := .zero) (by decide) (·) d).next hq rfl rfl
  | bpl d => exact (branchOp_ignoresBreak (f := .negative) (by decide) (! ·) d).next hq rfl rfl
  | bmi d => exact (branchOp_ignoresBreak (f := .negative) (by decide) (·) d).next hq rfl rfl
  | bvc d => exact (branchOp_ignoresBreak (f := .overflow) (by decide) (! ·) d).next hq rfl rfl
  | bvs d => exact (branchOp_ignoresBreak (f := .overflow) (by decide) (·) d).next hq rfl rfl
  | jmp g =>
    have h : IgnoresBreak fun s => (resolveTarget g s).2.setPc (resolveTarget g s).1 :=
      .of_setP (fun q s => by rw [resolveTarget_setP]; rfl) fun s => by
        rw [State.setPc_p, resolveTarget_p]
    exact (h.charged (jumpCycles g) 0 0).next hq rfl rfl
  | jsr w =>
    have h : IgnoresBreak fun s => (pushWord (s.pc - 1) s).setPc w :=
      .of_setP (fun q s => by rw [State.setP_pc, pushWord_setP]; rfl) fun s => by simp
    exact (h.charged 6 0 0).next hq rfl rfl
  | rts =>
    have h : IgnoresBreak fun s => (pullWord s).2.setPc ((pullWord s).1 + 1) :=
      .of_setP (fun q s => by rw [pullWord_setP]; rfl) fun s => by simp
    exact (h.charged 6 0 0).next hq rfl rfl
  | pha =>
    exact ((push_ignoresBreak (v := State.a) fun _ _ _ => rfl).charged 3 0 0).next hq rfl rfl
  | php =>
    exact ((push_ignoresBreak (v := fun s => s.p ||| 0x30)
      fun _ _ h => h.or_breakUnused_eq.symm).charged 3 0 0).next hq rfl rfl
  | pla => exact (pullA_ignoresBreak.charged 4 0 0).next hq rfl rfl
  | plp =>
    refine ⟨_, _, rfl, congrArg (Host.Outcome.next ∘ charge 4 0 0) (pullStatus_setP q s), rfl, ?_⟩
    exact fun _ _ => rfl
  | rti =>
    refine ⟨_, _, rfl, congrArg (Host.Outcome.next ∘ charge 6 0 0) (returnFromInterrupt_setP q s),
      rfl, ?_⟩
    exact fun _ _ => rfl
  | brk =>
    have h : IgnoresBreak fun s => s.setPc (s.pc + Params.brkPushOffset) := fun _ _ h => ⟨rfl, h⟩
    exact (((enterInterrupt_ignoresBreak irqVector true).comp h).charged 7 0 0).next hq rfl rfl
  | clc | sec | cli | sei | cld | sed | clv => exact ⟨_, _, rfl, rfl, rfl, hq.writeFlag _ _⟩
  | txs | nop | undoc op => exact ⟨_, _, rfl, rfl, rfl, hq⟩

/-! ### The fetch -/

theorem fetchByte_setP (q : Byte) (s : State) :
    fetchByte (s.setP q) = ((fetchByte s).1, (fetchByte s).2.setP q) := by
  simp only [fetchByte, State.setP_pc, busRead_setP]
  rfl

theorem fetchWord_setP (q : Byte) (s : State) :
    fetchWord (s.setP q) = ((fetchWord s).1, (fetchWord s).2.setP q) := by
  simp only [fetchWord, fetchByte_setP]

theorem fetchByte_p (s : State) : (fetchByte s).2.p = s.p := by simp [fetchByte]

theorem fetchWord_p (s : State) : (fetchWord s).2.p = s.p := by
  rw [fetchWord, fetchByte_p, fetchByte_p]

/-- The opcode byte and the state that the operand bytes are fetched from: the fetch without the
lookup. -/
theorem fetchOpcode_ignoresBreak : IgnoresBreak fun s => applyFlag .unused true (fetchByte s).2 :=
  (applyFlag_ignoresBreak .unused true).comp
    (.of_setP (fun q s => by rw [fetchByte_setP]) fetchByte_p)

/-- The same instruction is fetched, and the states after it differ at most in the live Break bit. -/
theorem fetchInstr_ignoresBreak {s : State} {q : Byte} (hq : AgreeButBreak s.p q) :
    (fetchInstr (s.setP q)).1 = (fetchInstr s).1 ∧
      SameButBreak (fetchInstr s).2 (fetchInstr (s.setP q)).2 := by
  have hop : (fetchByte (s.setP q)).1 = (fetchByte s).1 := by rw [fetchByte_setP]
  obtain ⟨q', he, hq'⟩ := (fetchOpcode_ignoresBreak s q hq).exists_setP
  simp only [fetchInstr, hop, he]
  cases formOf (fetchByte s).1 with
  | f1 i => exact ⟨rfl, rfl, hq'⟩
  | f2 mk =>
    rw [fetchByte_setP]
    exact ⟨rfl, hq'.same (fetchByte_p _)⟩
  | f3 mk =>
    rw [fetchWord_setP]
    exact ⟨rfl, hq'.same (fetchWord_p _)⟩

/-! ### The host's calls -/

/-- Reset writes the whole status byte. -/
theorem hostReset_setP (q : Byte) (s : State) : hostReset (s.setP q) = hostReset s := rfl

theorem applyHostCall_ignoresBreak (c : HostCall) : IgnoresBreak (applyHostCall c) := fun s q hq => by
  cases c with
  | reset =>
    rw [applyHostCall, applyHostCall, hostReset_setP]
    exact ⟨rfl, fun _ _ => rfl⟩
  | requestInterrupt k => cases k <;> exact ⟨rfl, hq⟩
  | setFlag f b => exact ⟨rfl, (hq.writeFlag f b).writeFlag .unused true⟩
  | otherWriter a v => exact ⟨rfl, hq⟩
  | deviceChange d => exact ⟨rfl, hq⟩

theorem applyHostCalls_ignoresBreak (cs : List HostCall) : IgnoresBreak (applyHostCalls cs) := by
  induction cs with
  | nil => exact fun _ _ hq => ⟨rfl, hq⟩
  | cons c cs ih => exact ih.comp (applyHostCall_ignoresBreak c)

theorem takeHostCalls_ignoresBreak : IgnoresBreak takeHostCalls := fun s q hq =>
  applyHostCalls_ignoresBreak (callsNow s) ((s.setBusLog []).setAgenda s.agenda.tail) q hq

/-! ### The tick -/

theorem countDown_ignoresBreak : IgnoresBreak countDown := fun _ _ hq => ⟨rfl, hq⟩

theorem serviceNmi_ignoresBreak : IgnoresBreak serviceNmi :=
  (IgnoresBreak.comp (g' := fun s => s.setNmi false) (fun _ _ hq => ⟨rfl, hq⟩)
    (enterInterrupt_ignoresBreak nmiVector false)).charged Params.interruptCycles 0 0

theorem serviceIrq_ignoresBreak : IgnoresBreak serviceIrq :=
  (IgnoresBreak.comp (g' := fun s => s.setIrq false) (fun _ _ hq => ⟨rfl, hq⟩)
    (enterInterrupt_ignoresBreak irqVector false)).charged Params.interruptCycles 0 0

/-- Whether an IRQ is serviceable rests on Interrupt Disable alone. -/
theorem irqServiceable_setP {s : State} {q : Byte} (hq : AgreeButBreak s.p q) :
    irqServiceable (s.setP q) = irqServiceable s := by
  simp only [irqServiceable, State.setP_irqPending, State.setP_p, hq .interruptDisable (by decide)]

theorem executeOne_ignoresBreak {s : State} {q : Byte} (hq : AgreeButBreak s.p q) :
    ∃ t t', executeOne s = .next t ∧ executeOne (s.setP q) = .next t' ∧ SameButBreak t t' := by
  obtain ⟨hi, hs⟩ := fetchInstr_ignoresBreak hq
  obtain ⟨q', he, hq'⟩ := hs.exists_setP
  obtain ⟨t, t', ht, ht', hsame⟩ := exec_ignoresBreak (fetchInstr s).1 hq'
  obtain ⟨q'', rfl, hq''⟩ := hsame.exists_setP
  refine ⟨countDown t, countDown (t.setP q''), ?_, ?_, countDown_ignoresBreak t q'' hq''⟩
  · rw [executeOne, ht]
    rfl
  · rw [executeOne, hi, he, ht']
    rfl

/-- Both states take the same of the four ticks. -/
theorem tick_ignoresBreak {s : State} {q : Byte} (hq : AgreeButBreak s.p q) :
    ∃ t t', tick s = .next t ∧ tick (s.setP q) = .next t' ∧ SameButBreak t t' := by
  have hi := irqServiceable_setP hq
  obtain ⟨hb, h⟩ | ⟨hb, hn, h⟩ | ⟨hb, hn, hirq, h⟩ | ⟨hb, hn, hirq, h⟩ := tick_cases s
  · exact countDown_ignoresBreak.next hq h (tick_busy hb)
  · exact (countDown_ignoresBreak.comp serviceNmi_ignoresBreak).next hq h (tick_nmi hb hn)
  · exact (countDown_ignoresBreak.comp serviceIrq_ignoresBreak).next hq h
      (tick_irq hb hn (hi.trans hirq))
  · rw [h, tick_execute (s := s.setP q) hb hn (hi.trans hirq)]
    exact executeOne_ignoresBreak hq

/-- Settles O57: the two states are one with two status bytes; the host's calls and then the tick keep
it so. -/
theorem liveBreakBitIsNeverRead : Obligations.LiveBreakBitIsNeverRead := by
  intro s t hst
  obtain ⟨q, rfl, hq⟩ := hst.exists_setP
  obtain ⟨q', he, hq'⟩ := (takeHostCalls_ignoresBreak s q hq).exists_setP
  rw [step, step, he]
  exact tick_ignoresBreak hq'

end Sys2Proof.Machine
end
